-- ==== Sys2Proof/Word.lean ====
section
/-! DEFINITION. The word types of QDCT: what the spec treats as bits (20_memory.md R60, R64; 00_scope.md R6). -/

namespace Sys2Proof

/-- A 32-bit bus word (`DATA_BITS = 32`, 00_scope.md R6). -/
abbrev Word := BitVec 32

/-- One byte of a word; a stored sample is one byte (`SAMPLE_BITS = 8`, 00_scope.md R6). -/
abbrev Byte := BitVec 8

/-- A stored level: 16-bit two's complement (`LEVEL_BITS = 16`, 00_scope.md R6). -/
abbrev Level := BitVec 16

/-- A byte offset in the slave window (`ADDR_BITS = 12`, 20_memory.md R60). -/
abbrev Offset := BitVec 12

end Sys2Proof
end

