-- ==== Sys2Proof/Syntax.lean ====
section
/-! DEFINITION. The syntax: the twelve commands of spec/opcode_table.json, the assembler's mnemonics and operands,
bus transactions and host scripts (30_encoding.md R90 to R98). -/

namespace Sys2Proof

/-- The chroma plane a command names by bit 8 of its word (30_encoding.md R90, R91): 0 = Cb, 1 = Cr. -/
inductive Plane where
  | cb
  | cr
deriving DecidableEq, Repr

/-- The twelve commands (30_encoding.md R92), one constructor per row of spec/opcode_table.json.
`blk` is the raster index of a 4×4 luma sub-block (R91). -/
inductive Instr where
  | nop
  | fwdL4 (blk : Fin 16)
  | invL4 (blk : Fin 16)
  | rtL4 (blk : Fin 16)
  | fwdL16
  | invL16
  | rtL16
  | fwdC8 (plane : Plane)
  | invC8 (plane : Plane)
  | rtC8 (plane : Plane)
  | pcmCopy
  | clrCoef
deriving DecidableEq, Repr

/-- The assembler's twelve mnemonics (30_encoding.md R95). -/
inductive Mnemonic where
  | NOP | FWD_L4 | INV_L4 | RT_L4 | FWD_L16 | INV_L16 | RT_L16
  | FWD_C8 | INV_C8 | RT_C8 | PCM_COPY | CLR_COEF
deriving DecidableEq, Repr

/-- An assembler operand as written (30_encoding.md R95): a decimal number, or `cb` or `cr`. -/
inductive AsmOperand where
  | number (n : Nat)
  | plane (p : Plane)
deriving DecidableEq, Repr

/-- An assembler line for a command: a mnemonic and at most one operand (30_encoding.md R95). -/
structure AsmCommand where
  mnemonic : Mnemonic
  operand  : Option AsmOperand
deriving DecidableEq, Repr

/-- A host bus transaction (20_memory.md R64). Only the size of 4 bytes exists.
A `write` is also the triple `(W, off, data)` and a `read` the pair `(R, off)` of 30_encoding.md R98. -/
inductive Txn where
  | read (off : Offset)
  | write (off : Offset) (data : Word)
deriving DecidableEq, Repr

/-- A statement of a host script after assembly (30_encoding.md R96): labels are statement positions (R99). -/
inductive Stmt where
  | wr (off : Offset) (data : Word)
  | rd (off : Offset)
  | poll (off : Offset) (mask value : Word)
  | bne (off : Offset) (mask value : Word) (target : Nat)
deriving DecidableEq, Repr

/-- A line of a host script as written (30_encoding.md R96, R97). `rd`'s `expected` is the trailing `=> value`, a remark
for the reader. Label names are numbers here. -/
inductive Line where
  | wr (off : Offset) (data : Word)
  | rd (off : Offset) (expected : Option Word)
  | poll (off : Offset) (mask value : Word)
  | label (name : Nat)
  | bne (off : Offset) (mask value : Word) (name : Nat)
  | command (c : AsmCommand)
  | wait
  | clrst
  | wrblk4 (base : Offset) (samples : Vector Byte 16)
deriving DecidableEq, Repr

end Sys2Proof
end

