-- ==== Sys2Proof/WellFormed.lean ====
section
/-! DEFINITION. Well-formedness of what is written: assembler commands (30_encoding.md R95) and host scripts (R96).
An `Instr` is well-formed by its type: a block index is below 16 and a plane is Cb or Cr (R90). -/

namespace Sys2Proof

/-- What operand a mnemonic takes (30_encoding.md R95). -/
inductive OperandKind where
  | none
  | block
  | plane
deriving DecidableEq, Repr

def Mnemonic.operandKind : Mnemonic → OperandKind
  | .NOP | .FWD_L16 | .INV_L16 | .RT_L16 | .PCM_COPY | .CLR_COEF => .none
  | .FWD_L4 | .INV_L4 | .RT_L4 => .block
  | .FWD_C8 | .INV_C8 | .RT_C8 => .plane

/-- "An assembler rejects an operand out of range, a missing operand, or an operand on a command that takes none"
(30_encoding.md R95). -/
def AsmCommand.wf (c : AsmCommand) : Bool :=
  match c.mnemonic.operandKind, c.operand with
  | .none, none => true
  | .block, some (.number n) => decide (n < 16)
  | .plane, some (.plane _) => true
  | _, _ => false

/-- A label names a statement of the script (30_encoding.md R96), or the position just after its last one. -/
def Stmt.wf (len : Nat) : Stmt → Bool
  | .bne _ _ _ target => decide (target ≤ len)
  | .wr _ _ | .rd _ | .poll _ _ _ => true

/-- Every branch of an assembled script goes to a position of the script (30_encoding.md R96, R99). DESIGN CHOICE: R96 calls
`POLL` "the only loop" yet gives `BNE`'s label no direction; a branch to an earlier position is accepted (log entry 10). -/
def scriptWf (p : List Stmt) : Bool := p.all (Stmt.wf p.length)

end Sys2Proof
end

