-- ==== Sys2Proof/Decode.lean ====
section
/-! DEFINITION. The command decoder, total on all 2^32 words (30_encoding.md R90 to R94), and after it the encoder and the
words of assembler commands (R95). -/

namespace Sys2Proof

/-- Why a word is `invalid` (30_encoding.md R92, R93). -/
inductive Invalid where
  /-- OP is 0xC–0xF. -/
  | reservedOp
  /-- OP is 0x0–0xB and a bit that the command requires to be zero is not. -/
  | nonzeroField
deriving DecidableEq, Repr

/-- `CMD[3:0] OP` (30_encoding.md R90). -/
def opField (w : Word) : Nat := (w.extractLsb' 0 4).toNat

/-- `CMD[7:4] BLK` (30_encoding.md R90). -/
def blkField (w : Word) : Fin 16 := (w.extractLsb' 4 4).toFin

/-- `CMD[8] PLANE`: 0 = Cb, 1 = Cr (30_encoding.md R90, R91). -/
def planeField (w : Word) : Plane := if w.getLsbD 8 then .cr else .cb

/-- A command whose word is its OP alone: `w[31:4] = 0` (30_encoding.md R92). -/
def plainCommand (w : Word) (i : Instr) : Except Invalid Instr :=
  if w.extractLsb' 4 28 = 0 then .ok i else .error .nonzeroField

/-- A command with a BLK field: `w[31:8] = 0` (30_encoding.md R92). -/
def blockCommand (w : Word) (f : Fin 16 → Instr) : Except Invalid Instr :=
  if w.extractLsb' 8 24 = 0 then .ok (f (blkField w)) else .error .nonzeroField

/-- A command with a PLANE field: `w[31:9] = 0` and `w[7:4] = 0` (30_encoding.md R92). -/
def planeCommand (w : Word) (f : Plane → Instr) : Except Invalid Instr :=
  if w.extractLsb' 9 23 = 0 ∧ w.extractLsb' 4 4 = 0 then .ok (f (planeField w)) else .error .nonzeroField

/-- `decode(w)` (30_encoding.md R92). -/
def decode (w : Word) : Except Invalid Instr :=
  match opField w with
  | 0x0 => plainCommand w .nop
  | 0x1 => blockCommand w .fwdL4
  | 0x2 => blockCommand w .invL4
  | 0x3 => blockCommand w .rtL4
  | 0x4 => plainCommand w .fwdL16
  | 0x5 => plainCommand w .invL16
  | 0x6 => plainCommand w .rtL16
  | 0x7 => planeCommand w .fwdC8
  | 0x8 => planeCommand w .invC8
  | 0x9 => planeCommand w .rtC8
  | 0xA => plainCommand w .pcmCopy
  | 0xB => plainCommand w .clrCoef
  | _ => .error .reservedOp

/-- The decoder on a row of spec/opcode_table.json: the one 32-bit word `w` (30_encoding.md R94); bits of `w` above
`nbits` are no part of the row's instruction, and a number that does not fit one word is no command. -/
def decodeTableWord (nbits w : Nat) : Option Instr :=
  if w % 2 ^ nbits < 2 ^ 32 then (decode (BitVec.ofNat 32 (w % 2 ^ nbits))).toOption else none

/-- OP of a command (30_encoding.md R92). -/
def Instr.op : Instr → BitVec 4
  | .nop => 0x0
  | .fwdL4 _ => 0x1
  | .invL4 _ => 0x2
  | .rtL4 _ => 0x3
  | .fwdL16 => 0x4
  | .invL16 => 0x5
  | .rtL16 => 0x6
  | .fwdC8 _ => 0x7
  | .invC8 _ => 0x8
  | .rtC8 _ => 0x9
  | .pcmCopy => 0xA
  | .clrCoef => 0xB

/-- BLK of a command, 0 where it takes none (30_encoding.md R90). -/
def Instr.blkBits : Instr → BitVec 4
  | .fwdL4 b | .invL4 b | .rtL4 b => BitVec.ofFin b
  | .nop | .fwdL16 | .invL16 | .rtL16 | .fwdC8 _ | .invC8 _ | .rtC8 _ | .pcmCopy | .clrCoef => 0

/-- PLANE of a command, 0 where it takes none (30_encoding.md R90). -/
def Instr.planeBit : Instr → BitVec 1
  | .fwdC8 p | .invC8 p | .rtC8 p => if p = .cr then 1 else 0
  | .nop | .fwdL4 _ | .invL4 _ | .rtL4 _ | .fwdL16 | .invL16 | .rtL16 | .pcmCopy | .clrCoef => 0

/-- The word of a command: 23 zeros, then PLANE, BLK, OP (30_encoding.md R90). -/
def encode (i : Instr) : Word := (0 : BitVec 23) ++ i.planeBit ++ i.blkBits ++ i.op

/-- The command that an assembler line names, `none` where the assembler rejects the line (30_encoding.md R95). -/
def AsmCommand.instr (c : AsmCommand) : Option Instr :=
  match c.mnemonic, c.operand with
  | .NOP, none => some .nop
  | .FWD_L4, some (.number n) => if h : n < 16 then some (.fwdL4 ⟨n, h⟩) else none
  | .INV_L4, some (.number n) => if h : n < 16 then some (.invL4 ⟨n, h⟩) else none
  | .RT_L4, some (.number n) => if h : n < 16 then some (.rtL4 ⟨n, h⟩) else none
  | .FWD_L16, none => some .fwdL16
  | .INV_L16, none => some .invL16
  | .RT_L16, none => some .rtL16
  | .FWD_C8, some (.plane p) => some (.fwdC8 p)
  | .INV_C8, some (.plane p) => some (.invC8 p)
  | .RT_C8, some (.plane p) => some (.rtC8 p)
  | .PCM_COPY, none => some .pcmCopy
  | .CLR_COEF, none => some .clrCoef
  | _, _ => none

/-- The word of an assembler line (30_encoding.md R95). -/
def AsmCommand.word (c : AsmCommand) : Option Word := c.instr.map encode

end Sys2Proof
end

