-- ==== Sys2Proof/Machine/Params.lean ====
section
/-! DEFINITION. The fixed parameters of 00_scope.md R6, the operators of R9, and the well-formedness of a configuration
(R7, R8). -/

namespace Sys2Proof.Machine

/-- `Clip3(lo, hi, v)` (00_scope.md R9). -/
def clip3 (lo hi v : Int) : Int := if v < lo then lo else if hi < v then hi else v

/-- `a >> n`: `floor(a / 2^n)`, rounding toward minus infinity (00_scope.md R9, 41_inverse.md R145). -/
def shr (a : Int) (n : Nat) : Int := a / 2 ^ n

/-- `a << n`: `a * 2^n` (00_scope.md R9). -/
def shl (a : Int) (n : Nat) : Int := a * 2 ^ n

/-- `ID_VALUE` (00_scope.md R6, 10_state.md R36). -/
def idValue : Word := 0x51444354

/-- `QPC_TABLE[qPI]` (00_scope.md R8). -/
def qpcTable (qPI : Nat) : Nat :=
  if qPI < 30 then qPI
  else [29, 30, 31, 32, 32, 33, 34, 34, 35, 35, 36, 36, 37, 37, 37, 38, 38, 38, 39, 39, 39, 39].getD (qPI - 30) 39

/-- `QPC_TABLE[Clip3(0, 51, QP_Y + o)]` for the chroma offset `o = k - 12`, `k` in 0..24 (00_scope.md R7). -/
def qpcOf (qpY k : Nat) : Nat := qpcTable (clip3 0 51 (qpY + k - 12)).toNat

/-- The well-formed configurations of 00_scope.md R7: both ranges, and some chroma offset in -12..12 that gives `QP_C`. -/
def configOk (qpY qpC : Nat) : Bool :=
  decide (qpY ≤ 51) && decide (qpC ≤ 39) && (List.range 25).any fun k => qpC == qpcOf qpY k

end Sys2Proof.Machine
end

