-- ==== Sys2Proof/Config.lean ====
section
/-! DEFINITION. What an instance fixes (00_scope.md R6, R7) and the free values: constants without a body, which no proof
can see (log entries 1, 3, 5, 8). -/

namespace Sys2Proof

/-- The parameters of one instance, fixed for its life (00_scope.md R6, 10_state.md R23). The proof field is R7: an
ill-formed configuration is not instantiated (92_eei_decisions.md D29), so it cannot be written down. -/
structure Config where
  qpY : Nat
  qpC : Nat
  ok  : Machine.configOk qpY qpC = true
deriving DecidableEq, Repr

/-- Free value (OPEN in 00_scope.md R6): `QP_Y` of the instance that `State.reset` describes. Log entry 5. -/
opaque Config.chipQpY : Fin 52

/-- Free value: the chroma offset plus 12 (00_scope.md R7) of the instance that `State.reset` describes. Log entry 5. -/
opaque Config.chipChromaOffset : Fin 25

/-- Free value: the word of draws of the bus access with index `n` (93_implementation_defined.md U1 to U3). Log entry 3. -/
opaque Config.drawWord : Nat → Word

/-- Free value: how many host turns pass between the acceptance made by the access with index `n` and the engine's
completion step (20_memory.md R72, 93_implementation_defined.md U4, U8). Log entry 1. -/
opaque Config.drawDelay : Nat → Nat

/-- Free value: register contents before the first reset edge (70_reset_and_hazards.md R232, U10). Log entry 8. -/
opaque Config.powerOnWord : Nat → Word

/-- Every chroma offset gives a well-formed configuration (00_scope.md R7). -/
theorem configOk_of_offset (qpY : Fin 52) (k : Fin 25) : Machine.configOk qpY (Machine.qpcOf qpY k) = true := by
  revert qpY k; decide +kernel

/-- The configuration of the instance that `State.reset` describes: some well-formed one (00_scope.md R7). -/
def Config.chip : Config :=
  ⟨Config.chipQpY, Machine.qpcOf Config.chipQpY Config.chipChromaOffset, configOk_of_offset _ _⟩

end Sys2Proof
end

