-- ==== Sys2Proof/Machine/State.lean ====
section
/-! DEFINITION. The state of the machine as plain data (10_state.md), the reasons a step can stop, and the state after
reset (10_state.md R48). -/

namespace Sys2Proof.Machine

/-- The buffers' memory: written bytes by byte offset (20_memory.md R60). An offset that is not listed holds `⊥`, the
value of an element nothing has written since reset (10_state.md R35). Canonical form: `Memory.wf`. -/
abbrev Memory := List Host.Cell

/-- The STATUS bits (10_state.md R38); bits 31:5 are reserved and have no storage. -/
structure Status where
  busy     : Bool
  done     : Bool
  cmdErr   : Bool
  addrErr  : Bool
  wbusyErr : Bool
deriving DecidableEq, Repr

/-- The IRQ_EN bits (10_state.md R40); bits 31:2 are reserved and have no storage. -/
structure IrqEn where
  doneIe : Bool
  errIe  : Bool
deriving DecidableEq, Repr

/-- The response code of a transaction (20_memory.md R64). -/
inductive RespCode where
  | ok
  | err
deriving DecidableEq, Repr

/-- What a transaction ends with (20_memory.md R64): a read carries data, a write only its code. -/
inductive Response where
  | read (code : RespCode) (rdata : Word)
  | write (code : RespCode)
deriving DecidableEq, Repr

/-- The whole machine: one QDCT instance with its host (10_state.md R22). -/
structure State where
  /-- The instance's parameters (00_scope.md R6); no step changes them (10_state.md R23). -/
  cfg : Config
  /-- Every sample and coefficient buffer (10_state.md R24 to R30). -/
  mem : Memory
  /-- CMD: the last accepted command word, which is the command in flight while BUSY = 1 (10_state.md R37, R46). -/
  cmd : Word
  /-- STATUS (10_state.md R38). -/
  status : Status
  /-- IRQ_EN (10_state.md R40). -/
  irqEn : IrqEn
  /-- The countdown the host cannot read (10_state.md R46): host turns left before the completion step. Log entry 1. -/
  countdown : Nat
  /-- The levels of the input `rst` at the coming clock edges, low once the list ends (70_reset_and_hazards.md R230). -/
  rst : List Bool
  /-- A reset edge has come since power-on; until then every register is unspecified (70_reset_and_hazards.md R232). -/
  resetSeen : Bool
  /-- The host's script (30_encoding.md R96). -/
  script : List Stmt
  /-- The position of the script's statement that the host performs next (30_encoding.md R99). -/
  pos : Nat
  /-- The response of the latest transaction (20_memory.md R64), `none` if there was none since reset. -/
  resp : Option Response
  /-- THE MODEL'S OWN: the index of the next free values. Log entry 3. -/
  draws : Nat
deriving DecidableEq, Repr

/-- Why the machine stops with a fault: never. An accepted command never fails and no access stops the machine
(60_exceptions.md R200, R201), so no reason exists and nothing raises one; this is safe. -/
inductive Fault
deriving DecidableEq, Repr

/-- Why the model has no meaning for a step. -/
inductive Refusal where
  /-- Raised by `exec` alone, for an instruction that has no meaning yet, by its mnemonic; safe: the run stops. -/
  | notModelled (mnemonic : String)
  /-- Raised by `step` alone, when the engine is enabled and CMD holds a word that decodes to no command: possible only
  before the first reset edge, when every register is unspecified and nothing is claimed
  (70_reset_and_hazards.md R232, U10). Safe: the run stops. Log entry 7. -/
  | undecodableLatch
deriving DecidableEq, Repr

/-- The state after reset (10_state.md R48): registers at their reset values, every buffer element `⊥`, no command in
flight; nothing placed at the host's side. The configuration is a free well-formed one (log entry 5). -/
def State.reset : State where
  cfg := Config.chip
  mem := []
  cmd := 0x00000000
  status := ⟨false, false, false, false, false⟩
  irqEn := ⟨false, false⟩
  countdown := 0
  rst := []
  resetSeen := true
  script := []
  pos := 0
  resp := none
  draws := 0

end Sys2Proof.Machine
end

