-- ==== Sys2Proof/Machine/Ops.lean ====
section
/-! DEFINITION. The named operations over memory and registers: the buffers' memory, the address map (20_memory.md R60),
raising an error (60_exceptions.md R201), acceptance and completion of a command (20_memory.md R70, R72) and the reset
edge (70_reset_and_hazards.md R230). -/

namespace Sys2Proof.Machine

/-! ### Memory -/

/-- The canonical form: addresses strictly rising. (An unlisted address holds `⊥`, which no entry holds.) -/
abbrev Memory.wf (m : Memory) : Prop := m.Pairwise fun p q => p.1 < q.1

/-- The byte at address `a`; `none` is `⊥` (10_state.md R35). -/
def Memory.get : Memory → Nat → Option Byte
  | [], _ => none
  | c :: m, a => bif Nat.beq c.1 a then some c.2 else Memory.get m a

/-- The entries of the bytes `f 0`, …, `f (n - 1)` at `base`, …, `base + n - 1`; a `⊥` has no entry. -/
def Memory.cells (base n : Nat) (f : Nat → Option Byte) : Memory :=
  (List.range n).filterMap fun k => (f k).map fun v => (base + k, v)

/-- Write `f 0`, …, `f (n - 1)` at the addresses `base`, …, `base + n - 1`, keeping the canonical form: the entries below,
the new entries (none for `⊥`), the entries above. -/
def Memory.fill (m : Memory) (base n : Nat) (f : Nat → Option Byte) : Memory :=
  m.filter (fun c => Nat.blt c.1 base) ++ (Memory.cells base n f ++ m.filter fun c => Nat.ble (base + n) c.1)

/-- Byte 0 (bits 7:0) or byte 1 (bits 15:8) of a level: little-endian (20_memory.md R62, R66). -/
def levelByte (v : Level) (k : Nat) : Byte := v.extractLsb' (8 * k) 8

/-- The level at the even offset `a`, `⊥` unless both its bytes are written (20_memory.md R62; log entry 4). -/
def Memory.getLevel (m : Memory) (a : Nat) : Option Level :=
  match m.get a, m.get (a + 1) with
  | some lo, some hi => some (hi ++ lo)
  | _, _ => none

/-- Write the levels `f 0`, …, `f (n - 1)` of a coefficient buffer from the offset `base` on (20_memory.md R62). -/
def Memory.fillLevels (m : Memory) (base n : Nat) (f : Nat → Option Level) : Memory :=
  m.fill base (2 * n) fun k => (f (k / 2)).map fun v => levelByte v (k % 2)

/-! ### The address map (20_memory.md R60) -/

/-- The registers (20_memory.md R60). -/
inductive Reg where
  | id | cmd | status | config | irqEn | nz
deriving DecidableEq, Repr

/-- The buffers, in the order of the map (20_memory.md R60). -/
inductive Buf where
  | yOrig | cbOrig | crOrig | yPred | cbPred | crPred | yRecon | cbRecon | crRecon
  | coefY | dcY | coefCb | dcCb | coefCr | dcCr
deriving DecidableEq, Repr

/-- The first offset of a buffer (20_memory.md R60). -/
def Buf.base : Buf → Nat
  | .yOrig => 0x100 | .cbOrig => 0x200 | .crOrig => 0x240
  | .yPred => 0x300 | .cbPred => 0x400 | .crPred => 0x440
  | .yRecon => 0x500 | .cbRecon => 0x600 | .crRecon => 0x640
  | .coefY => 0x800 | .dcY => 0xA00
  | .coefCb => 0xA40 | .dcCb => 0xAC0
  | .coefCr => 0xB00 | .dcCr => 0xB80

/-- The last offset of a buffer (20_memory.md R60). -/
def Buf.last : Buf → Nat
  | .yOrig => 0x1FF | .cbOrig => 0x23F | .crOrig => 0x27F
  | .yPred => 0x3FF | .cbPred => 0x43F | .crPred => 0x47F
  | .yRecon => 0x5FF | .cbRecon => 0x63F | .crRecon => 0x67F
  | .coefY => 0x9FF | .dcY => 0xA1F
  | .coefCb => 0xABF | .dcCb => 0xAC7
  | .coefCr => 0xB7F | .dcCr => 0xB87

/-- Every buffer of the map. -/
def Buf.all : List Buf :=
  [.yOrig, .cbOrig, .crOrig, .yPred, .cbPred, .crPred, .yRecon, .cbRecon, .crRecon,
   .coefY, .dcY, .coefCb, .dcCb, .coefCr, .dcCr]

/-- RECON is read-only for the host (10_state.md R26, 20_memory.md R60, R63). -/
def Buf.isRecon : Buf → Bool
  | .yRecon | .cbRecon | .crRecon => true
  | .yOrig | .cbOrig | .crOrig | .yPred | .cbPred | .crPred => false
  | .coefY | .dcY | .coefCb | .dcCb | .coefCr | .dcCr => false

/-- A coefficient buffer holds two levels a word (20_memory.md R62), a sample buffer four samples (R61). -/
def Buf.isCoef : Buf → Bool
  | .coefY | .dcY | .coefCb | .dcCb | .coefCr | .dcCr => true
  | .yOrig | .cbOrig | .crOrig | .yPred | .cbPred | .crPred | .yRecon | .cbRecon | .crRecon => false

/-- The offset `a` lies in the buffer `b`. -/
def Buf.holds (b : Buf) (a : Nat) : Bool := decide (b.base ≤ a) && decide (a ≤ b.last)

/-- What an aligned offset names (20_memory.md R60). -/
inductive Target where
  | reg (r : Reg)
  | buf (b : Buf)
  | unmapped
deriving DecidableEq, Repr

/-- The address map on word-aligned offsets (20_memory.md R60): six registers, fifteen buffers, everything else
unmapped. -/
def targetOf (a : Nat) : Target :=
  match a with
  | 0x000 => .reg .id
  | 0x004 => .reg .cmd
  | 0x008 => .reg .status
  | 0x00C => .reg .config
  | 0x010 => .reg .irqEn
  | 0x014 => .reg .nz
  | _ =>
    match Buf.all.find? fun b => b.holds a with
    | some b => .buf b
    | none => .unmapped

/-! ### Errors (60_exceptions.md) -/

/-- The three errors (60_exceptions.md R202). -/
inductive ErrorBit where
  | cmdErr | addrErr | wbusyErr
deriving DecidableEq, Repr

/-- The code of an error: its STATUS bit position (60_exceptions.md R202). -/
def ErrorBit.code : ErrorBit → Nat
  | .cmdErr => 2
  | .addrErr => 3
  | .wbusyErr => 4

/-- Set the sticky bit of an error; it stays 1 if it was 1 (60_exceptions.md R201). -/
def Status.raise (st : Status) : ErrorBit → Status
  | .cmdErr => { st with cmdErr := true }
  | .addrErr => { st with addrErr := true }
  | .wbusyErr => { st with wbusyErr := true }

/-- The response `ERR` of a transaction, with read data 0 for a read (60_exceptions.md R201). -/
def Txn.errResponse : Txn → Response
  | .read _ => .read .err 0
  | .write _ _ => .write .err

/-- `raise E` for the transaction `t`: the STATUS bit is set, the response is `ERR`, and nothing else changes
(60_exceptions.md R201, R209). This is the whole of taking an error: QDCT has no trap entry. -/
def State.raise (s : State) (t : Txn) (e : ErrorBit) : State :=
  { s with status := s.status.raise e, resp := some (Txn.errResponse t) }

/-- Writing `w` to STATUS: DONE and the error bits are cleared where `w` has a 1, BUSY and the reserved bits ignore the
write (10_state.md R38). This is how a host returns from an error (60_exceptions.md R210). -/
def Status.clear (st : Status) (w : Word) : Status where
  busy := st.busy
  done := st.done && !w.getLsbD 1
  cmdErr := st.cmdErr && !w.getLsbD 2
  addrErr := st.addrErr && !w.getLsbD 3
  wbusyErr := st.wbusyErr && !w.getLsbD 4

/-! ### The life of a command (20_memory.md section 3) -/

/-- Acceptance of the command word `w` (20_memory.md R70): CMD takes it, BUSY is set, DONE is cleared. `delay` is the
number of host turns before the completion step (R72; log entry 1). -/
def State.accept (s : State) (w : Word) (delay : Nat) : State :=
  { s with cmd := w, status := { s.status with busy := true, done := false }, countdown := delay }

/-- The completion step (20_memory.md R72): every output element is written at once, BUSY is cleared, DONE is set. -/
def State.complete (s : State) (mem : Memory) : State :=
  { s with mem := mem, status := { s.status with busy := false, done := true } }

/-- A clock edge with `rst = 1` (70_reset_and_hazards.md R230): the reset state of the same instance. A command in flight
is abandoned. The host's script stays where it is: an access it offers is not acknowledged (U11; log entry 8). -/
def State.resetEdge (s : State) : State :=
  { State.reset with
    cfg := s.cfg
    rst := s.rst
    script := s.script
    pos := s.pos
    draws := s.draws }

/-- One coming level of the line `rst` is used up. -/
def State.dropEdge (s : State) : State := { s with rst := s.rst.tail }

/-- The machine at power-on, before any reset edge: every register unspecified, every buffer element `⊥`
(70_reset_and_hazards.md R232, U10; log entry 8). What a register then reads as, ID and CONFIG too, is a draw (`readReg`). -/
def State.powerOn : State :=
  { State.reset with
    resetSeen := false
    cmd := Config.powerOnWord 0
    status :=
      { busy := (Config.powerOnWord 1).getLsbD 0
        done := (Config.powerOnWord 1).getLsbD 1
        cmdErr := (Config.powerOnWord 1).getLsbD 2
        addrErr := (Config.powerOnWord 1).getLsbD 3
        wbusyErr := (Config.powerOnWord 1).getLsbD 4 }
    irqEn :=
      { doneIe := (Config.powerOnWord 2).getLsbD 0
        errIe := (Config.powerOnWord 2).getLsbD 1 }
    countdown := (Config.powerOnWord 3).toNat }

end Sys2Proof.Machine
end

