-- ==== Sys2Proof/Machine/Operands.lean ====
section
/-! DEFINITION. The operand forms of the commands: planes of samples, 4×4 blocks, levels, and when every element a command
reads is written (10_state.md sections 2 to 4, 30_encoding.md R91). -/

namespace Sys2Proof.Machine

/-- A colour component: the luma plane or one of the two chroma planes (10_state.md section 2). -/
inductive Comp where
  | y | cb | cr
deriving DecidableEq, Repr

/-- The plane that a command's PLANE bit names (30_encoding.md R91). -/
def planeComp : Plane → Comp
  | .cb => .cb
  | .cr => .cr

/-- 4×4 blocks per row of a component: 4 for the 16×16 luma plane, 2 for an 8×8 chroma plane (10_state.md R27, R29). -/
def Comp.side : Comp → Nat
  | .y => 4
  | .cb | .cr => 2

/-- Samples per row of a component. -/
def Comp.width (c : Comp) : Nat := 4 * c.side

/-- The ORIG, PRED and RECON buffers of a component (10_state.md R24 to R26). -/
def Comp.orig : Comp → Buf
  | .y => .yOrig | .cb => .cbOrig | .cr => .crOrig

def Comp.pred : Comp → Buf
  | .y => .yPred | .cb => .cbPred | .cr => .crPred

def Comp.recon : Comp → Buf
  | .y => .yRecon | .cb => .cbRecon | .cr => .crRecon

/-- The coefficient and DC buffers of a component (10_state.md R27 to R30). -/
def Comp.coef : Comp → Buf
  | .y => .coefY | .cb => .coefCb | .cr => .coefCr

def Comp.dc : Comp → Buf
  | .y => .dcY | .cb => .dcCb | .cr => .dcCr

/-- The clamp range of a component (00_scope.md R6, 41_inverse.md R148). -/
def Comp.lo : Comp → Int
  | .y => 16 | .cb | .cr => 16

def Comp.hi : Comp → Int
  | .y => 235 | .cb | .cr => 240

/-- The quantisation parameter of a component (00_scope.md R6). -/
def Comp.qp (cfg : Config) : Comp → Nat
  | .y => cfg.qpY
  | .cb | .cr => cfg.qpC

/-- The offset of sample `(x, y)` of a sample buffer of component `c` (20_memory.md R60). -/
def sampleAddr (c : Comp) (buf : Buf) (x y : Nat) : Nat := buf.base + c.width * y + x

/-- The offset of level `[b][u][v]` of a coefficient buffer (20_memory.md R60). -/
def coefAddr (buf : Buf) (b u v : Nat) : Nat := buf.base + 2 * (16 * b + 4 * u + v)

/-- The offset of level `[m][n]` of a DC buffer of component `c` (20_memory.md R60). -/
def dcAddr (c : Comp) (m n : Nat) : Nat := c.dc.base + 2 * (c.side * m + n)

/-- The column and the row of the top-left sample of block `b` (10_state.md R27, R29). -/
def blockX (c : Comp) (b : Nat) : Nat := 4 * (b % c.side)

def blockY (c : Comp) (b : Nat) : Nat := 4 * (b / c.side)

/-- A sample as an integer (00_scope.md R9); read only where it is written. -/
def sampleAt (m : Memory) (c : Comp) (buf : Buf) (x y : Nat) : Int :=
  match m.get (sampleAddr c buf x y) with
  | some v => v.toNat
  | none => 0

/-- The level at offset `a` as an integer (00_scope.md R9); read only where it is written. -/
def levelAt (m : Memory) (a : Nat) : Int :=
  match m.getLevel a with
  | some v => v.toInt
  | none => 0

/-- Every sample of block `b` of a sample buffer is written, that is, none is `⊥` (10_state.md R35). -/
def blockWritten (m : Memory) (c : Comp) (buf : Buf) (b : Nat) : Bool :=
  (List.range 16).all fun k => (m.get (sampleAddr c buf (blockX c b + k % 4) (blockY c b + k / 4))).isSome

/-- Every sample of a sample buffer is written (10_state.md R35). -/
def planeWritten (m : Memory) (c : Comp) (buf : Buf) : Bool :=
  (List.range (c.width * c.width)).all fun k => (m.get (buf.base + k)).isSome

/-- All 16 levels of block `b` are written (10_state.md R35). -/
def blockLevelsWritten (m : Memory) (c : Comp) (b : Nat) : Bool :=
  (List.range 16).all fun k => (m.getLevel (coefAddr c.coef b (k / 4) (k % 4))).isSome

/-- Every AC level, `(u, v) ≠ (0, 0)`, of every block is written (10_state.md R32, R35). -/
def acLevelsWritten (m : Memory) (c : Comp) : Bool :=
  (List.range (c.side * c.side)).all fun b =>
    (List.range 15).all fun k => (m.getLevel (coefAddr c.coef b ((k + 1) / 4) ((k + 1) % 4))).isSome

/-- Every DC level is written (10_state.md R35). -/
def dcLevelsWritten (m : Memory) (c : Comp) : Bool :=
  (List.range (c.side * c.side)).all fun k => (m.getLevel (c.dc.base + 2 * k)).isSome

/-- The value written where every input element is written, else `⊥` (10_state.md R35 b). -/
def ifWritten {α : Type} (written : Bool) (v : α) : Option α := if written then some v else none

/-- Write the samples of block `b`, row `i` and column `j`: four rows of four bytes (20_memory.md R60). -/
def fillBlock (m : Memory) (c : Comp) (buf : Buf) (b : Nat) (f : Nat → Nat → Option Byte) : Memory :=
  (((m.fill (sampleAddr c buf (blockX c b) (blockY c b + 0)) 4 (f 0)).fill
      (sampleAddr c buf (blockX c b) (blockY c b + 1)) 4 (f 1)).fill
      (sampleAddr c buf (blockX c b) (blockY c b + 2)) 4 (f 2)).fill
      (sampleAddr c buf (blockX c b) (blockY c b + 3)) 4 (f 3)

/-- Write every sample `(x, y)` of a sample buffer (20_memory.md R60). -/
def fillPlane (m : Memory) (c : Comp) (buf : Buf) (f : Nat → Nat → Option Byte) : Memory :=
  m.fill buf.base (c.width * c.width) fun k => f (k % c.width) (k / c.width)

end Sys2Proof.Machine
end

