-- ==== Sys2Proof/Machine/Control.lean ====
section
/-! DEFINITION. PCM_COPY, CLR_COEF and NOP (42_roundtrip_control.md sections 2 and 3). -/

namespace Sys2Proof.Machine

/-- Copy a component's ORIG into its RECON, element by element, `⊥` as `⊥`, without a clamp
(42_roundtrip_control.md R180). DEDUCED: R180's "element by element" stands before the general sentence of 10_state.md R35 b
(log entry 11). -/
def copyPlane (c : Comp) (m : Memory) : Memory :=
  fillPlane m c c.recon fun x y => m.get (sampleAddr c c.orig x y)

/-- The body of PCM_COPY (42_roundtrip_control.md R180). -/
def pcmCopyMem (m : Memory) : Memory := copyPlane .cr (copyPlane .cb (copyPlane .y m))

/-- Write 0 to every level of a component (42_roundtrip_control.md R182). -/
def clearLevels (c : Comp) (m : Memory) : Memory :=
  (m.fillLevels c.coef.base (16 * (c.side * c.side)) fun _ => some 0).fillLevels
    c.dc.base (c.side * c.side) fun _ => some 0

/-- The body of CLR_COEF (42_roundtrip_control.md R182). -/
def clrCoefMem (m : Memory) : Memory := clearLevels .cr (clearLevels .cb (clearLevels .y m))

/-- NOP (42_roundtrip_control.md R184): no buffer is read or written; it completes like every command. -/
def execNop (s : State) : Host.Outcome State Fault Refusal := .next (s.complete s.mem)

/-- PCM_COPY (42_roundtrip_control.md R180). -/
def execPcmCopy (s : State) : Host.Outcome State Fault Refusal := .next (s.complete (pcmCopyMem s.mem))

/-- CLR_COEF (42_roundtrip_control.md R182). -/
def execClrCoef (s : State) : Host.Outcome State Fault Refusal := .next (s.complete (clrCoefMem s.mem))

end Sys2Proof.Machine
end

