-- ==== Sys2Proof/Machine/Transform.lean ====
section
/-! DEFINITION. The arithmetic of the forward and inverse stages on exact integers (00_scope.md R9): transforms, quantisers
and their tables (40_forward.md section 1, 41_inverse.md section 1). A matrix is a function of row and column. -/

namespace Sys2Proof.Machine

/-- `M[i][j]`: row `i`, column `j` (00_scope.md R9). -/
abbrev Mat := Nat → Nat → Int

/-- A matrix or table written out row by row. -/
def table (rows : List (List Int)) : Mat := fun i j => (rows.getD i []).getD j 0

def sum2 (f : Nat → Int) : Int := f 0 + f 1

def sum4 (f : Nat → Int) : Int := f 0 + f 1 + f 2 + f 3

/-! ### Forward (40_forward.md) -/

/-- The multiplier table `MF[q][k]` (40_forward.md R110). -/
def mf (q k : Nat) : Nat :=
  ([[13107, 5243, 8066],
    [11916, 4660, 7490],
    [10082, 4194, 6554],
    [9362, 3647, 5825],
    [8192, 3355, 5243],
    [7282, 2893, 4559]].getD q []).getD k 0

/-- The forward core matrix `Cf` (40_forward.md R112). -/
def cf : Mat := table
  [[1, 1, 1, 1],
   [2, 1, -1, -2],
   [1, -1, -1, 1],
   [1, -2, 2, -1]]

/-- `W = Cf · X · Cfᵀ` (40_forward.md R112). -/
def coreTransform (x : Mat) : Mat := fun u v => sum4 fun i => sum4 fun j => cf u i * x i j * cf v j

/-- The position class `cls(u, v)` (40_forward.md R113). -/
def cls (u v : Nat) : Nat :=
  if u % 2 = 0 ∧ v % 2 = 0 then 0 else if u % 2 = 1 ∧ v % 2 = 1 then 1 else 2

/-- `qbits(qp)` (40_forward.md R114). -/
def qbits (qp : Nat) : Nat := 15 + qp / 6

/-- `F_INTRA(qp)` (40_forward.md R114). -/
def fIntra (qp : Nat) : Nat := 2 ^ qbits qp / 3

/-- `quant(w, qp, u, v)` (40_forward.md R114). -/
def quant (w : Int) (qp u v : Nat) : Int :=
  w.sign * shr (w.natAbs * mf (qp % 6) (cls u v) + fIntra qp) (qbits qp)

/-- `quantDC(w, qp)` (40_forward.md R115). -/
def quantDC (w : Int) (qp : Nat) : Int :=
  w.sign * shr (w.natAbs * mf (qp % 6) 0 + 2 * fIntra qp) (qbits qp + 1)

/-- The 4×4 Hadamard matrix `H` (40_forward.md R116). -/
def hadamard4 : Mat := table
  [[1, 1, 1, 1],
   [1, 1, -1, -1],
   [1, -1, -1, 1],
   [1, -1, 1, -1]]

/-- `H · D · H` (40_forward.md R116, 41_inverse.md R142). -/
def hdh (d : Mat) : Mat := fun m n => sum4 fun i => sum4 fun j => hadamard4 m i * d i j * hadamard4 j n

/-- The 2×2 matrix `A` (40_forward.md R117). -/
def hadamard2 : Mat := table
  [[1, 1],
   [1, -1]]

/-- `A · D · A` (40_forward.md R117, 41_inverse.md R143). -/
def ada (d : Mat) : Mat := fun m n => sum2 fun i => sum2 fun j => hadamard2 m i * d i j * hadamard2 j n

/-- The forward luma DC transform (40_forward.md R116). -/
def lumaDcForward (d : Mat) : Mat := fun m n => shr (hdh d m n) 1

/-- The forward chroma DC transform (40_forward.md R117). -/
def chromaDcForward (d : Mat) : Mat := ada d

/-! ### Inverse (41_inverse.md) -/

/-- The scaling table `V[q][k]` (41_inverse.md R140). -/
def levelScale (q k : Nat) : Int := table
  [[10, 16, 13],
   [11, 18, 14],
   [13, 20, 16],
   [14, 23, 18],
   [16, 25, 20],
   [18, 29, 23]] q k

/-- `deq(c, qp, u, v)` (41_inverse.md R141). -/
def deq (c : Int) (qp u v : Nat) : Int := shl (c * levelScale (qp % 6) (cls u v)) (qp / 6)

/-- The inverse luma DC path (41_inverse.md R142). -/
def lumaDcInverse (qp : Nat) (c : Mat) : Mat := fun m n =>
  if 12 ≤ qp then shl (hdh c m n * levelScale (qp % 6) 0) (qp / 6 - 2)
  else shr (hdh c m n * levelScale (qp % 6) 0 + 2 ^ (1 - qp / 6)) (2 - qp / 6)

/-- The inverse chroma DC path (41_inverse.md R143). -/
def chromaDcInverse (qp : Nat) (c : Mat) : Mat := fun m n =>
  shr (shl (ada c m n * levelScale (qp % 6) 0) (qp / 6)) 1

/-- Output `k` of the one-dimensional inverse transform of `a`, `b`, `c`, `d` (41_inverse.md R144). -/
def butterfly (a b c d : Int) (k : Nat) : Int :=
  match k with
  | 0 => (a + c) + (b + shr d 1)
  | 1 => (a - c) + (shr b 1 - d)
  | 2 => (a - c) - (shr b 1 - d)
  | _ => (a + c) - (b + shr d 1)

/-- The row pass `f` (41_inverse.md R144). -/
def rowPass (d : Mat) : Mat := fun i j => butterfly (d i 0) (d i 1) (d i 2) (d i 3) j

/-- The column pass `h` (41_inverse.md R144). -/
def columnPass (f : Mat) : Mat := fun i j => butterfly (f 0 j) (f 1 j) (f 2 j) (f 3 j) i

/-- `r = itrans(d)`: rows, then columns, then the rounding (41_inverse.md R144). -/
def itrans (d : Mat) : Mat := fun i j => shr (columnPass (rowPass d) i j + 32) 6

end Sys2Proof.Machine
end

