-- ==== Sys2Proof/Machine/Forward.lean ====
section
/-! DEFINITION. The forward stage: FWD_L4, FWD_L16, FWD_C8 (40_forward.md). -/

namespace Sys2Proof.Machine

/-- The residual of block `b` of component `c` (40_forward.md R111). -/
def residual (m : Memory) (c : Comp) (b : Nat) : Mat := fun i j =>
  sampleAt m c c.orig (blockX c b + j) (blockY c b + i) - sampleAt m c c.pred (blockX c b + j) (blockY c b + i)

/-- A level as it is stored: 16 bits (10_state.md section 3; 40_forward.md R121: no forward level is truncated). -/
def toLevel (v : Int) : Level := BitVec.ofInt 16 v

/-- The levels of FWD_L4: `quant(core(residual)[u][v], QP_Y, u, v)` (40_forward.md R118). -/
def fwdBlockLevel (m : Memory) (c : Comp) (qp b u v : Nat) : Int :=
  quant (coreTransform (residual m c b) u v) qp u v

/-- The body of FWD_L4 (40_forward.md R118): the 16 levels of block `blk`, or `⊥` if an input sample is `⊥` (R111). -/
def fwdL4Mem (cfg : Config) (blk : Nat) (m : Memory) : Memory :=
  let written := blockWritten m .y .yOrig blk && blockWritten m .y .yPred blk
  m.fillLevels (coefAddr .coefY blk 0 0) 16 fun k =>
    ifWritten written (toLevel (fwdBlockLevel m .y cfg.qpY blk (k / 4) (k % 4)))

/-- The unquantised DC terms: `D[m][n] = W_b[0][0]` with `b = side*m + n` (40_forward.md R116, R117). -/
def dcTerms (m : Memory) (c : Comp) : Mat := fun i j => coreTransform (residual m c (c.side * i + j)) 0 0

/-- Level `[b][u][v]` of FWD_L16 and FWD_C8: 0 at `[b][0][0]`, else the quantised AC term (40_forward.md R119, R120). -/
def fwdAcLevel (m : Memory) (c : Comp) (qp b u v : Nat) : Int :=
  if u = 0 ∧ v = 0 then 0 else fwdBlockLevel m c qp b u v

/-- The common body of FWD_L16 and FWD_C8 (40_forward.md R119, R120): all coefficient levels of the component with 0 at
`[b][0][0]`, and its DC levels through the DC transform `dcT`; all `⊥` if an input sample is `⊥`. -/
def fwdPlaneMem (c : Comp) (qp : Nat) (dcT : Mat → Mat) (m : Memory) : Memory :=
  let written := planeWritten m c c.orig && planeWritten m c c.pred
  (m.fillLevels c.coef.base (16 * (c.side * c.side)) fun k =>
      ifWritten written (toLevel (fwdAcLevel m c qp (k / 16) (k / 4 % 4) (k % 4)))).fillLevels
    c.dc.base (c.side * c.side) fun k =>
      ifWritten written (toLevel (quantDC (dcT (dcTerms m c) (k / c.side) (k % c.side)) qp))

/-- The body of FWD_L16 (40_forward.md R119). -/
def fwdL16Mem (cfg : Config) (m : Memory) : Memory := fwdPlaneMem .y cfg.qpY lumaDcForward m

/-- The body of FWD_C8 (40_forward.md R120). -/
def fwdC8Mem (cfg : Config) (p : Plane) (m : Memory) : Memory := fwdPlaneMem (planeComp p) cfg.qpC chromaDcForward m

/-- FWD_L4 (40_forward.md R118). -/
def execFwdL4 (blk : Fin 16) (s : State) : Host.Outcome State Fault Refusal := .next (s.complete (fwdL4Mem s.cfg blk s.mem))

/-- FWD_L16 (40_forward.md R119). -/
def execFwdL16 (s : State) : Host.Outcome State Fault Refusal := .next (s.complete (fwdL16Mem s.cfg s.mem))

/-- FWD_C8 (40_forward.md R120). -/
def execFwdC8 (plane : Plane) (s : State) : Host.Outcome State Fault Refusal := .next (s.complete (fwdC8Mem s.cfg plane s.mem))

end Sys2Proof.Machine
end

