-- ==== Sys2Proof/Machine/Inverse.lean ====
section
/-! DEFINITION. The inverse stage with add-back and clamp: INV_L4, INV_L16, INV_C8 (41_inverse.md). -/

namespace Sys2Proof.Machine

/-- Add-back and clamp: `Clip3(LO, HI, PRED + r)` (41_inverse.md R148). -/
def clampedSample (c : Comp) (pred r : Int) : Int := clip3 c.lo c.hi (pred + r)

/-- A sample as it is stored: 8 bits (00_scope.md R6). -/
def toSample (v : Int) : Byte := BitVec.ofInt 8 v

/-- The scaled coefficients of INV_L4 (41_inverse.md R150). -/
def blockScaled (m : Memory) (c : Comp) (qp b : Nat) : Mat := fun u v => deq (levelAt m (coefAddr c.coef b u v)) qp u v

/-- The body of INV_L4 (41_inverse.md R150): the 16 RECON samples of block `blk`, or `⊥` if an input is `⊥` (R146). -/
def invL4Mem (cfg : Config) (blk : Nat) (m : Memory) : Memory :=
  let written := blockLevelsWritten m .y blk && blockWritten m .y .yPred blk
  fillBlock m .y .yRecon blk fun i j =>
    ifWritten written (toSample (clampedSample .y
      (sampleAt m .y .yPred (blockX .y blk + j) (blockY .y blk + i))
      (itrans (blockScaled m .y cfg.qpY blk) i j)))

/-- The DC levels of a component (41_inverse.md R142, R143). -/
def dcLevels (m : Memory) (c : Comp) : Mat := fun i j => levelAt m (dcAddr c i j)

/-- The scaled coefficients of block `b` of INV_L16 and INV_C8: the DC path at `[0][0]`, `deq` elsewhere
(41_inverse.md R151, R152). `COEF[b][0][0]` is not read. -/
def planeScaled (m : Memory) (c : Comp) (qp : Nat) (dcT : Mat → Mat) (b : Nat) : Mat := fun u v =>
  if u = 0 ∧ v = 0 then dcT (dcLevels m c) (b / c.side) (b % c.side)
  else deq (levelAt m (coefAddr c.coef b u v)) qp u v

/-- The raster block index of sample `(x, y)` (00_scope.md section 5). -/
def blockOf (c : Comp) (x y : Nat) : Nat := c.side * (y / 4) + x / 4

/-- The common body of INV_L16 and INV_C8 (41_inverse.md R151, R152): every RECON sample of the component, or `⊥` if an
input is `⊥` (R146). -/
def invPlaneMem (c : Comp) (qp : Nat) (dcT : Mat → Mat) (m : Memory) : Memory :=
  let written := dcLevelsWritten m c && acLevelsWritten m c && planeWritten m c c.pred
  fillPlane m c c.recon fun x y =>
    ifWritten written (toSample (clampedSample c (sampleAt m c c.pred x y)
      (itrans (planeScaled m c qp dcT (blockOf c x y)) (y % 4) (x % 4))))

/-- The body of INV_L16 (41_inverse.md R151). -/
def invL16Mem (cfg : Config) (m : Memory) : Memory := invPlaneMem .y cfg.qpY (lumaDcInverse cfg.qpY) m

/-- The body of INV_C8 (41_inverse.md R152). -/
def invC8Mem (cfg : Config) (p : Plane) (m : Memory) : Memory :=
  invPlaneMem (planeComp p) cfg.qpC (chromaDcInverse cfg.qpC) m

/-- INV_L4 (41_inverse.md R150). -/
def execInvL4 (blk : Fin 16) (s : State) : Host.Outcome State Fault Refusal := .next (s.complete (invL4Mem s.cfg blk s.mem))

/-- INV_L16 (41_inverse.md R151). -/
def execInvL16 (s : State) : Host.Outcome State Fault Refusal := .next (s.complete (invL16Mem s.cfg s.mem))

/-- INV_C8 (41_inverse.md R152). -/
def execInvC8 (plane : Plane) (s : State) : Host.Outcome State Fault Refusal := .next (s.complete (invC8Mem s.cfg plane s.mem))

end Sys2Proof.Machine
end

