-- ==== Sys2Proof/Machine/RoundTrip.lean ====
section
/-! DEFINITION. The round trip: RT_L4, RT_L16, RT_C8 (42_roundtrip_control.md section 1): the body of the forward command,
then the body of the inverse command on the levels just written, in one completion step. -/

namespace Sys2Proof.Machine

/-- The body of RT_L4 (42_roundtrip_control.md R170). -/
def rtL4Mem (cfg : Config) (blk : Nat) (m : Memory) : Memory := invL4Mem cfg blk (fwdL4Mem cfg blk m)

/-- The body of RT_L16 (42_roundtrip_control.md R172). -/
def rtL16Mem (cfg : Config) (m : Memory) : Memory := invL16Mem cfg (fwdL16Mem cfg m)

/-- The body of RT_C8 (42_roundtrip_control.md R174). -/
def rtC8Mem (cfg : Config) (p : Plane) (m : Memory) : Memory := invC8Mem cfg p (fwdC8Mem cfg p m)

/-- RT_L4 (42_roundtrip_control.md R170). -/
def execRtL4 (blk : Fin 16) (s : State) : Host.Outcome State Fault Refusal := .next (s.complete (rtL4Mem s.cfg blk s.mem))

/-- RT_L16 (42_roundtrip_control.md R172). -/
def execRtL16 (s : State) : Host.Outcome State Fault Refusal := .next (s.complete (rtL16Mem s.cfg s.mem))

/-- RT_C8 (42_roundtrip_control.md R174). -/
def execRtC8 (plane : Plane) (s : State) : Host.Outcome State Fault Refusal := .next (s.complete (rtC8Mem s.cfg plane s.mem))

end Sys2Proof.Machine
end

