-- ==== Sys2Proof/Machine/Dispatch.lean ====
section
/-! DEFINITION. The engine's completion step of each command (20_memory.md R72), one arm per constructor. -/

namespace Sys2Proof.Machine

/-- The completion step of the command `i` in flight (20_memory.md R72). -/
def exec (i : Instr) (s : State) : Host.Outcome State Fault Refusal :=
  match i with
  | .nop => Sys2Proof.Machine.execNop s
  | .fwdL4 blk => Sys2Proof.Machine.execFwdL4 blk s
  | .invL4 blk => Sys2Proof.Machine.execInvL4 blk s
  | .rtL4 blk => Sys2Proof.Machine.execRtL4 blk s
  | .fwdL16 => Sys2Proof.Machine.execFwdL16 s
  | .invL16 => Sys2Proof.Machine.execInvL16 s
  | .rtL16 => Sys2Proof.Machine.execRtL16 s
  | .fwdC8 plane => Sys2Proof.Machine.execFwdC8 plane s
  | .invC8 plane => Sys2Proof.Machine.execInvC8 plane s
  | .rtC8 plane => Sys2Proof.Machine.execRtC8 plane s
  | .pcmCopy => Sys2Proof.Machine.execPcmCopy s
  | .clrCoef => Sys2Proof.Machine.execClrCoef s

end Sys2Proof.Machine
end

