-- ==== Sys2Proof/Machine/Flags.lean ====
section
/-! DEFINITION. The flags: the STATUS word, the `irq` output and the NZ register (10_state.md R38 to R47). -/

namespace Sys2Proof.Machine

/-- A word from its 32 bits. -/
def wordOfBits (f : Nat → Bool) : Word := BitVec.ofFnLE fun k => f k.val

/-- The STATUS word: bits 31:5 read 0 (10_state.md R38). -/
def Status.bit (st : Status) : Nat → Bool
  | 0 => st.busy
  | 1 => st.done
  | 2 => st.cmdErr
  | 3 => st.addrErr
  | 4 => st.wbusyErr
  | _ => false

def Status.word (st : Status) : Word := wordOfBits st.bit

/-- The IRQ_EN word: bits 31:2 read 0 (10_state.md R40). -/
def IrqEn.bit (e : IrqEn) : Nat → Bool
  | 0 => e.doneIe
  | 1 => e.errIe
  | _ => false

def IrqEn.word (e : IrqEn) : Word := wordOfBits e.bit

/-- Writing `w` to IRQ_EN: the two enables take the written bits (10_state.md R40). -/
def IrqEn.ofWord (w : Word) : IrqEn := ⟨w.getLsbD 0, w.getLsbD 1⟩

/-- The CONFIG word: `(QP_C << 8) | QP_Y` (10_state.md R39). -/
def configWord (cfg : Config) : Word := BitVec.ofNat 32 (cfg.qpC * 256 + cfg.qpY)

/-- The output `irq` (10_state.md R41, 60_exceptions.md R208). -/
def State.irq (s : State) : Bool :=
  (s.status.done && s.irqEn.doneIe) ||
    ((s.status.cmdErr || s.status.addrErr || s.status.wbusyErr) && s.irqEn.errIe)

/-! ### NZ (10_state.md R42 to R45). `none` is a field that reads as a draw (R43 b). -/

/-- "Some level of the list is not 0", undefined if any of them is `⊥` (10_state.md R42, R43 b). -/
def someNonzero (m : Memory) (addrs : List Nat) : Option Bool :=
  if addrs.all fun a => (m.getLevel a).isSome then some (addrs.any fun a => levelAt m a ≠ 0) else none

/-- The 16 levels of block `b` (10_state.md R42). -/
def blockAddrs (c : Comp) (b : Nat) : List Nat :=
  (List.range 16).map fun k => coefAddr c.coef b (k / 4) (k % 4)

/-- The 15 levels `(u, v) ≠ (0, 0)` of block `b` (10_state.md R42). -/
def blockAcAddrs (c : Comp) (b : Nat) : List Nat :=
  (List.range 15).map fun k => coefAddr c.coef b ((k + 1) / 4) ((k + 1) % 4)

/-- All the AC levels of a component. -/
def acAddrs (c : Comp) : List Nat := (List.range (c.side * c.side)).flatMap (blockAcAddrs c)

/-- All the levels of a component's coefficient buffer. -/
def coefAddrs (c : Comp) : List Nat := (List.range (c.side * c.side)).flatMap (blockAddrs c)

/-- All the DC levels of a component. -/
def dcAddrs (c : Comp) : List Nat := (List.range (c.side * c.side)).map fun k => c.dc.base + 2 * k

/-- `Y_NZ[b]` (10_state.md R42). -/
def yNz (m : Memory) (b : Nat) : Option Bool := someNonzero m (blockAddrs .y b)

/-- `YDC_NZ`, `CB_DC_NZ`, `CR_DC_NZ` (10_state.md R42). -/
def dcNz (m : Memory) (c : Comp) : Option Bool := someNonzero m (dcAddrs c)

/-- `CB_AC_NZ`, `CR_AC_NZ` (10_state.md R42). -/
def acNz (m : Memory) (c : Comp) : Option Bool := someNonzero m (acAddrs c)

/-- `CBP_LUMA[q]`: the blocks `b0`, `b0 + 1`, `b0 + 4`, `b0 + 5` with `b0 = 8*(q/2) + 2*(q%2)` (10_state.md R44). -/
def cbpLuma (m : Memory) (q : Nat) : Option Bool :=
  let b0 := 8 * (q / 2) + 2 * (q % 2)
  match yNz m b0, yNz m (b0 + 1), yNz m (b0 + 4), yNz m (b0 + 5) with
  | some a, some b, some c, some d => some (a || b || c || d)
  | _, _, _, _ => none

/-- `CBP_CHROMA`, a 2-bit number (10_state.md R45), undefined if any element of the four chroma buffers is `⊥`
(R43 b). -/
def cbpChroma (m : Memory) : Option Nat :=
  match someNonzero m (coefAddrs .cb ++ coefAddrs .cr), dcNz m .cb, dcNz m .cr, acNz m .cb, acNz m .cr with
  | some _, some cbDc, some crDc, some cbAc, some crAc =>
    some (if cbAc || crAc then 2 else if cbDc || crDc then 1 else 0)
  | _, _, _, _, _ => none

/-- Bit `k` of NZ; reserved bits are 0 (10_state.md R42). -/
def nzBit (m : Memory) (k : Nat) : Option Bool :=
  if k < 16 then yNz m k
  else if k = 16 then dcNz m .y
  else if k = 17 then dcNz m .cb
  else if k = 18 then acNz m .cb
  else if k = 19 then dcNz m .cr
  else if k = 20 then acNz m .cr
  else if k < 24 then some false
  else if k < 28 then cbpLuma m (k - 24)
  else if k < 30 then (cbpChroma m).map fun n => n.testBit (k - 28)
  else some false

/-- Bits 23:21 and 31:30 of NZ are reserved (10_state.md R42). -/
def nzReserved (k : Nat) : Bool := (21 ≤ k && k < 24) || 30 ≤ k

/-- What a read of NZ returns (10_state.md R42, R43): a field that is undefined, or any field while BUSY = 1, takes its
bits from the draw. -/
def nzRead (m : Memory) (busy : Bool) (draw : Word) : Word :=
  wordOfBits fun k =>
    if nzReserved k then false
    else if busy then draw.getLsbD k
    else (nzBit m k).getD (draw.getLsbD k)

end Sys2Proof.Machine
end

