-- ==== Sys2Proof/Machine/Bus.lean ====
section
/-! DEFINITION. Host bus transactions (20_memory.md sections 2 and 3, 60_exceptions.md sections 1 and 2). -/

namespace Sys2Proof.Machine

/-- `addr[1:0] ≠ 0` (20_memory.md R65). -/
def misaligned (a : Offset) : Bool := decide (a.toNat % 4 ≠ 0)

/-- Byte `k` of a word, bits `8k+7 : 8k` (20_memory.md R61). -/
def byteOf (w : Word) (k : Nat) : Byte := w.extractLsb' (8 * k) 8

/-- Halfword `k` of a word (20_memory.md R62). -/
def halfOf (w : Word) (k : Nat) : Level := w.extractLsb' (16 * k) 16

/-- Four samples packed in a word, the lowest offset in bits 7:0 (20_memory.md R61). -/
def packBytes (b0 b1 b2 b3 : Byte) : Word := b3 ++ b2 ++ b1 ++ b0

/-- Two levels packed in a word, the lower offset in bits 15:0 (20_memory.md R62). -/
def packHalves (h0 h1 : Level) : Word := h1 ++ h0

/-- The word at offset `a` of a buffer (20_memory.md R61, R62); a `⊥` byte or halfword takes its bits from the draw
(10_state.md R35 a). -/
def readBufWord (m : Memory) (b : Buf) (a : Nat) (draw : Word) : Word :=
  if b.isCoef then
    packHalves ((m.getLevel a).getD (halfOf draw 0)) ((m.getLevel (a + 2)).getD (halfOf draw 1))
  else
    packBytes ((m.get a).getD (byteOf draw 0)) ((m.get (a + 1)).getD (byteOf draw 1))
      ((m.get (a + 2)).getD (byteOf draw 2)) ((m.get (a + 3)).getD (byteOf draw 3))

/-- Store the word `w` at offset `a` of a buffer: four bytes, little-endian, which are four samples or two levels
(20_memory.md R61, R62, R66, R69). -/
def writeBufWord (m : Memory) (a : Nat) (w : Word) : Memory := m.fill a 4 fun k => some (byteOf w k)

/-- The value of a register (10_state.md R36 to R42); NZ may take bits from the draw (R43). -/
def regValue (s : State) (draw : Word) : Reg → Word
  | .id => idValue
  | .cmd => s.cmd
  | .status => s.status.word
  | .config => configWord s.cfg
  | .irqEn => s.irqEn.word
  | .nz => nzRead s.mem s.status.busy draw

/-- What a read of a register returns: its value, or the draw while no reset edge has come since power-on
(70_reset_and_hazards.md R232, U10; log entry 8). -/
def readReg (s : State) (draw : Word) (r : Reg) : Word := if s.resetSeen then regValue s draw r else draw

/-- A transaction that ends with `OK` (20_memory.md R64). -/
def State.respond (s : State) (r : Response) : State := { s with resp := some r }

/-- `MemRead(a, 4)` (20_memory.md R63 to R69): misaligned and unmapped reads raise ADDR_ERR; a buffer read while BUSY = 1
returns a draw (R68). -/
def busRead (a : Offset) (draw : Word) (s : State) : State :=
  if misaligned a then s.raise (.read a) .addrErr
  else
    match targetOf a.toNat with
    | .unmapped => s.raise (.read a) .addrErr
    | .reg r => s.respond (.read .ok (readReg s draw r))
    | .buf b => s.respond (.read .ok (if s.status.busy then draw else readBufWord s.mem b a.toNat draw))

/-- A write to CMD (20_memory.md R70, 60_exceptions.md R203): accepted if idle and the word decodes, else CMD_ERR. -/
def writeCmd (a : Offset) (w : Word) (delay : Nat) (s : State) : State :=
  if s.status.busy then s.raise (.write a w) .cmdErr
  else
    match decode w with
    | .error _ => s.raise (.write a w) .cmdErr
    | .ok _ => (s.accept w delay).respond (.write .ok)

/-- A write to a register (10_state.md section 5): ID, CONFIG and NZ ignore it with `OK` (20_memory.md R63). -/
def writeReg (a : Offset) (w : Word) (delay : Nat) (s : State) : Reg → State
  | .id | .config | .nz => s.respond (.write .ok)
  | .cmd => writeCmd a w delay s
  | .status => State.respond { s with status := s.status.clear w } (.write .ok)
  | .irqEn => State.respond { s with irqEn := IrqEn.ofWord w } (.write .ok)

/-- A write to a buffer: RECON raises ADDR_ERR, any other buffer WBUSY_ERR while BUSY = 1
(60_exceptions.md R204 to R206). -/
def writeBuf (a : Offset) (w : Word) (s : State) (b : Buf) : State :=
  if b.isRecon then s.raise (.write a w) .addrErr
  else if s.status.busy then s.raise (.write a w) .wbusyErr
  else State.respond { s with mem := writeBufWord s.mem a.toNat w } (.write .ok)

/-- `MemWrite(a, 4, w)` (20_memory.md R63 to R70), errors in the order of 60_exceptions.md R206. DESIGN CHOICE: it does the
same before the first reset edge (log entry 16). -/
def busWrite (a : Offset) (w : Word) (delay : Nat) (s : State) : State :=
  if misaligned a then s.raise (.write a w) .addrErr
  else
    match targetOf a.toNat with
    | .unmapped => s.raise (.write a w) .addrErr
    | .reg r => writeReg a w delay s r
    | .buf b => writeBuf a w s b

/-- One atomic bus transaction (20_memory.md R64, R67) with the free values of its index. DESIGN CHOICE: before the first
reset edge, when the spec claims nothing (70_reset_and_hazards.md R232, U10), an access takes effect and answers as after one,
but for the data of a register read (log entry 16). -/
def access (t : Txn) (s : State) : State :=
  match t with
  | .read a => { busRead a (Config.drawWord s.draws) s with draws := s.draws + 1 }
  | .write a w => { busWrite a w (Config.drawDelay s.draws) s with draws := s.draws + 1 }

end Sys2Proof.Machine
end

