-- ==== Sys2Proof/Machine/HostScript.lean ====
section
/-! DEFINITION. The host agent: the transactions of a script's statements and its control flow (30_encoding.md R96, R98,
R99). -/

namespace Sys2Proof.Machine

/-- The transaction one execution of a statement issues (30_encoding.md R98). -/
def stmtTxn : Stmt → Txn
  | .wr off data => .write off data
  | .rd off | .poll off _ _ | .bne off _ _ _ => .read off

/-- The transactions of a script's statements as they are written, each once: the remarks that 95_test_vectors.md puts beside
the statements. The script's encoding, in issue order with one entry per iteration (30_encoding.md R98), is `issued`. -/
def stmtTxns (p : List Stmt) : List Txn := p.map stmtTxn

/-- The data a statement compares; an error response carries the data 0 (60_exceptions.md R201). -/
def responseData : Option Response → Word
  | some (.read _ d) => d
  | some (.write _) => 0
  | none => 0

/-- The position after one execution of the statement at `pos` with the response `r` (30_encoding.md R96). -/
def stmtNext (st : Stmt) (pos : Nat) (r : Option Response) : Nat :=
  match st with
  | .wr _ _ | .rd _ => pos + 1
  | .poll _ mask value => if responseData r &&& mask = value then pos + 1 else pos
  | .bne _ mask value target => if responseData r &&& mask ≠ value then target else pos + 1

/-- The host performs the script's next statement; past the script's end it issues nothing. -/
def hostAccess (s : State) : State :=
  match s.script[s.pos]? with
  | none => s
  | some st =>
    let t := access (stmtTxn st) s
    { t with pos := stmtNext st s.pos t.resp }

/-- A host turn: the engine's countdown goes on, and the host issues its next access, if any (log entry 1). -/
def hostTurn (s : State) : State := hostAccess { s with countdown := s.countdown - 1 }

end Sys2Proof.Machine
end

