-- ==== Sys2Proof/Machine/Agents.lean ====
section
/-! DEFINITION. The two agents and which of them moves (10_state.md R22, 20_memory.md R72 to R74). -/

namespace Sys2Proof.Machine

/-- The engine is the agent that moves: a command is in flight and its countdown has run out (20_memory.md R72). -/
def State.engineTurn (s : State) : Bool := s.status.busy && s.countdown == 0

/-- The engine executes the latched command word (20_memory.md R71, R72). -/
def engineStep (s : State) : Host.Outcome State Fault Refusal :=
  match decode s.cmd with
  | .ok i => exec i s
  | .error _ => .refused .undecodableLatch

/-- A step with `rst = 0`: the engine's completion step or a host turn. -/
def agentStep (s : State) : Host.Outcome State Fault Refusal :=
  if s.engineTurn then engineStep s else .next (hostTurn s)

/-- `rst = 1` at this clock edge (70_reset_and_hazards.md R230). -/
def State.resetDue (s : State) : Bool := s.rst.headD false

end Sys2Proof.Machine
end

