-- ==== Sys2Proof/Machine/Step.lean ====
section
/-! DEFINITION. One step of the machine: a reset edge, the engine's completion step, or a host turn (10_state.md R22,
20_memory.md R72, R74, 70_reset_and_hazards.md R230). -/

namespace Sys2Proof.Machine

/-- One step. The level of `rst` at this clock edge is the head of `State.rst`; 1 takes the reset state. -/
def step (s : State) : Host.Outcome State Fault Refusal :=
  if s.resetDue then .next s.dropEdge.resetEdge else agentStep s.dropEdge

/-- `s` with the command word `w` accepted and its completion step due at the very next step: CMD holds it, BUSY is 1, DONE
is 0 (20_memory.md R70), and `rst` is low. Log entry 6. -/
def State.withFetchWord (s : State) (nbits w : Nat) : State :=
  { s with
    cmd := BitVec.ofNat 32 (w % 2 ^ nbits)
    status := { s.status with busy := true, done := false }
    countdown := 0
    rst := [] }

end Sys2Proof.Machine
end

