-- ==== Sys2Proof/Machine/Assembler.lean ====
section
/-! DEFINITION. The assembler of host scripts: pseudo-statements and labels (30_encoding.md R95 to R98). -/

namespace Sys2Proof.Machine

/-- A statement whose branch still names its label. -/
inductive LabelledStmt where
  | plain (st : Stmt)
  | bneTo (off : Offset) (mask value : Word) (name : Nat)
deriving DecidableEq, Repr

/-- The bytes of one row of a 4×4 block, the lowest column in bits 7:0 (20_memory.md R61). -/
def rowWord (v : Vector Byte 16) (i : Nat) : Word :=
  packBytes (v.toList.getD (4 * i) 0) (v.toList.getD (4 * i + 1) 0) (v.toList.getD (4 * i + 2) 0)
    (v.toList.getD (4 * i + 3) 0)

/-- "`stride` 16 for luma and 8 for chroma buffers" (30_encoding.md R97); no stride for an offset outside the sample
buffers (log entry 10). -/
def strideOf (base : Offset) : Option Nat :=
  match targetOf base.toNat with
  | .buf .yOrig | .buf .yPred | .buf .yRecon => some 16
  | .buf .cbOrig | .buf .crOrig | .buf .cbPred | .buf .crPred | .buf .cbRecon | .buf .crRecon => some 8
  | .buf .coefY | .buf .dcY | .buf .coefCb | .buf .dcCb | .buf .coefCr | .buf .dcCr => none
  | .reg _ => none
  | .unmapped => none

/-- The expansion of one line (30_encoding.md R97), `none` where the assembler rejects it (R95). -/
def expandLine : Line → Option (List LabelledStmt)
  | .wr off data => some [.plain (.wr off data)]
  | .rd off _ => some [.plain (.rd off)]
  | .poll off mask value => some [.plain (.poll off mask value)]
  | .label _ => some []
  | .bne off mask value name => some [.bneTo off mask value name]
  | .command c => c.word.map fun w => [.plain (.wr 0x004 w)]
  | .wait => some [.plain (.poll 0x008 0x1 0x0)]
  | .clrst => some [.plain (.wr 0x008 0x1E)]
  | .wrblk4 base v =>
    (strideOf base).map fun stride =>
      (List.range 4).map fun i => .plain (.wr (base + BitVec.ofNat 12 (stride * i)) (rowWord v i))

/-- The position of the statement that a label names (30_encoding.md R96), counted from `start`: the first label of that
name. -/
def labelPos (name : Nat) : List Line → Nat → Option Nat
  | [], _ => none
  | l :: ls, start =>
    if l = .label name then some start
    else
      match expandLine l with
      | none => none
      | some ss => labelPos name ls (start + ss.length)

/-- A branch to a label becomes a branch to a position (30_encoding.md R99). -/
def resolve (src : List Line) : LabelledStmt → Option Stmt
  | .plain st => some st
  | .bneTo off mask value name => (labelPos name src 0).map fun target => .bne off mask value target

/-- Assemble a script (30_encoding.md R96, R97); `none` where a line is rejected or a label is missing. -/
def assemble (src : List Line) : Option (List Stmt) :=
  match src.mapM expandLine with
  | none => none
  | some parts => parts.flatten.mapM (resolve src)

end Sys2Proof.Machine
end

