-- ==== Sys2Proof/Machine/Trace.lean ====
section
/-! DEFINITION. The encoding of a script: the transactions a run issues, in issue order (30_encoding.md R98). -/

namespace Sys2Proof.Machine

/-- The transaction that the step at `s` issues: that of the script's statement at a host turn, none at a reset edge (an
access offered then is not acknowledged, 70_reset_and_hazards.md R230; log entry 8) and none at the engine's step. -/
def State.offered (s : State) : Option Txn :=
  if s.resetDue || s.engineTurn then none else (s.script[s.pos]?).map stmtTxn

/-- The transactions that `n` steps from `s` issue, in issue order: a triple for each `WR`, a pair for each `RD` and each
iteration of a `POLL` or `BNE` (30_encoding.md R98). -/
def issued : Nat → State → List Txn
  | 0, _ => []
  | n + 1, s =>
    match step s with
    | .next t => s.offered.toList ++ issued n t
    | .fault _ | .refused _ => []

end Sys2Proof.Machine
end

