-- ==== Sys2Proof/Safety.lean ====
section
/-! DEFINITION. The terms claims use: which bytes a command reads and writes (10_state.md R32), what a completion may change,
and the machine's invariant. -/

namespace Sys2Proof.Machine

/-- The offset `a` lies in 4×4 block `b` of the luma sample buffer at `base` (20_memory.md R60, 10_state.md R27). -/
def inLumaBlock (base b a : Nat) : Prop :=
  base ≤ a ∧ a < base + 256 ∧ (a - base) / 16 / 4 = b / 4 ∧ (a - base) % 16 / 4 = b % 4

/-- The offset `a` lies in the level buffer at `base`, `n` levels long. -/
def inLevels (base n a : Nat) : Prop := base ≤ a ∧ a < base + 2 * n

/-- The offset `a` belongs to an AC level, `(u, v) ≠ (0, 0)`, of the coefficient buffer at `base` with `n` levels. -/
def inAcLevels (base n a : Nat) : Prop := inLevels base n a ∧ (a - base) / 2 % 16 ≠ 0

/-- The offset `a` lies in the sample buffer at `base` of `n` bytes. -/
def inSamples (base n a : Nat) : Prop := base ≤ a ∧ a < base + n

/-- The coefficient, DC, ORIG, PRED and RECON offsets of a chroma plane (20_memory.md R60). -/
def chromaCoef : Plane → Nat
  | .cb => 0xA40 | .cr => 0xB00

def chromaDc : Plane → Nat
  | .cb => 0xAC0 | .cr => 0xB80

def chromaOrig : Plane → Nat
  | .cb => 0x200 | .cr => 0x240

def chromaPred : Plane → Nat
  | .cb => 0x400 | .cr => 0x440

def chromaRecon : Plane → Nat
  | .cb => 0x600 | .cr => 0x640

/-- The bytes a command may write: the w entries of the access matrix (10_state.md R32), by offset (20_memory.md R60). -/
def writes : Instr → Nat → Prop
  | .nop, _ => False
  | .fwdL4 b, a => inLevels (0x800 + 32 * b) 16 a
  | .invL4 b, a => inLumaBlock 0x500 b a
  | .rtL4 b, a => inLevels (0x800 + 32 * b) 16 a ∨ inLumaBlock 0x500 b a
  | .fwdL16, a => inLevels 0x800 256 a ∨ inLevels 0xA00 16 a
  | .invL16, a => inSamples 0x500 256 a
  | .rtL16, a => inLevels 0x800 256 a ∨ inLevels 0xA00 16 a ∨ inSamples 0x500 256 a
  | .fwdC8 p, a => inLevels (chromaCoef p) 64 a ∨ inLevels (chromaDc p) 4 a
  | .invC8 p, a => inSamples (chromaRecon p) 64 a
  | .rtC8 p, a => inLevels (chromaCoef p) 64 a ∨ inLevels (chromaDc p) 4 a ∨ inSamples (chromaRecon p) 64 a
  | .pcmCopy, a => inSamples 0x500 256 a ∨ inSamples 0x600 64 a ∨ inSamples 0x640 64 a
  | .clrCoef, a =>
    (inLevels 0x800 256 a ∨ inLevels 0xA00 16 a) ∨ (inLevels 0xA40 64 a ∨ inLevels 0xAC0 4 a) ∨
      (inLevels 0xB00 64 a ∨ inLevels 0xB80 4 a)

/-- The bytes a command's results may depend on: the r entries of the access matrix (10_state.md R32). -/
def reads : Instr → Nat → Prop
  | .nop, _ => False
  | .fwdL4 b, a | .rtL4 b, a => inLumaBlock 0x100 b a ∨ inLumaBlock 0x300 b a
  | .invL4 b, a => inLevels (0x800 + 32 * b) 16 a ∨ inLumaBlock 0x300 b a
  | .fwdL16, a | .rtL16, a => inSamples 0x100 256 a ∨ inSamples 0x300 256 a
  | .invL16, a => inAcLevels 0x800 256 a ∨ inLevels 0xA00 16 a ∨ inSamples 0x300 256 a
  | .fwdC8 p, a | .rtC8 p, a => inSamples (chromaOrig p) 64 a ∨ inSamples (chromaPred p) 64 a
  | .invC8 p, a => inAcLevels (chromaCoef p) 64 a ∨ inLevels (chromaDc p) 4 a ∨ inSamples (chromaPred p) 64 a
  | .pcmCopy, a => inSamples 0x100 256 a ∨ inSamples 0x200 64 a ∨ inSamples 0x240 64 a
  | .clrCoef, _ => False

/-- `t` is `s` after a completion step: BUSY is 0, DONE is 1, the buffers may differ, and nothing else does
(20_memory.md R72, 10_state.md R47). -/
def CompletedFrom (s t : State) : Prop :=
  t = { s with mem := t.mem, status := { s.status with busy := false, done := true } }

/-- The level at offset `a` is written and is the integer `v`. -/
def levelIs (m : Memory) (a : Nat) (v : Int) : Prop := (m.getLevel a).map BitVec.toInt = some v

/-- The sample at offset `a` is written and is the integer `v`. -/
def sampleIs (m : Memory) (a : Nat) (v : Int) : Prop := (m.get a).map (fun b => (b.toNat : Int)) = some v

/-- Samples of luma block `b` of the buffer at `base`: row `i`, column `j` (10_state.md R27, 20_memory.md R60). -/
def lumaBlockIs (m : Memory) (base : Nat) (b : Fin 16) (x : Mat) : Prop :=
  ∀ i j, i < 4 → j < 4 → sampleIs m (base + 16 * (4 * (b.val / 4) + i) + (4 * (b.val % 4) + j)) (x i j)

/-- The 16 levels of luma block `b`: row `u`, column `v` (20_memory.md R60). -/
def lumaLevelsAre (m : Memory) (b : Fin 16) (c : Mat) : Prop :=
  ∀ u v, u < 4 → v < 4 → levelIs m (0x800 + 2 * (16 * b.val + 4 * u + v)) (c u v)

/-- A sample plane of `w` columns and rows at `base`: column `x`, row `y` (20_memory.md R60). -/
def planeIs (m : Memory) (base w : Nat) (p : Nat → Nat → Int) : Prop :=
  ∀ x y, x < w → y < w → sampleIs m (base + w * y + x) (p x y)

/-- The AC levels of `n` blocks of the coefficient buffer at `base` (20_memory.md R60). -/
def acLevelsAre (m : Memory) (base n : Nat) (c : Nat → Mat) : Prop :=
  ∀ b u v, b < n → u < 4 → v < 4 → ¬ (u = 0 ∧ v = 0) → levelIs m (base + 2 * (16 * b + 4 * u + v)) (c b u v)

/-- The levels `[m][n]` of the DC buffer at `base`, `side` a row (20_memory.md R60). -/
def dcLevelsAre (m : Memory) (base side : Nat) (c : Mat) : Prop :=
  ∀ i j, i < side → j < side → levelIs m (base + 2 * (side * i + j)) (c i j)

/-- The residual of block `b` of a plane with `side` blocks a row (40_forward.md R111, 10_state.md R27, R29). -/
def planeResidual (side : Nat) (o p : Nat → Nat → Int) (b : Nat) : Mat := fun i j =>
  o (4 * (b % side) + j) (4 * (b / side) + i) - p (4 * (b % side) + j) (4 * (b / side) + i)

/-- `W_b`, the transformed residual of block `b` (40_forward.md R119, R120). -/
def planeCore (side : Nat) (o p : Nat → Nat → Int) (b : Nat) : Mat := coreTransform (planeResidual side o p b)

/-- `D[m][n] = W_b[0][0]`, `b = side*m + n` (40_forward.md R116, R117). -/
def planeDc (side : Nat) (o p : Nat → Nat → Int) : Mat := fun i j => planeCore side o p (side * i + j) 0 0

/-- The scaled coefficients `d` of block `b` in INV_L16 and INV_C8 (41_inverse.md R151, R152). -/
def scaledWithDc (qp side : Nat) (dc : Mat) (c : Nat → Mat) (b : Nat) : Mat := fun u v =>
  if u = 0 ∧ v = 0 then dc (b / side) (b % side) else deq (c b u v) qp u v

/-- An offset that the map assigns: a register word or a byte of a buffer (20_memory.md R60). -/
def mappedOffset (a : Nat) : Prop :=
  a ≤ 0x017 ∨ (0x100 ≤ a ∧ a ≤ 0x27F) ∨ (0x300 ≤ a ∧ a ≤ 0x47F) ∨ (0x500 ≤ a ∧ a ≤ 0x67F) ∨
    (0x800 ≤ a ∧ a ≤ 0xA1F) ∨ (0xA40 ≤ a ∧ a ≤ 0xAC7) ∨ (0xB00 ≤ a ∧ a ≤ 0xB87)

/-- The RECON buffers (20_memory.md R60). -/
def reconOffset (a : Nat) : Prop := 0x500 ≤ a ∧ a ≤ 0x67F

/-- An offset of the ORIG, PRED or coefficient buffers (20_memory.md R60). -/
def writableOffset (a : Nat) : Prop := 0x100 ≤ a ∧ mappedOffset a ∧ ¬ reconOffset a

/-- The levels that bit `k` of NZ is computed from (10_state.md R42 to R45). -/
def nzInputs (k a : Nat) : Prop :=
  if k < 16 then inLevels (0x800 + 32 * k) 16 a
  else if k = 16 then inLevels 0xA00 16 a
  else if k = 17 then inLevels 0xAC0 4 a
  else if k = 18 then inAcLevels 0xA40 64 a
  else if k = 19 then inLevels 0xB80 4 a
  else if k = 20 then inAcLevels 0xB00 64 a
  else if 24 ≤ k ∧ k < 28 then
    ∃ b, b ∈ [0, 1, 4, 5] ∧ inLevels (0x800 + 32 * (8 * ((k - 24) / 2) + 2 * ((k - 24) % 2) + b)) 16 a
  else (k = 28 ∨ k = 29) ∧ (inLevels 0xA40 64 a ∨ inLevels 0xAC0 4 a ∨ inLevels 0xB00 64 a ∨ inLevels 0xB80 4 a)

/-- The commands with an inverse half, which clamp (41_inverse.md R148, 42_roundtrip_control.md section 1). -/
def clampsRecon : Instr → Prop
  | .invL4 _ | .rtL4 _ | .invL16 | .rtL16 | .invC8 _ | .rtC8 _ => True
  | .nop | .fwdL4 _ | .fwdL16 | .fwdC8 _ | .pcmCopy | .clrCoef => False

/-- The state after reset, as 10_state.md R48 lists it. -/
def AtReset (t : State) : Prop :=
  t.resetSeen = true ∧ t.cmd = 0 ∧ t.status = ⟨false, false, false, false, false⟩ ∧ t.irqEn = ⟨false, false⟩ ∧ t.irq = false ∧
    ∀ a, t.mem.get a = none

/-- The invariant of the machine from the first reset edge on. -/
structure State.Inv (s : State) : Prop where
  /-- The memory is in canonical form. -/
  memWf : s.mem.wf
  /-- Only elements of buffers are ever written (20_memory.md R60). -/
  mapped : ∀ a, (s.mem.get a).isSome = true → ∃ b : Buf, b.holds a = true
  /-- A level is written as a whole (20_memory.md R62). -/
  levels : ∀ a, 0x800 ≤ a → a % 2 = 0 → (s.mem.get a).isSome = (s.mem.get (a + 1)).isSome
  /-- CMD holds a command word: only accepted words reach it (10_state.md R37). -/
  latch : ∃ i, decode s.cmd = .ok i
  /-- DONE is 0 while a command is in flight (10_state.md R38, 20_memory.md R70, R72). -/
  doneLow : s.status.busy = true → s.status.done = false
  /-- A reset edge has come since power-on (70_reset_and_hazards.md R232). -/
  seen : s.resetSeen = true

end Sys2Proof.Machine
end

