-- ==== Sys2Proof/Certificates/Slice0/Obligations.lean ====
section
/-! DEFINITION. The statements for the provers, from the numbered rules of spec/. -/

open Sys2Proof Sys2Proof.Machine

/-! ### Encoding -/

/-- Words of 95_test_vectors.md section 2.1: every family's word, written out, decodes to its command. -/
def Obligations.WrittenOutWordsDecode : Prop :=
  decode 0x00000000 = .ok .nop ∧ decode 0x00000001 = .ok (.fwdL4 0) ∧ decode 0x00000052 = .ok (.invL4 5) ∧
  decode 0x000000F3 = .ok (.rtL4 15) ∧ decode 0x00000004 = .ok .fwdL16 ∧ decode 0x00000005 = .ok .invL16 ∧
  decode 0x00000006 = .ok .rtL16 ∧ decode 0x00000107 = .ok (.fwdC8 .cr) ∧ decode 0x00000008 = .ok (.invC8 .cb) ∧
  decode 0x00000109 = .ok (.rtC8 .cr) ∧ decode 0x0000000A = .ok .pcmCopy ∧ decode 0x0000000B = .ok .clrCoef ∧
  (∀ w ∈ [(0x104 : Word), 0x101, 0x17, 0x1B, 0xC, 0xD, 0xE, 0xF, 0x200, 0x80000003, 0xFFFFFFFF],
    ∀ i, decode w ≠ .ok i)

/-- 30_encoding.md R92: the words of each command, all others being invalid, in numbers. -/
def Obligations.DecodeByTheTable : Prop :=
  ∀ w : Word,
    (decode w = .ok .nop ↔ w.toNat = 0x0) ∧
    (∀ b : Fin 16, (decode w = .ok (.fwdL4 b) ↔ w.toNat = 16 * b + 0x1) ∧ (decode w = .ok (.invL4 b) ↔ w.toNat = 16 * b + 0x2) ∧
      (decode w = .ok (.rtL4 b) ↔ w.toNat = 16 * b + 0x3)) ∧
    (decode w = .ok .fwdL16 ↔ w.toNat = 0x4) ∧ (decode w = .ok .invL16 ↔ w.toNat = 0x5) ∧
    (decode w = .ok .rtL16 ↔ w.toNat = 0x6) ∧
    (decode w = .ok (.fwdC8 .cb) ↔ w.toNat = 0x007) ∧ (decode w = .ok (.fwdC8 .cr) ↔ w.toNat = 0x107) ∧
    (decode w = .ok (.invC8 .cb) ↔ w.toNat = 0x008) ∧ (decode w = .ok (.invC8 .cr) ↔ w.toNat = 0x108) ∧
    (decode w = .ok (.rtC8 .cb) ↔ w.toNat = 0x009) ∧ (decode w = .ok (.rtC8 .cr) ↔ w.toNat = 0x109) ∧
    (decode w = .ok .pcmCopy ↔ w.toNat = 0xA) ∧ (decode w = .ok .clrCoef ↔ w.toNat = 0xB)

/-- HEADLINE: decode and encode agree on all words: each command has exactly one word and each word at most one command
(30_encoding.md section 1). -/
def Obligations.DecodeIffEncode : Prop := ∀ (w : Word) (i : Instr), decode w = .ok i ↔ w = encode i

/-- 30_encoding.md R95: the word of every form, and what an assembler rejects. -/
def Obligations.AssemblerWords : Prop :=
  (∀ n, n < 16 →
    AsmCommand.word ⟨.FWD_L4, some (.number n)⟩ = some (BitVec.ofNat 32 (16 * n + 1)) ∧
    AsmCommand.word ⟨.INV_L4, some (.number n)⟩ = some (BitVec.ofNat 32 (16 * n + 2)) ∧
    AsmCommand.word ⟨.RT_L4, some (.number n)⟩ = some (BitVec.ofNat 32 (16 * n + 3))) ∧
  AsmCommand.word ⟨.NOP, none⟩ = some 0 ∧ AsmCommand.word ⟨.FWD_L16, none⟩ = some 4 ∧
  AsmCommand.word ⟨.INV_L16, none⟩ = some 5 ∧ AsmCommand.word ⟨.RT_L16, none⟩ = some 6 ∧
  AsmCommand.word ⟨.FWD_C8, some (.plane .cb)⟩ = some 7 ∧ AsmCommand.word ⟨.FWD_C8, some (.plane .cr)⟩ = some 0x107 ∧
  AsmCommand.word ⟨.INV_C8, some (.plane .cb)⟩ = some 8 ∧ AsmCommand.word ⟨.INV_C8, some (.plane .cr)⟩ = some 0x108 ∧
  AsmCommand.word ⟨.RT_C8, some (.plane .cb)⟩ = some 9 ∧ AsmCommand.word ⟨.RT_C8, some (.plane .cr)⟩ = some 0x109 ∧
  AsmCommand.word ⟨.PCM_COPY, none⟩ = some 0xA ∧ AsmCommand.word ⟨.CLR_COEF, none⟩ = some 0xB ∧
  (∀ m ∈ [Mnemonic.FWD_L4, .INV_L4, .RT_L4], AsmCommand.word ⟨m, none⟩ = none ∧
    (∀ n, 16 ≤ n → AsmCommand.word ⟨m, some (.number n)⟩ = none) ∧
    ∀ p, AsmCommand.word ⟨m, some (.plane p)⟩ = none) ∧
  (∀ m ∈ [Mnemonic.FWD_C8, .INV_C8, .RT_C8], AsmCommand.word ⟨m, none⟩ = none ∧
    ∀ n, AsmCommand.word ⟨m, some (.number n)⟩ = none) ∧
  (∀ m ∈ [Mnemonic.NOP, .FWD_L16, .INV_L16, .RT_L16, .PCM_COPY, .CLR_COEF], ∀ o, AsmCommand.word ⟨m, some o⟩ = none)

/-- The pseudo-statements of 30_encoding.md R97, `WRBLK4` at every offset of a luma or chroma sample buffer. -/
def Obligations.PseudoStatementsExpand : Prop :=
  (∀ c w, AsmCommand.word c = some w → assemble [.command c] = some [.wr 0x004 w]) ∧
  assemble [.wait] = some [.poll 0x008 0x1 0x0] ∧
  assemble [.clrst] = some [.wr 0x008 0x1E] ∧
  (∀ (base : Offset) (v : Vector Byte 16),
    (inSamples 0x100 256 base.toNat ∨ inSamples 0x300 256 base.toNat ∨ inSamples 0x500 256 base.toNat →
      assemble [.wrblk4 base v] =
        some [.wr base (rowWord v 0), .wr (base + 16) (rowWord v 1), .wr (base + 32) (rowWord v 2),
          .wr (base + 48) (rowWord v 3)]) ∧
    (inSamples 0x200 128 base.toNat ∨ inSamples 0x400 128 base.toNat ∨ inSamples 0x600 128 base.toNat →
      assemble [.wrblk4 base v] =
        some [.wr base (rowWord v 0), .wr (base + 8) (rowWord v 1), .wr (base + 16) (rowWord v 2),
          .wr (base + 24) (rowWord v 3)])) ∧
  (∀ (v : Vector Byte 16) (i k : Nat), i < 4 → k < 4 → some ((rowWord v i).extractLsb' (8 * k) 8) = v[4 * i + k]?)

/-! ### Arithmetic -/

/-- 41_inverse.md R145: every shift right of R142 to R144 is a floor division, in the two DC paths, in the two passes of
`itrans` and in its last shift. -/
def Obligations.ShiftsFloor : Prop :=
  (∀ (a : Int) (n : Nat), shr a n = a.fdiv (2 ^ n) ∧ shr a n * 2 ^ n ≤ a ∧ a < (shr a n + 1) * 2 ^ n) ∧
  (∀ (qp : Nat) (c : Mat) (m n : Nat), qp < 12 →
    lumaDcInverse qp c m n = (hdh c m n * levelScale (qp % 6) 0 + 2 ^ (1 - qp / 6)).fdiv (2 ^ (2 - qp / 6))) ∧
  (∀ (qp : Nat) (c : Mat) (m n : Nat),
    chromaDcInverse qp c m n = (ada c m n * levelScale (qp % 6) 0 * 2 ^ (qp / 6)).fdiv 2) ∧
  (∀ d : Mat, ∃ f h : Mat,
    (∀ i, f i 0 = (d i 0 + d i 2) + (d i 1 + (d i 3).fdiv 2) ∧ f i 1 = (d i 0 - d i 2) + ((d i 1).fdiv 2 - d i 3) ∧
      f i 2 = (d i 0 - d i 2) - ((d i 1).fdiv 2 - d i 3) ∧ f i 3 = (d i 0 + d i 2) - (d i 1 + (d i 3).fdiv 2)) ∧
    (∀ j, h 0 j = (f 0 j + f 2 j) + (f 1 j + (f 3 j).fdiv 2) ∧ h 1 j = (f 0 j - f 2 j) + ((f 1 j).fdiv 2 - f 3 j) ∧
      h 2 j = (f 0 j - f 2 j) - ((f 1 j).fdiv 2 - f 3 j) ∧ h 3 j = (f 0 j + f 2 j) - (f 1 j + (f 3 j).fdiv 2)) ∧
    ∀ i j, i < 4 → j < 4 → itrans d i j = (h i j + 32).fdiv 64) ∧
  shr (-13) 1 = -7 ∧ shr (-1760) 6 = -28

/-- 40_forward.md R114, R115: the two quantisers in full, the values of `F_INTRA` for `qp/6` = 0 to 8, and the sign. -/
def Obligations.QuantiserFormulas : Prop :=
  (∀ (w : Int) (qp u v : Nat), quant w qp u v =
    w.sign * ((w.natAbs * mf (qp % 6) (cls u v) + 2 ^ (15 + qp / 6) / 3) / 2 ^ (15 + qp / 6) : Nat)) ∧
  (∀ (w : Int) (qp : Nat), quantDC w qp =
    w.sign * ((w.natAbs * mf (qp % 6) 0 + 2 * (2 ^ (15 + qp / 6) / 3)) / 2 ^ (15 + qp / 6 + 1) : Nat)) ∧
  (∀ qp, qp < 54 → fIntra qp =
    [10922, 21845, 43690, 87381, 174762, 349525, 699050, 1398101, 2796202].getD (qp / 6) 0) ∧
  (∀ w qp u v, quant (-w) qp u v = -quant w qp u v) ∧ (∀ qp u v, quant 0 qp u v = 0)

/-- 40_forward.md R123 (which the spec marks as derived): both quantisers are odd and non-decreasing, with the stated dead
zone, and a negated residual block has negated levels. -/
def Obligations.QuantisersMonotone : Prop :=
  (∀ w w' : Int, ∀ qp u v, w ≤ w' → quant w qp u v ≤ quant w' qp u v) ∧
  (∀ w w' : Int, ∀ qp, w ≤ w' → quantDC w qp ≤ quantDC w' qp) ∧
  (∀ w : Int, ∀ qp u v, quant (-w) qp u v = -quant w qp u v) ∧
  (∀ w : Int, ∀ qp, quantDC (-w) qp = -quantDC w qp) ∧
  (∀ w : Int, ∀ qp u v, quant w qp u v = 0 ↔ w.natAbs * mf (qp % 6) (cls u v) + fIntra qp < 2 ^ qbits qp) ∧
  (∀ w : Int, ∀ qp, quantDC w qp = 0 ↔ w.natAbs * mf (qp % 6) 0 + 2 * fIntra qp < 2 ^ (qbits qp + 1)) ∧
  (∀ x : Mat, ∀ qp u v,
    quant (coreTransform (fun i j => -x i j) u v) qp u v = -quant (coreTransform x u v) qp u v)

/-- 40_forward.md R121 (which the spec marks as derived): the ranges that make every 16-bit store exact. -/
def Obligations.ForwardRanges : Prop :=
  ∀ (x : Mat), (∀ i j, (x i j).natAbs ≤ 255) → ∀ qp, qp ≤ 51 →
    (∀ u v, u < 4 → v < 4 → (coreTransform x u v).natAbs ≤ 9180 ∧ (quant (coreTransform x u v) qp u v).natAbs ≤ 1632) ∧
    (coreTransform x 0 0).natAbs ≤ 4080 ∧
    (∀ d : Mat, (∀ i j, (d i j).natAbs ≤ 4080) → ∀ m n, m < 4 → n < 4 →
      (lumaDcForward d m n).natAbs ≤ 32640 ∧ (quantDC (lumaDcForward d m n) qp).natAbs ≤ 6528) ∧
    (∀ d : Mat, (∀ i j, (d i j).natAbs ≤ 4080) → ∀ m n, m < 2 → n < 2 →
      (chromaDcForward d m n).natAbs ≤ 16320 ∧ (quantDC (chromaDcForward d m n) qp).natAbs ≤ 3264)

/-- 41_inverse.md R160 (which the spec marks as derived): the widths of the inverse arithmetic for every 16-bit level, every
intermediate of R144 on the coefficients that the three inverse commands scale among them. -/
def Obligations.InverseRanges : Prop :=
  ∀ qp, qp ≤ 51 →
    (∀ c : Int, -32768 ≤ c → c ≤ 32767 → ∀ u v, (deq c qp u v).natAbs < 2 ^ 28) ∧
    (∀ c : Mat, (∀ i j, -32768 ≤ c i j ∧ c i j ≤ 32767) → ∀ m n, m < 4 → n < 4 → (lumaDcInverse qp c m n).natAbs < 2 ^ 29) ∧
    (∀ c : Mat, (∀ i j, -32768 ≤ c i j ∧ c i j ≤ 32767) → ∀ m n, m < 2 → n < 2 → qp ≤ 39 →
      (chromaDcInverse qp c m n).natAbs < 2 ^ 26) ∧
    (∀ (c : Nat → Mat) (dc d : Mat) (b : Nat), (∀ b u v, -32768 ≤ c b u v ∧ c b u v ≤ 32767) →
      (∀ i j, -32768 ≤ dc i j ∧ dc i j ≤ 32767) →
      ((d = fun u v => deq (c b u v) qp u v) ∨ (b < 16 ∧ d = scaledWithDc qp 4 (lumaDcInverse qp dc) c b) ∨
        (b < 4 ∧ qp ≤ 39 ∧ d = scaledWithDc qp 2 (chromaDcInverse qp dc) c b)) →
      (∀ i, i < 4 → (d i 0 + d i 2).natAbs < 2 ^ 32 ∧ (d i 0 - d i 2).natAbs < 2 ^ 32 ∧
        (shr (d i 1) 1 - d i 3).natAbs < 2 ^ 32 ∧ (d i 1 + shr (d i 3) 1).natAbs < 2 ^ 32) ∧
      (∀ f : Mat, f = rowPass d → ∀ j, j < 4 → (f 0 j + f 2 j).natAbs < 2 ^ 32 ∧ (f 0 j - f 2 j).natAbs < 2 ^ 32 ∧
        (shr (f 1 j) 1 - f 3 j).natAbs < 2 ^ 32 ∧ (f 1 j + shr (f 3 j) 1).natAbs < 2 ^ 32) ∧
      ∀ i j, i < 4 → j < 4 → (rowPass d i j).natAbs < 2 ^ 32 ∧ (columnPass (rowPass d) i j).natAbs < 2 ^ 32 ∧
        (columnPass (rowPass d) i j + 32).natAbs < 2 ^ 32)

/-- 00_scope.md R7: exactly the well-formed pairs are configurations. -/
def Obligations.ConfigurationsAreWellFormed : Prop :=
  ∀ qpY qpC : Nat, (∃ cfg : Config, cfg.qpY = qpY ∧ cfg.qpC = qpC) ↔
    (qpY ≤ 51 ∧ qpC ≤ 39 ∧ ∃ o : Int, -12 ≤ o ∧ o ≤ 12 ∧ qpC = qpcTable (clip3 0 51 (qpY + o)).toNat)

/-! ### Commands: results, completion and frame -/

/-- 42_roundtrip_control.md R184: NOP's word, its acceptance by an idle machine, and its completion, which changes BUSY and
DONE alone; a word with OP 0 and another bit set is invalid. `d` is the model's completion delay (log entry 1). -/
def Obligations.NopCompletes : Prop :=
  encode .nop = 0 ∧
  (∀ (s : State) (d : Nat), s.status.busy = false → busWrite 0x004 0 d s =
    { s with cmd := 0, status := { s.status with busy := true, done := false }, countdown := d, resp := some (.write .ok) }) ∧
  (∀ s : State, exec .nop s = .next { s with status := { s.status with busy := false, done := true } }) ∧
  (∀ (w : Word) (i : Instr), w.extractLsb' 0 4 = 0 → w ≠ 0 → decode w ≠ .ok i)

/-- FWD_L4 (40_forward.md R118): on written samples, the 16 levels of the block, and nothing else. -/
def Obligations.FwdL4Levels : Prop :=
  ∀ (s : State) (b : Fin 16) (o p : Mat), lumaBlockIs s.mem 0x100 b o → lumaBlockIs s.mem 0x300 b p →
    ∃ t, exec (.fwdL4 b) s = .next t ∧ CompletedFrom s t ∧
      lumaLevelsAre t.mem b (fun u v => quant (coreTransform (fun i j => o i j - p i j) u v) s.cfg.qpY u v) ∧
      ∀ a, ¬ inLevels (0x800 + 32 * b) 16 a → t.mem.get a = s.mem.get a

/-- FWD_L16 (40_forward.md R119): on written samples, the AC levels, 0 at `[b][0][0]`, the DC levels, and nothing else. -/
def Obligations.FwdL16Levels : Prop :=
  ∀ (s : State) (o p : Nat → Nat → Int), planeIs s.mem 0x100 16 o → planeIs s.mem 0x300 16 p →
    ∃ t, exec .fwdL16 s = .next t ∧ CompletedFrom s t ∧
      acLevelsAre t.mem 0x800 16 (fun b u v => quant (planeCore 4 o p b u v) s.cfg.qpY u v) ∧
      (∀ b, b < 16 → levelIs t.mem (0x800 + 32 * b) 0) ∧
      dcLevelsAre t.mem 0xA00 4 (fun m n => quantDC (lumaDcForward (planeDc 4 o p) m n) s.cfg.qpY) ∧
      ∀ a, ¬ (inLevels 0x800 256 a ∨ inLevels 0xA00 16 a) → t.mem.get a = s.mem.get a

/-- FWD_C8 (40_forward.md R120): on written samples of the named plane, its levels, and nothing else. -/
def Obligations.FwdC8Levels : Prop :=
  ∀ (s : State) (pl : Plane) (o p : Nat → Nat → Int),
    planeIs s.mem (chromaOrig pl) 8 o → planeIs s.mem (chromaPred pl) 8 p →
    ∃ t, exec (.fwdC8 pl) s = .next t ∧ CompletedFrom s t ∧
      acLevelsAre t.mem (chromaCoef pl) 4 (fun b u v => quant (planeCore 2 o p b u v) s.cfg.qpC u v) ∧
      (∀ b, b < 4 → levelIs t.mem (chromaCoef pl + 32 * b) 0) ∧
      dcLevelsAre t.mem (chromaDc pl) 2 (fun m n => quantDC (chromaDcForward (planeDc 2 o p) m n) s.cfg.qpC) ∧
      ∀ a, ¬ (inLevels (chromaCoef pl) 64 a ∨ inLevels (chromaDc pl) 4 a) → t.mem.get a = s.mem.get a

/-- INV_L4 (41_inverse.md R150): on written levels and prediction, the clamped samples of the block, and nothing else. -/
def Obligations.InvL4Samples : Prop :=
  ∀ (s : State) (b : Fin 16) (c p : Mat), lumaLevelsAre s.mem b c → lumaBlockIs s.mem 0x300 b p →
    ∃ t, exec (.invL4 b) s = .next t ∧ CompletedFrom s t ∧
      lumaBlockIs t.mem 0x500 b
        (fun i j => clip3 16 235 (p i j + itrans (fun u v => deq (c u v) s.cfg.qpY u v) i j)) ∧
      ∀ a, ¬ inLumaBlock 0x500 b a → t.mem.get a = s.mem.get a

/-- INV_L16 (41_inverse.md R151): on written AC levels, DC levels and prediction, the clamped luma plane, and nothing
else. `COEF_Y[b][0][0]` is not mentioned. -/
def Obligations.InvL16Samples : Prop :=
  ∀ (s : State) (c : Nat → Mat) (dc : Mat) (p : Nat → Nat → Int),
    acLevelsAre s.mem 0x800 16 c → dcLevelsAre s.mem 0xA00 4 dc → planeIs s.mem 0x300 16 p →
    ∃ t, exec .invL16 s = .next t ∧ CompletedFrom s t ∧
      planeIs t.mem 0x500 16 (fun x y => clip3 16 235 (p x y +
        itrans (scaledWithDc s.cfg.qpY 4 (lumaDcInverse s.cfg.qpY dc) c (4 * (y / 4) + x / 4)) (y % 4) (x % 4))) ∧
      ∀ a, ¬ inSamples 0x500 256 a → t.mem.get a = s.mem.get a

/-- INV_C8 (41_inverse.md R152): the same for the named chroma plane with the chroma clamp. -/
def Obligations.InvC8Samples : Prop :=
  ∀ (s : State) (pl : Plane) (c : Nat → Mat) (dc : Mat) (p : Nat → Nat → Int),
    acLevelsAre s.mem (chromaCoef pl) 4 c → dcLevelsAre s.mem (chromaDc pl) 2 dc → planeIs s.mem (chromaPred pl) 8 p →
    ∃ t, exec (.invC8 pl) s = .next t ∧ CompletedFrom s t ∧
      planeIs t.mem (chromaRecon pl) 8 (fun x y => clip3 16 240 (p x y +
        itrans (scaledWithDc s.cfg.qpC 2 (chromaDcInverse s.cfg.qpC dc) c (2 * (y / 4) + x / 4)) (y % 4) (x % 4))) ∧
      ∀ a, ¬ inSamples (chromaRecon pl) 64 a → t.mem.get a = s.mem.get a

/-- RT_L4 (42_roundtrip_control.md R170): the levels just computed are written and are what the inverse half reads. -/
def Obligations.RtL4RoundTrip : Prop :=
  ∀ (s : State) (b : Fin 16) (o p : Mat), lumaBlockIs s.mem 0x100 b o → lumaBlockIs s.mem 0x300 b p →
    ∃ t, exec (.rtL4 b) s = .next t ∧ CompletedFrom s t ∧
      lumaLevelsAre t.mem b (fun u v => quant (coreTransform (fun i j => o i j - p i j) u v) s.cfg.qpY u v) ∧
      lumaBlockIs t.mem 0x500 b (fun i j => clip3 16 235 (p i j +
        itrans (fun u v => deq (quant (coreTransform (fun i j => o i j - p i j) u v) s.cfg.qpY u v) s.cfg.qpY u v) i j)) ∧
      ∀ a, ¬ (inLevels (0x800 + 32 * b) 16 a ∨ inLumaBlock 0x500 b a) → t.mem.get a = s.mem.get a

/-- RT_L16 (42_roundtrip_control.md R172). -/
def Obligations.RtL16RoundTrip : Prop :=
  ∀ (s : State) (o p : Nat → Nat → Int), planeIs s.mem 0x100 16 o → planeIs s.mem 0x300 16 p →
    ∃ t, exec .rtL16 s = .next t ∧ CompletedFrom s t ∧
      (∃ (c : Nat → Mat) (dc : Mat),
        (c = fun b u v => quant (planeCore 4 o p b u v) s.cfg.qpY u v) ∧
        (dc = fun m n => quantDC (lumaDcForward (planeDc 4 o p) m n) s.cfg.qpY) ∧
        acLevelsAre t.mem 0x800 16 c ∧ (∀ b, b < 16 → levelIs t.mem (0x800 + 32 * b) 0) ∧ dcLevelsAre t.mem 0xA00 4 dc ∧
        planeIs t.mem 0x500 16 (fun x y => clip3 16 235 (p x y +
          itrans (scaledWithDc s.cfg.qpY 4 (lumaDcInverse s.cfg.qpY dc) c (4 * (y / 4) + x / 4)) (y % 4) (x % 4)))) ∧
      ∀ a, ¬ (inLevels 0x800 256 a ∨ inLevels 0xA00 16 a ∨ inSamples 0x500 256 a) → t.mem.get a = s.mem.get a

/-- RT_C8 (42_roundtrip_control.md R174). -/
def Obligations.RtC8RoundTrip : Prop :=
  ∀ (s : State) (pl : Plane) (o p : Nat → Nat → Int),
    planeIs s.mem (chromaOrig pl) 8 o → planeIs s.mem (chromaPred pl) 8 p →
    ∃ t, exec (.rtC8 pl) s = .next t ∧ CompletedFrom s t ∧
      (∃ (c : Nat → Mat) (dc : Mat),
        (c = fun b u v => quant (planeCore 2 o p b u v) s.cfg.qpC u v) ∧
        (dc = fun m n => quantDC (chromaDcForward (planeDc 2 o p) m n) s.cfg.qpC) ∧
        acLevelsAre t.mem (chromaCoef pl) 4 c ∧ (∀ b, b < 4 → levelIs t.mem (chromaCoef pl + 32 * b) 0) ∧
        dcLevelsAre t.mem (chromaDc pl) 2 dc ∧
        planeIs t.mem (chromaRecon pl) 8 (fun x y => clip3 16 240 (p x y +
          itrans (scaledWithDc s.cfg.qpC 2 (chromaDcInverse s.cfg.qpC dc) c (2 * (y / 4) + x / 4)) (y % 4) (x % 4)))) ∧
      ∀ a, ¬ (inLevels (chromaCoef pl) 64 a ∨ inLevels (chromaDc pl) 4 a ∨ inSamples (chromaRecon pl) 64 a) →
        t.mem.get a = s.mem.get a

/-- PCM_COPY (42_roundtrip_control.md R180): element by element, no clamp, `⊥` as `⊥`, nothing else written. -/
def Obligations.PcmCopyCopies : Prop :=
  encode .pcmCopy = 0xA ∧
  ∀ s : State, ∃ t, exec .pcmCopy s = .next t ∧ CompletedFrom s t ∧
    (∀ x y, x < 16 → y < 16 → t.mem.get (0x500 + 16 * y + x) = s.mem.get (0x100 + 16 * y + x)) ∧
    (∀ x y, x < 8 → y < 8 → t.mem.get (0x600 + 8 * y + x) = s.mem.get (0x200 + 8 * y + x) ∧
      t.mem.get (0x640 + 8 * y + x) = s.mem.get (0x240 + 8 * y + x)) ∧
    ∀ a, ¬ inSamples 0x500 256 a → ¬ inSamples 0x600 128 a → t.mem.get a = s.mem.get a

/-- CLR_COEF (42_roundtrip_control.md R182): every level 0, NZ then reads 0 whatever the draw (once a reset edge has come,
70_reset_and_hazards.md R232), nothing else changes. -/
def Obligations.ClrCoefZeroes : Prop :=
  encode .clrCoef = 0xB ∧
  ∀ s : State, ∃ t, exec .clrCoef s = .next t ∧ CompletedFrom s t ∧
    (∀ k, k < 256 → levelIs t.mem (0x800 + 2 * k) 0) ∧ (∀ k, k < 16 → levelIs t.mem (0xA00 + 2 * k) 0) ∧
    (∀ pl : Plane, (∀ k, k < 64 → levelIs t.mem (chromaCoef pl + 2 * k) 0) ∧
      (∀ k, k < 4 → levelIs t.mem (chromaDc pl + 2 * k) 0)) ∧
    (s.resetSeen = true → ∀ draw, busRead 0x014 draw t = { t with resp := some (.read .ok 0) }) ∧
    ∀ a, ¬ (inLevels 0x800 272 a ∨ inLevels 0xA40 68 a ∨ inLevels 0xB00 68 a) → t.mem.get a = s.mem.get a

/-- The access matrix's w entries (10_state.md section 3): every command completes, and what it does not write is as
before. -/
def Obligations.EveryCommandCompletesInFrame : Prop :=
  ∀ (i : Instr) (s : State), ∃ t, exec i s = .next t ∧ CompletedFrom s t ∧ ∀ a, ¬ writes i a → t.mem.get a = s.mem.get a

/-- The access matrix's r entries (40_forward.md section 3, 41_inverse.md section 3): a command's outputs depend on its
inputs and the configuration alone. -/
def Obligations.OutputsDependOnReadsAlone : Prop :=
  ∀ (i : Instr) (s s' : State), s.cfg = s'.cfg → (∀ a, reads i a → s.mem.get a = s'.mem.get a) →
    ∃ t t', exec i s = .next t ∧ exec i s' = .next t' ∧ ∀ a, writes i a → t.mem.get a = t'.mem.get a

/-- 10_state.md R35 b, 41_inverse.md R146, 40_forward.md R111: any unwritten input element makes every output element
unwritten, and the command still completes. That one unwritten byte makes a level unwritten is log entry 4; PCM_COPY, which
copies element by element, is apart (log entry 11). -/
def Obligations.UnwrittenInputUnwritesOutputs : Prop :=
  ∀ (i : Instr) (s : State) (a : Nat), i ≠ .pcmCopy → reads i a → s.mem.get a = none →
    ∃ t, exec i s = .next t ∧ CompletedFrom s t ∧ ∀ a', writes i a' → t.mem.get a' = none

/-- 41_inverse.md R161 (which the spec marks as derived): after an inverse or round-trip command every RECON sample it wrote
is in its clamp range. -/
def Obligations.ReconStaysInClampRange : Prop :=
  ∀ (i : Instr) (s : State), clampsRecon i → ∃ t, exec i s = .next t ∧ ∀ a v, writes i a → t.mem.get a = some v →
    (inSamples 0x500 256 a → 16 ≤ v.toNat ∧ v.toNat ≤ 235) ∧ (inSamples 0x600 128 a → 16 ≤ v.toNat ∧ v.toNat ≤ 240)

/-- 42_roundtrip_control.md section 1 (an inference of the spec): RT is FWD, then acceptance and completion of INV. -/
def Obligations.RoundTripIsForwardThenInverse : Prop :=
  ∀ (s : State) (rt fw iv : Instr) (d : Nat),
    ((∃ b, rt = .rtL4 b ∧ fw = .fwdL4 b ∧ iv = .invL4 b) ∨ (rt = .rtL16 ∧ fw = .fwdL16 ∧ iv = .invL16) ∨
      (∃ p, rt = .rtC8 p ∧ fw = .fwdC8 p ∧ iv = .invC8 p)) →
    ∃ t1 t2 t, exec fw s = .next t1 ∧ exec iv (t1.accept (encode iv) d) = .next t2 ∧ exec rt s = .next t ∧
      t2.mem = t.mem ∧ t2.status = t.status

/-- 42_roundtrip_control.md section 1 (an inference of the spec): with ORIG = PRED every level is 0 and RECON is the
clamped original. -/
def Obligations.ZeroResidualReproduces : Prop :=
  ∀ s : State,
    (∀ (b : Fin 16) (o : Mat), lumaBlockIs s.mem 0x100 b o → lumaBlockIs s.mem 0x300 b o →
      ∃ t, exec (.rtL4 b) s = .next t ∧ lumaLevelsAre t.mem b (fun _ _ => 0) ∧
        lumaBlockIs t.mem 0x500 b (fun i j => clip3 16 235 (o i j))) ∧
    (∀ o : Nat → Nat → Int, planeIs s.mem 0x100 16 o → planeIs s.mem 0x300 16 o →
      ∃ t, exec .rtL16 s = .next t ∧ (∀ k, k < 256 → levelIs t.mem (0x800 + 2 * k) 0) ∧
        (∀ k, k < 16 → levelIs t.mem (0xA00 + 2 * k) 0) ∧ planeIs t.mem 0x500 16 (fun x y => clip3 16 235 (o x y))) ∧
    (∀ (pl : Plane) (o : Nat → Nat → Int), planeIs s.mem (chromaOrig pl) 8 o → planeIs s.mem (chromaPred pl) 8 o →
      ∃ t, exec (.rtC8 pl) s = .next t ∧ (∀ k, k < 64 → levelIs t.mem (chromaCoef pl + 2 * k) 0) ∧
        (∀ k, k < 4 → levelIs t.mem (chromaDc pl + 2 * k) 0) ∧
        planeIs t.mem (chromaRecon pl) 8 (fun x y => clip3 16 240 (o x y)))

/-! ### The bus -/

/-- 10_state.md R36, R39: ID and CONFIG read their values in every state after a reset edge, and a write leaves them; the
read of CMD too (part of R37). -/
def Obligations.IdCmdConfigRead : Prop :=
  ∀ (s : State) (draw : Word), s.resetSeen = true →
    busRead 0x000 draw s = { s with resp := some (.read .ok 0x51444354) } ∧
    busRead 0x004 draw s = { s with resp := some (.read .ok s.cmd) } ∧
    (∃ w : Word, busRead 0x00C draw s = { s with resp := some (.read .ok w) } ∧
      (w.extractLsb' 0 6).toNat = s.cfg.qpY ∧ (w.extractLsb' 8 6).toNat = s.cfg.qpC ∧
      w.toNat = s.cfg.qpC * 256 + s.cfg.qpY) ∧
    ∀ (w : Word) (d : Nat), busWrite 0x000 w d s = { s with resp := some (.write .ok) } ∧
      busWrite 0x00C w d s = { s with resp := some (.write .ok) }

/-- 10_state.md R41: the STATUS and IRQ_EN words as they are read after a reset edge, and `irq` as a function of their
bits. -/
def Obligations.IrqIsEnabledStatus : Prop :=
  ∀ (s : State) (draw : Word), s.resetSeen = true → ∃ st en : Word,
    busRead 0x008 draw s = { s with resp := some (.read .ok st) } ∧
    busRead 0x010 draw s = { s with resp := some (.read .ok en) } ∧
    st.extractLsb' 5 27 = 0 ∧ en.extractLsb' 2 30 = 0 ∧ st.getLsbD 0 = s.status.busy ∧
    s.irq = ((st.getLsbD 1 && en.getLsbD 0) || ((st.getLsbD 2 || st.getLsbD 3 || st.getLsbD 4) && en.getLsbD 1))

/-- 10_state.md R40: IRQ_EN takes bits 1:0 of the written word, busy or idle, and reads them back; it is 0 at reset. -/
def Obligations.IrqEnWriteReadsBack : Prop :=
  (∀ (s : State) (w draw : Word) (d : Nat), ∃ t, busWrite 0x010 w d s = t ∧
    t = { s with irqEn := ⟨w.getLsbD 0, w.getLsbD 1⟩, resp := some (.write .ok) } ∧
    (s.resetSeen = true → busRead 0x010 draw t = { t with resp := some (.read .ok (w &&& 3)) })) ∧
  ∀ draw : Word, (busRead 0x010 draw State.reset).resp = some (.read .ok 0)

/-- 10_state.md section 5 and R38: a STATUS write clears the bits written 1, keeps the others and BUSY, and reads back so. -/
def Obligations.StatusWriteOneClears : Prop :=
  ∀ (s : State) (w draw : Word) (d : Nat), s.resetSeen = true → ∃ (t : State) (old new : Word), busWrite 0x008 w d s = t ∧
    t = { s with status := t.status, resp := some (.write .ok) } ∧
    busRead 0x008 draw s = { s with resp := some (.read .ok old) } ∧
    busRead 0x008 draw t = { t with resp := some (.read .ok new) } ∧
    new = old &&& ~~~(w &&& 0x1E)

/-- 20_memory.md R63: writes to ID, CONFIG and NZ are ignored with `OK`. -/
def Obligations.ReadOnlyRegistersIgnoreWrites : Prop :=
  ∀ (s : State) (w : Word) (d : Nat) (a : Offset), a ∈ [(0x000 : Offset), 0x00C, 0x014] →
    busWrite a w d s = { s with resp := some (.write .ok) }

/-- 60_exceptions.md R204, R201, 20_memory.md R65: when an access raises ADDR_ERR, and that it then does nothing else. Any
other read leaves ADDR_ERR; any other write too, but for a STATUS write with a 1 in bit 3, which clears it (10_state.md R38). -/
def Obligations.AddressErrors : Prop :=
  ∀ (s : State) (a : Offset) (w draw : Word) (d : Nat),
    (a.toNat % 4 ≠ 0 ∨ ¬ mappedOffset a.toNat →
      busRead a draw s = { s with status := { s.status with addrErr := true }, resp := some (.read .err 0) }) ∧
    (a.toNat % 4 ≠ 0 ∨ ¬ mappedOffset a.toNat ∨ reconOffset a.toNat →
      busWrite a w d s = { s with status := { s.status with addrErr := true }, resp := some (.write .err) }) ∧
    (a.toNat % 4 = 0 ∧ mappedOffset a.toNat → ∃ x, busRead a draw s = { s with resp := some (.read .ok x) }) ∧
    (a.toNat % 4 = 0 ∧ mappedOffset a.toNat ∧ ¬ reconOffset a.toNat →
      ((busWrite a w d s).status.addrErr = true ↔ s.status.addrErr = true ∧ ¬ (a = 0x008 ∧ w.getLsbD 3 = true)))

/-- 60_exceptions.md R203: a CMD write while BUSY, or of an invalid word, raises CMD_ERR and changes nothing else. -/
def Obligations.CommandRejected : Prop :=
  ∀ (s : State) (w : Word) (d : Nat), s.status.busy = true ∨ (∀ i, decode w ≠ .ok i) →
    busWrite 0x004 w d s = { s with status := { s.status with cmdErr := true }, resp := some (.write .err) }

/-- 20_memory.md R70: acceptance, and rejection otherwise. `d` is the completion delay, the model's free value
(log entry 1). -/
def Obligations.CommandAccepted : Prop :=
  ∀ (s : State) (w : Word) (d : Nat),
    (∀ i : Instr, s.status.busy = false → decode w = .ok i →
      busWrite 0x004 w d s =
        { s with cmd := w, status := { s.status with busy := true, done := false }, countdown := d,
                 resp := some (.write .ok) }) ∧
    (s.status.busy = true ∨ (∀ i, decode w ≠ .ok i) →
      busWrite 0x004 w d s = { s with status := { s.status with cmdErr := true }, resp := some (.write .err) })

/-- 60_exceptions.md R205: buffer accesses while BUSY = 1. -/
def Obligations.BusyBufferAccess : Prop :=
  ∀ (s : State) (a : Offset) (w draw : Word) (d : Nat), s.status.busy = true → a.toNat % 4 = 0 →
    (writableOffset a.toNat →
      busWrite a w d s = { s with status := { s.status with wbusyErr := true }, resp := some (.write .err) }) ∧
    (0x100 ≤ a.toNat ∧ mappedOffset a.toNat → busRead a draw s = { s with resp := some (.read .ok draw) })

/-- 60_exceptions.md R206: an access raises at most one error, the first that applies of the six; an access to which none
applies answers `OK`. -/
def Obligations.OneErrorPerAccess : Prop :=
  ∀ (s : State) (a : Offset) (w draw : Word) (d : Nat), ∃ addr cmd wbusy : Prop,
    (addr = (a.toNat % 4 ≠ 0 ∨ ¬ mappedOffset a.toNat ∨ reconOffset a.toNat)) ∧
    (cmd = (a = 0x004 ∧ (s.status.busy = true ∨ ∀ i, decode w ≠ .ok i))) ∧
    (wbusy = (0x100 ≤ a.toNat ∧ s.status.busy = true)) ∧
    (addr → busWrite a w d s = { s with status := { s.status with addrErr := true }, resp := some (.write .err) }) ∧
    (¬ addr → cmd → busWrite a w d s = { s with status := { s.status with cmdErr := true }, resp := some (.write .err) }) ∧
    (¬ addr → ¬ cmd → wbusy →
      busWrite a w d s = { s with status := { s.status with wbusyErr := true }, resp := some (.write .err) }) ∧
    (¬ addr → ¬ cmd → ¬ wbusy → (busWrite a w d s).resp = some (.write .ok) ∧
      ((busWrite a w d s).status.cmdErr = true → s.status.cmdErr = true) ∧
      ((busWrite a w d s).status.addrErr = true → s.status.addrErr = true) ∧
      ((busWrite a w d s).status.wbusyErr = true → s.status.wbusyErr = true)) ∧
    (a.toNat % 4 ≠ 0 ∨ ¬ mappedOffset a.toNat →
      busRead a draw s = { s with status := { s.status with addrErr := true }, resp := some (.read .err 0) }) ∧
    (¬ (a.toNat % 4 ≠ 0 ∨ ¬ mappedOffset a.toNat) → ∃ x, busRead a draw s = { s with resp := some (.read .ok x) })

/-- 20_memory.md R61, R62: where the bytes and levels of a word written while idle go, that the word reads back whatever the
draw, and that no other byte changes. -/
def Obligations.BufferWordLayout : Prop :=
  ∀ (s : State) (a : Offset) (w : Word) (d : Nat), s.status.busy = false → a.toNat % 4 = 0 → writableOffset a.toNat →
    ∃ t, busWrite a w d s = t ∧ t = { s with mem := t.mem, resp := some (.write .ok) } ∧
      (∀ k, k < 4 → t.mem.get (a.toNat + k) = some (w.extractLsb' (8 * k) 8)) ∧
      (0x800 ≤ a.toNat → levelIs t.mem a.toNat (w.extractLsb' 0 16).toInt ∧
        levelIs t.mem (a.toNat + 2) (w.extractLsb' 16 16).toInt) ∧
      (∀ draw, busRead a draw t = { t with resp := some (.read .ok w) }) ∧
      (∀ x, x < a.toNat ∨ a.toNat + 4 ≤ x → t.mem.get x = s.mem.get x)

/-- 20_memory.md section 1 and 10_state.md section 4: an idle read returns each written sample, or level, of the word in its
lane, and the draw's bits in the lane of an unwritten one. -/
def Obligations.IdleReadLanes : Prop :=
  ∀ (s : State) (a : Offset) (draw : Word), s.status.busy = false → a.toNat % 4 = 0 →
    0x100 ≤ a.toNat → mappedOffset a.toNat →
    ∃ x : Word, busRead a draw s = { s with resp := some (.read .ok x) } ∧
      (a.toNat < 0x800 → ∀ k, k < 4 →
        x.extractLsb' (8 * k) 8 = (s.mem.get (a.toNat + k)).getD (draw.extractLsb' (8 * k) 8)) ∧
      (0x800 ≤ a.toNat → ∀ k, k < 2 →
        x.extractLsb' (16 * k) 16 = (s.mem.getLevel (a.toNat + 2 * k)).getD (draw.extractLsb' (16 * k) 16))

/-! ### NZ -/

/-- 10_state.md R42, R44, R45: every field of NZ, idle, where the levels it is computed from are written. -/
def Obligations.NzFields : Prop :=
  ∀ (s : State) (draw : Word), s.status.busy = false → s.resetSeen = true → ∃ nz : Word,
    busRead 0x014 draw s = { s with resp := some (.read .ok nz) } ∧
    nz.extractLsb' 21 3 = 0 ∧ nz.extractLsb' 30 2 = 0 ∧
    (∀ (b : Fin 16) (c : Mat), lumaLevelsAre s.mem b c →
      (nz.getLsbD b = true ↔ ∃ u v, u < 4 ∧ v < 4 ∧ c u v ≠ 0)) ∧
    (∀ dc, dcLevelsAre s.mem 0xA00 4 dc → (nz.getLsbD 16 = true ↔ ∃ m n, m < 4 ∧ n < 4 ∧ dc m n ≠ 0)) ∧
    (∀ dc, dcLevelsAre s.mem 0xAC0 2 dc → (nz.getLsbD 17 = true ↔ ∃ m n, m < 2 ∧ n < 2 ∧ dc m n ≠ 0)) ∧
    (∀ c, acLevelsAre s.mem 0xA40 4 c →
      (nz.getLsbD 18 = true ↔ ∃ b u v, b < 4 ∧ u < 4 ∧ v < 4 ∧ ¬ (u = 0 ∧ v = 0) ∧ c b u v ≠ 0)) ∧
    (∀ dc, dcLevelsAre s.mem 0xB80 2 dc → (nz.getLsbD 19 = true ↔ ∃ m n, m < 2 ∧ n < 2 ∧ dc m n ≠ 0)) ∧
    (∀ c, acLevelsAre s.mem 0xB00 4 c →
      (nz.getLsbD 20 = true ↔ ∃ b u v, b < 4 ∧ u < 4 ∧ v < 4 ∧ ¬ (u = 0 ∧ v = 0) ∧ c b u v ≠ 0)) ∧
    (∀ q, q < 4 → ∀ b0, b0 = 8 * (q / 2) + 2 * (q % 2) →
      (∀ k, k ∈ [0, 1, 4, 5] → ∀ j, j < 16 → (s.mem.getLevel (0x800 + 32 * (b0 + k) + 2 * j)).isSome = true) →
      nz.getLsbD (24 + q) =
        (nz.getLsbD b0 || nz.getLsbD (b0 + 1) || nz.getLsbD (b0 + 4) || nz.getLsbD (b0 + 5))) ∧
    ((∀ pl : Plane, (∀ k, k < 64 → (s.mem.getLevel (chromaCoef pl + 2 * k)).isSome = true) ∧
        (∀ k, k < 4 → (s.mem.getLevel (chromaDc pl + 2 * k)).isSome = true)) →
      (nz.extractLsb' 28 2).toNat =
        if nz.getLsbD 18 || nz.getLsbD 20 then 2 else if nz.getLsbD 17 || nz.getLsbD 19 then 1 else 0)

/-- 10_state.md section 5 (R43 a, b): a field is the draw's bits while BUSY = 1 or if an element it is computed from is
unwritten. -/
def Obligations.NzFieldsDraw : Prop :=
  ∀ (s : State) (draw : Word) (k : Nat), k < 32 → nzReserved k = false →
    (s.status.busy = true ∨ ∃ a, nzInputs k a ∧ s.mem.get a = none) →
    ∃ nz : Word, busRead 0x014 draw s = { s with resp := some (.read .ok nz) } ∧ nz.getLsbD k = draw.getLsbD k

/-! ### Steps, reset and whole-machine rules -/

/-- When the engine is the agent that moves and CMD decodes to `i`, a step is `exec i`, after the level of `rst` used up at
this edge (20_memory.md section 3). -/
def Obligations.StepRunsTheLatchedCommand : Prop :=
  ∀ (s : State) (i : Instr), s.rst.headD false = false → s.status.busy = true → s.countdown = 0 → decode s.cmd = .ok i →
    step s = exec i { s with rst := s.rst.tail }

/-- A host turn performs the transaction of the script's statement and moves to the statement the rule names
(30_encoding.md R96). The countdown, the index of free values and its delay are the model's (log entries 1, 3), and so is
that past the script's end a turn passes without an access (log entries 1, 10). -/
def Obligations.HostTurnPerformsStatement : Prop :=
  ∀ s : State, s.rst.headD false = false → (s.status.busy = false ∨ s.countdown ≠ 0) →
    ∃ u : State, u = { s with rst := s.rst.tail, countdown := s.countdown - 1 } ∧
      (∀ off w, s.script[s.pos]? = some (.wr off w) →
        step s = .next { busWrite off w (Config.drawDelay s.draws) u with draws := s.draws + 1, pos := s.pos + 1 }) ∧
      (∀ off, s.script[s.pos]? = some (.rd off) →
        step s = .next { busRead off (Config.drawWord s.draws) u with draws := s.draws + 1, pos := s.pos + 1 }) ∧
      (∀ off mask value, s.script[s.pos]? = some (.poll off mask value) → ∃ t x code, step s = .next t ∧
        t = { busRead off (Config.drawWord s.draws) u with draws := s.draws + 1, pos := t.pos } ∧
        t.resp = some (.read code x) ∧ t.pos = if x &&& mask = value then s.pos + 1 else s.pos) ∧
      (∀ off mask value target, s.script[s.pos]? = some (.bne off mask value target) → ∃ t x code, step s = .next t ∧
        t = { busRead off (Config.drawWord s.draws) u with draws := s.draws + 1, pos := t.pos } ∧
        t.resp = some (.read code x) ∧ t.pos = if x &&& mask = value then s.pos + 1 else target) ∧
      (s.script[s.pos]? = none → step s = .next u)

/-- 70_reset_and_hazards.md R230: a reset edge takes every state to the state of 10_state.md R48; the instance's
configuration stays, and the host's side is not acknowledged. -/
def Obligations.ResetEdgeResets : Prop :=
  ∀ s : State, s.rst.headD false = true → ∃ t, step s = .next t ∧ AtReset t ∧ t.resp = none ∧
    t.cfg = s.cfg ∧ t.script = s.script ∧ t.pos = s.pos ∧ t.rst = s.rst.tail

/-- 10_state.md R48 as the bus shows it: the registers after reset, and NZ a draw in every field. -/
def Obligations.RegistersAfterReset : Prop :=
  AtReset State.reset ∧
  ∀ (s : State) (draw : Word), AtReset s →
    (busRead 0x000 draw s).resp = some (.read .ok 0x51444354) ∧ (busRead 0x004 draw s).resp = some (.read .ok 0) ∧
    (busRead 0x008 draw s).resp = some (.read .ok 0) ∧
    (busRead 0x00C draw s).resp = some (.read .ok (BitVec.ofNat 32 (s.cfg.qpC * 256 + s.cfg.qpY))) ∧
    (busRead 0x010 draw s).resp = some (.read .ok 0) ∧
    (busRead 0x014 draw s).resp = some (.read .ok (draw &&& 0x3F1FFFFF)) ∧ s.irq = false ∧ s.status.busy = false

/-- The invariant holds at reset. -/
def Obligations.InvariantAtReset : Prop := State.reset.Inv

/-- HEADLINE: every step keeps the invariant: canonical memory, only buffer elements written, whole levels, a decodable
latch, DONE low while a command is in flight, a reset edge seen. -/
def Obligations.StepKeepsInvariant : Prop := ∀ s t : State, s.Inv → step s = .next t → t.Inv

/-- 60_exceptions.md R200 over steps: from every state of the invariant every step answers a next state. -/
def Obligations.NoStepStops : Prop := ∀ s : State, s.Inv → ∃ t, step s = .next t

/-- 20_memory.md R71, R68: while a command is in flight and the engine has not moved, no host turn changes the latch, a
buffer, BUSY or the configuration. -/
def Obligations.HostCannotDisturbCommandInFlight : Prop :=
  ∀ s t : State, s.status.busy = true → s.countdown ≠ 0 → s.rst.headD false = false → step s = .next t →
    t.cmd = s.cmd ∧ t.mem = s.mem ∧ t.status.busy = true ∧ t.cfg = s.cfg ∧ t.countdown = s.countdown - 1

/-- 20_memory.md R72, R73: whatever the host's script does, a command in flight completes after its countdown,
with the result it has on the buffers as they were at the start, and DONE is 1. -/
def Obligations.CommandInFlightCompletes : Prop :=
  ∀ (s : State) (i : Instr), s.status.busy = true → decode s.cmd = .ok i →
    (∀ k, k ≤ s.countdown → s.rst.getD k false = false) →
    ∃ t t', Sys2Proof.core.run (s.countdown + 1) s = .next t ∧ exec i s = .next t' ∧ t.mem = t'.mem ∧ t.cmd = s.cmd ∧
      t.status.busy = false ∧ t.status.done = true

/-- 10_state.md R38, the columns 'set by' and 'cleared by': what changes each STATUS bit at a step with `rst = 0`. -/
def Obligations.StatusBitLifecycle : Prop :=
  ∀ s t : State, s.rst.headD false = false → step s = .next t →
    ((s.status.busy = false ∧ t.status.busy = true) →
      ∃ w i, s.script[s.pos]? = some (.wr 0x004 w) ∧ decode w = .ok i ∧ t.cmd = w) ∧
    ((s.status.busy = true ∧ t.status.busy = false) → s.countdown = 0 ∧ t.status.done = true) ∧
    ((s.status.done = false ∧ t.status.done = true) → s.status.busy = true ∧ s.countdown = 0) ∧
    ((s.status.done = true ∧ t.status.done = false) →
      (∃ w, s.script[s.pos]? = some (.wr 0x008 w) ∧ w.getLsbD 1 = true) ∨
      ∃ w i, s.script[s.pos]? = some (.wr 0x004 w) ∧ decode w = .ok i ∧ s.status.busy = false) ∧
    ((s.status.cmdErr = false ∧ t.status.cmdErr = true) → ∃ w, s.script[s.pos]? = some (.wr 0x004 w) ∧
      (s.status.busy = true ∨ ∀ i, decode w ≠ .ok i)) ∧
    ((s.status.cmdErr = true ∧ t.status.cmdErr = false) →
      ∃ w, s.script[s.pos]? = some (.wr 0x008 w) ∧ w.getLsbD 2 = true) ∧
    ((s.status.addrErr = false ∧ t.status.addrErr = true) → ∃ st, s.script[s.pos]? = some st ∧
      match stmtTxn st with
      | .read off => off.toNat % 4 ≠ 0 ∨ ¬ mappedOffset off.toNat
      | .write off _ => off.toNat % 4 ≠ 0 ∨ ¬ mappedOffset off.toNat ∨ reconOffset off.toNat) ∧
    ((s.status.addrErr = true ∧ t.status.addrErr = false) →
      ∃ w, s.script[s.pos]? = some (.wr 0x008 w) ∧ w.getLsbD 3 = true) ∧
    ((s.status.wbusyErr = false ∧ t.status.wbusyErr = true) →
      ∃ off w, s.script[s.pos]? = some (.wr off w) ∧ writableOffset off.toNat ∧ s.status.busy = true) ∧
    ((s.status.wbusyErr = true ∧ t.status.wbusyErr = false) →
      ∃ w, s.script[s.pos]? = some (.wr 0x008 w) ∧ w.getLsbD 4 = true)

/-- 10_state.md R24 to R30: ORIG and PRED change only by host bus writes, RECON only by the engine, the coefficient buffers
by an idle host write of the word or at the completion of a command that writes the byte. -/
def Obligations.WhoWritesWhichBuffer : Prop :=
  ∀ (s t : State) (a : Nat), s.rst.headD false = false → step s = .next t → t.mem.get a ≠ s.mem.get a →
    (a < 0x500 → ∃ off w, s.script[s.pos]? = some (.wr off w) ∧ s.status.busy = false ∧
      off.toNat ≤ a ∧ a < off.toNat + 4) ∧
    (reconOffset a → s.status.busy = true ∧ s.countdown = 0 ∧ ∃ i, decode s.cmd = .ok i ∧ writes i a) ∧
    (0x800 ≤ a → (∃ off w, s.script[s.pos]? = some (.wr off w) ∧ s.status.busy = false ∧
        off.toNat ≤ a ∧ a < off.toNat + 4) ∨
      (s.status.busy = true ∧ s.countdown = 0 ∧ ∃ i, decode s.cmd = .ok i ∧ writes i a))

/-- 10_state.md R23: no step, a reset edge included, changes the instance's parameters. -/
def Obligations.ParametersAreFixed : Prop := ∀ s t : State, step s = .next t → t.cfg = s.cfg

/-- The model's only stop (log entry 7): the engine moves and CMD holds no command word. -/
def Obligations.OnlyAnUndecodableLatchStops : Prop :=
  ∀ s : State, (∃ r, step s = .refused r) ↔
    (s.rst.headD false = false ∧ s.status.busy = true ∧ s.countdown = 0 ∧ ∀ i, decode s.cmd ≠ .ok i)

/-- 41_inverse.md R149 (which the spec marks as derived): where the sum lies in the clamp range, INV_L4's and INV_C8's sample
is what a decoder that clips to [0, 255] computes. -/
def Obligations.DecoderAgreesInsideRange : Prop :=
  ∀ pred r : Int, (16 ≤ pred + r → pred + r ≤ 235 → clampedSample .y pred r = clip3 0 255 (pred + r)) ∧
    ∀ pl : Plane, 16 ≤ pred + r → pred + r ≤ 240 → clampedSample (planeComp pl) pred r = clip3 0 255 (pred + r)

/-- 70_reset_and_hazards.md R232 and U10, an unspecified register read as a draw (log entry 8): before the first reset edge
every register reads as the draw; a machine has seen a reset edge exactly from such an edge on, and the first one after
power-on takes the state of 10_state.md R48. -/
def Obligations.RegistersBeforeReset : Prop :=
  (∀ (s : State) (draw : Word), s.resetSeen = false →
    ∀ a ∈ [(0x000 : Offset), 0x004, 0x008, 0x00C, 0x010, 0x014], busRead a draw s = { s with resp := some (.read .ok draw) }) ∧
  (∀ s t : State, step s = .next t → (t.resetSeen = true ↔ s.resetSeen = true ∨ s.rst.headD false = true)) ∧
  (State.powerOn.resetSeen = false ∧ ∀ a, State.powerOn.mem.get a = none) ∧
  (∀ r : List Bool, ∃ t, step { State.powerOn with rst := true :: r } = .next t ∧ AtReset t ∧ t.rst = r)

/-- 30_encoding.md R98: the encoding of a script as a run issues it, one entry per host turn in issue order, so one per
iteration of a `POLL` or `BNE`; of a script of `WR` and `RD` alone it follows the written order. That a reset edge issues
nothing is log entry 8. -/
def Obligations.IssuedTransactions : Prop :=
  (∀ s, issued 0 s = []) ∧
  (∀ (n : Nat) (s : State) (st : Stmt), s.rst.headD false = false → (s.status.busy = false ∨ s.countdown ≠ 0) →
    s.script[s.pos]? = some st → ∃ t x, step s = .next t ∧ issued (n + 1) s = x :: issued n t ∧
      match st with
      | .wr off data => x = .write off data
      | .rd off | .poll off _ _ | .bne off _ _ _ => x = .read off) ∧
  (∀ (n : Nat) (s t : State), step s = .next t →
    (s.rst.headD false = true ∨ (s.status.busy = true ∧ s.countdown = 0) ∨ s.script[s.pos]? = none) →
    issued (n + 1) s = issued n t) ∧
  (∀ (n : Nat) (s : State), (∀ st ∈ s.script, (∃ off w, st = .wr off w) ∨ ∃ off, st = .rd off) →
    ∃ k, issued n s = ((s.script.drop s.pos).take k).map stmtTxn)
end

