-- ==== Sys2Proof/Laws/Arith.lean ====
section
/-! SUPPORT. The arithmetic of the two stages: floor shifts, sign-magnitude quotients, what a transform depends on, and the
ranges that make the stores of levels and samples exact. -/

namespace Sys2Proof.Machine

/-! ### Shifts and the clamp -/

theorem shr_mono {a b : Int} (h : a ≤ b) (n : Nat) : shr a n ≤ shr b n := Int.ediv_le_ediv (by positivity) h

theorem shr_nonneg {a : Int} (h : 0 ≤ a) (n : Nat) : 0 ≤ shr a n := Int.ediv_nonneg h (by positivity)

theorem shr_eq_zero {a : Int} (h : 0 ≤ a) (n : Nat) : shr a n = 0 ↔ a < 2 ^ n := by
  unfold shr
  have hp : (0 : Int) < 2 ^ n := by positivity
  constructor
  · intro h1
    by_contra h2
    have := (Int.le_ediv_iff_mul_le (a := 1) (b := a) hp).mpr (by omega)
    omega
  · intro h1; exact Int.ediv_eq_zero_of_lt h h1

theorem clip3_bounds {lo hi : Int} (h : lo ≤ hi) (v : Int) : lo ≤ clip3 lo hi v ∧ clip3 lo hi v ≤ hi := by
  unfold clip3; split
  · omega
  · split <;> omega

/-! ### Quotients of a magnitude with the sign put back (40_forward.md R114, R115) -/

/-- `sign(w) * ((abs(w) * m + f) >> n)`: the common form of the two quantisers. -/
def signQuot (w : Int) (m f n : Nat) : Int := w.sign * shr (w.natAbs * m + f) n

theorem quant_eq (w : Int) (qp u v : Nat) : quant w qp u v = signQuot w (mf (qp % 6) (cls u v)) (fIntra qp) (qbits qp) := rfl

theorem quantDC_eq (w : Int) (qp : Nat) :
    quantDC w qp = signQuot w (mf (qp % 6) 0) (2 * fIntra qp) (qbits qp + 1) := by
  unfold quantDC signQuot
  simp only [Nat.cast_mul, Nat.cast_ofNat]

@[simp] theorem signQuot_zero (m f n : Nat) : signQuot 0 m f n = 0 := by simp [signQuot]

theorem signQuot_neg (w : Int) (m f n : Nat) : signQuot (-w) m f n = -signQuot w m f n := by
  unfold signQuot; rw [Int.natAbs_neg, Int.sign_neg]; ring

theorem signQuot_nonneg {w : Int} (h : 0 ≤ w) (m f n : Nat) : 0 ≤ signQuot w m f n := by
  unfold signQuot
  rcases eq_or_lt_of_le h with rfl | h1
  · simp
  · rw [Int.sign_eq_one_of_pos h1, one_mul]; exact shr_nonneg (by positivity) n

/-- The magnitude of a quotient grows with the magnitude of its argument. -/
theorem signQuot_abs_le {w : Int} {k : Nat} (hw : w.natAbs ≤ k) (m f n : Nat) :
    (signQuot w m f n).natAbs ≤ (k * m + f) / 2 ^ n := by
  have key : (signQuot w.natAbs m f n).natAbs ≤ (w.natAbs * m + f) / 2 ^ n := by
    unfold signQuot
    rcases Nat.eq_zero_or_pos w.natAbs with h0 | h0
    · rw [h0]; simp
    · rw [Int.sign_eq_one_of_pos (by omega), one_mul]
      have : shr (((w.natAbs : Int).natAbs : Int) * m + f) n = (((w.natAbs * m + f) / 2 ^ n : Nat) : Int) := by
        unfold shr; simp
      rw [this, Int.natAbs_natCast]
  have hle : (w.natAbs * m + f) / 2 ^ n ≤ (k * m + f) / 2 ^ n :=
    Nat.div_le_div_right (by have := Nat.mul_le_mul_right m hw; omega)
  rcases Int.natAbs_eq w with h | h
  · rw [h]; exact key.trans hle
  · rw [h, signQuot_neg, Int.natAbs_neg]; exact key.trans hle

theorem fIntra_lt (qp : Nat) : fIntra qp < 2 ^ qbits qp := by
  unfold fIntra
  have : 0 < 2 ^ qbits qp := by positivity
  omega

/-! ### A transform depends on the block's entries alone -/

theorem coreTransform_congr {x y : Mat} (h : ∀ i j, i < 4 → j < 4 → x i j = y i j) : coreTransform x = coreTransform y := by
  funext u v
  simp [coreTransform, sum4, h]

theorem hdh_congr {x y : Mat} (h : ∀ i j, i < 4 → j < 4 → x i j = y i j) : hdh x = hdh y := by
  funext u v
  simp [hdh, sum4, h]

theorem ada_congr {x y : Mat} (h : ∀ i j, i < 2 → j < 2 → x i j = y i j) : ada x = ada y := by
  funext u v
  simp [ada, sum2, h]

theorem itrans_congr {x y : Mat} (h : ∀ i j, i < 4 → j < 4 → x i j = y i j) : itrans x = itrans y := by
  have hr : ∀ k, k < 4 → ∀ l, rowPass x k l = rowPass y k l := fun k hk l => by
    simp only [rowPass, h k 0 hk (by omega), h k 1 hk (by omega), h k 2 hk (by omega), h k 3 hk (by omega)]
  funext i j
  simp only [itrans, columnPass, hr 0 (by omega), hr 1 (by omega), hr 2 (by omega), hr 3 (by omega)]

/-! ### Ranges (40_forward.md R121) -/

/-- Forward core transform of a residual of magnitude at most 255. -/
theorem coreTransform_bound {x : Mat} (hx : ∀ i j, i < 4 → j < 4 → (x i j).natAbs ≤ 255) {u v : Nat} (hu : u < 4)
    (hv : v < 4) :
    (coreTransform x u v).natAbs ≤ 255 * ((if u % 2 = 0 then 4 else 6) * (if v % 2 = 0 then 4 else 6)) := by
  have hb : ∀ i j, i < 4 → j < 4 → -255 ≤ x i j ∧ x i j ≤ 255 := fun i j hi hj => by have := hx i j hi hj; omega
  have a00 := hb 0 0; have a01 := hb 0 1; have a02 := hb 0 2; have a03 := hb 0 3
  have a10 := hb 1 0; have a11 := hb 1 1; have a12 := hb 1 2; have a13 := hb 1 3
  have a20 := hb 2 0; have a21 := hb 2 1; have a22 := hb 2 2; have a23 := hb 2 3
  have a30 := hb 3 0; have a31 := hb 3 1; have a32 := hb 3 2; have a33 := hb 3 3
  simp only [Nat.zero_lt_succ, Nat.reduceLT, forall_const] at a00 a01 a02 a03 a10 a11 a12 a13 a20 a21 a22 a23 a30 a31 a32 a33
  clear hx hb
  interval_cases u <;> interval_cases v <;> simp [coreTransform, sum4, cf, table] <;> omega

/-- Forward luma DC transform of DC terms of magnitude at most 4080. -/
theorem lumaDcForward_bound {d : Mat} (hx : ∀ i j, i < 4 → j < 4 → (d i j).natAbs ≤ 4080) {m n : Nat} (hm : m < 4)
    (hn : n < 4) : (lumaDcForward d m n).natAbs ≤ 32640 := by
  have hb : ∀ i j, i < 4 → j < 4 → -4080 ≤ d i j ∧ d i j ≤ 4080 := fun i j hi hj => by have := hx i j hi hj; omega
  have a00 := hb 0 0; have a01 := hb 0 1; have a02 := hb 0 2; have a03 := hb 0 3
  have a10 := hb 1 0; have a11 := hb 1 1; have a12 := hb 1 2; have a13 := hb 1 3
  have a20 := hb 2 0; have a21 := hb 2 1; have a22 := hb 2 2; have a23 := hb 2 3
  have a30 := hb 3 0; have a31 := hb 3 1; have a32 := hb 3 2; have a33 := hb 3 3
  simp only [Nat.zero_lt_succ, Nat.reduceLT, forall_const] at a00 a01 a02 a03 a10 a11 a12 a13 a20 a21 a22 a23 a30 a31 a32 a33
  clear hx hb
  interval_cases m <;> interval_cases n <;> simp [lumaDcForward, shr, hdh, sum4, hadamard4, table] <;> omega

/-- Forward chroma DC transform of DC terms of magnitude at most 4080. -/
theorem chromaDcForward_bound {d : Mat} (hx : ∀ i j, i < 2 → j < 2 → (d i j).natAbs ≤ 4080) {m n : Nat} (hm : m < 2)
    (hn : n < 2) : (chromaDcForward d m n).natAbs ≤ 16320 := by
  have a00 := hx 0 0 (by omega) (by omega); have a01 := hx 0 1 (by omega) (by omega)
  have a10 := hx 1 0 (by omega) (by omega); have a11 := hx 1 1 (by omega) (by omega)
  clear hx
  interval_cases m <;> interval_cases n <;> simp [chromaDcForward, ada, sum2, hadamard2, table] <;> omega

/-- A level of magnitude below 2^15 is stored exactly (00_scope.md R6). -/
theorem toInt_toLevel {v : Int} (h : v.natAbs < 32768) : (toLevel v).toInt = v := by
  unfold toLevel
  rw [BitVec.toInt_ofInt, Int.bmod_eq_of_le_mul_two] <;> omega

/-- A value 0..255 is stored exactly as a sample (00_scope.md R6). -/
theorem toNat_toSample {v : Int} (h0 : 0 ≤ v) (h1 : v ≤ 255) : ((toSample v).toNat : Int) = v := by
  unfold toSample
  rw [BitVec.toNat_ofInt]
  omega

end Sys2Proof.Machine
end

