-- ==== Sys2Proof/Laws/Memory.lean ====
section
/-! SUPPORT. The laws of the buffers' memory: what a read returns after a write, the canonical form, and extensionality. -/

namespace Sys2Proof.Machine

@[simp] theorem Memory.get_nil (a : Nat) : Memory.get [] a = none := rfl

theorem Memory.get_cons (c : Host.Cell) (m : Memory) (a : Nat) :
    Memory.get (c :: m) a = if c.1 = a then some c.2 else Memory.get m a := by
  by_cases h : c.1 = a
  · simp [Memory.get, h]
  · have h' : Nat.beq c.1 a = false := Bool.eq_false_iff.mpr fun h2 => h (Nat.eq_of_beq_eq_true h2)
    simp [Memory.get, h, h']

theorem Memory.get_append (m₁ m₂ : Memory) (a : Nat) :
    Memory.get (m₁ ++ m₂) a = (Memory.get m₁ a).or (Memory.get m₂ a) := by
  induction m₁ with
  | nil => simp
  | cons c m ih =>
    simp only [List.cons_append, Memory.get_cons, ih]
    split <;> simp

/-- Filtering by address leaves the reads of the kept addresses and empties the others. -/
theorem Memory.get_filter (p : Nat → Bool) (m : Memory) (a : Nat) :
    Memory.get (m.filter fun c => p c.1) a = if p a then Memory.get m a else none := by
  induction m with
  | nil => simp
  | cons c m ih =>
    by_cases hc : p c.1
    · simp only [List.filter_cons, hc, if_true, Memory.get_cons, ih]
      by_cases h : c.1 = a
      · subst h; simp [hc]
      · simp [h]
    · simp only [List.filter_cons, hc, Memory.get_cons]
      rw [if_neg (by simp), ih]
      by_cases h : c.1 = a
      · subst h; simp [hc]
      · simp [h]

theorem Memory.cells_succ (base n : Nat) (f : Nat → Option Byte) :
    Memory.cells base (n + 1) f = Memory.cells base n f ++ ((f n).map fun v => (base + n, v)).toList := by
  simp only [Memory.cells, List.range_succ, List.filterMap_append]
  cases h : f n <;> simp [h]

theorem Memory.get_cells (base n : Nat) (f : Nat → Option Byte) (a : Nat) :
    Memory.get (Memory.cells base n f) a = if base ≤ a ∧ a < base + n then f (a - base) else none := by
  induction n with
  | zero => simp [Memory.cells]
  | succ n ih =>
    rw [Memory.cells_succ, Memory.get_append, ih]
    by_cases h1 : base ≤ a ∧ a < base + n
    · have h2 : base ≤ a ∧ a < base + (n + 1) := by omega
      have h3 : base + n ≠ a := by omega
      rw [if_pos h1, if_pos h2]
      cases f n <;> simp [Memory.get_cons, h3]
    · rw [if_neg h1]
      by_cases h2 : a = base + n
      · subst h2
        rw [if_pos (by omega)]
        cases h : f n <;> simp [Memory.get_cons, h]
      · rw [if_neg (by omega)]
        have h3 : base + n ≠ a := by omega
        cases f n <;> simp [Memory.get_cons, h3]

/-- READ AFTER WRITE: an address written reads as what was written, every other address as before. -/
theorem Memory.get_fill (m : Memory) (base n : Nat) (f : Nat → Option Byte) (a : Nat) :
    (m.fill base n f).get a = if base ≤ a ∧ a < base + n then f (a - base) else m.get a := by
  unfold Memory.fill
  rw [Memory.get_append, Memory.get_append, Memory.get_cells,
    Memory.get_filter (fun x => Nat.blt x base), Memory.get_filter (fun x => Nat.ble (base + n) x)]
  have hblt : Nat.blt a base = decide (a < base) := by
    rw [Bool.eq_iff_iff]; simp [Nat.blt_eq]
  have hble : Nat.ble (base + n) a = decide (base + n ≤ a) := by
    rw [Bool.eq_iff_iff]; simp
  simp only [hblt, hble, decide_eq_true_eq]
  rcases Nat.lt_or_ge a base with h1 | h1
  · rw [if_pos h1, if_neg (by omega), if_neg (by omega), if_neg (by omega)]; simp
  · rw [if_neg (by omega)]
    rcases Nat.lt_or_ge a (base + n) with h2 | h2
    · rw [if_pos ⟨h1, h2⟩, if_neg (by omega), if_pos ⟨h1, h2⟩]; simp
    · rw [if_neg (by omega), if_pos h2, if_neg (by omega)]; simp

theorem Memory.get_fill_in (m : Memory) (base n : Nat) (f : Nat → Option Byte) {k : Nat} (h : k < n) :
    (m.fill base n f).get (base + k) = f k := by
  rw [Memory.get_fill, if_pos (by omega)]; congr 1; omega

theorem Memory.get_fill_out (m : Memory) (base n : Nat) (f : Nat → Option Byte) {a : Nat}
    (h : a < base ∨ base + n ≤ a) : (m.fill base n f).get a = m.get a := by
  rw [Memory.get_fill, if_neg (by omega)]

theorem Memory.cells_wf (base n : Nat) (f : Nat → Option Byte) : Memory.wf (Memory.cells base n f) := by
  unfold Memory.wf Memory.cells
  rw [List.pairwise_filterMap]
  refine List.pairwise_lt_range.imp ?_
  intro i j hij b hb b' hb'
  cases hi : f i <;> cases hj : f j <;> simp_all
  subst hb; subst hb'; simp; omega

theorem Memory.mem_cells {base n : Nat} {f : Nat → Option Byte} {c : Host.Cell} (h : c ∈ Memory.cells base n f) :
    base ≤ c.1 ∧ c.1 < base + n := by
  simp only [Memory.cells, List.mem_filterMap, List.mem_range] at h
  obtain ⟨k, hk, hc⟩ := h
  cases hf : f k <;> simp_all
  subst hc; simp; omega

/-- Every write keeps the canonical form. -/
theorem Memory.fill_wf {m : Memory} (h : m.wf) (base n : Nat) (f : Nat → Option Byte) : (m.fill base n f).wf := by
  unfold Memory.wf Memory.fill at *
  rw [List.pairwise_append, List.pairwise_append]
  refine ⟨h.filter _, ⟨Memory.cells_wf base n f, h.filter _, ?_⟩, ?_⟩
  · intro a ha b hb
    have h1 := Memory.mem_cells ha
    have h2 := (List.mem_filter.mp hb).2
    simp at h2; omega
  · intro a ha b hb
    have h1 := (List.mem_filter.mp ha).2
    simp only [Nat.blt_eq] at h1
    rcases List.mem_append.mp hb with h2 | h2
    · have := Memory.mem_cells h2; omega
    · have h3 := (List.mem_filter.mp h2).2
      simp at h3; omega

theorem Memory.get_eq_none_of_lt {m : Memory} {a : Nat} (h : ∀ c ∈ m, a < c.1) : m.get a = none := by
  induction m with
  | nil => rfl
  | cons c m ih =>
    have h1 := h c (by simp)
    rw [Memory.get_cons, if_neg (by omega)]
    exact ih fun d hd => h d (by simp [hd])

/-- Equal memories are equal data: two memories in canonical form that read the same are the same list. -/
theorem Memory.ext_of_wf {m₁ m₂ : Memory} (h₁ : m₁.wf) (h₂ : m₂.wf) (h : ∀ a, m₁.get a = m₂.get a) : m₁ = m₂ := by
  induction m₁ generalizing m₂ with
  | nil =>
    cases m₂ with
    | nil => rfl
    | cons c m => have := h c.1; simp [Memory.get_cons] at this
  | cons c m ih =>
    cases m₂ with
    | nil => have := h c.1; simp [Memory.get_cons] at this
    | cons d m' =>
      obtain ⟨hc, hm⟩ := List.pairwise_cons.mp h₁
      obtain ⟨hd, hm'⟩ := List.pairwise_cons.mp h₂
      have hcd : c.1 = d.1 := by
        rcases Nat.lt_trichotomy c.1 d.1 with hlt | heq | hgt
        · have h3 := h c.1
          rw [Memory.get_cons, if_pos rfl, Memory.get_eq_none_of_lt] at h3
          · simp at h3
          · intro e he
            rcases List.mem_cons.mp he with rfl | he
            · exact hlt
            · have := hd e he; omega
        · exact heq
        · have h3 := h d.1
          rw [Memory.get_cons (d), if_pos rfl, Memory.get_eq_none_of_lt] at h3
          · simp at h3
          · intro e he
            rcases List.mem_cons.mp he with rfl | he
            · exact hgt
            · have := hc e he; omega
      have h2 : c.2 = d.2 := by
        have h3 := h c.1
        rw [Memory.get_cons, Memory.get_cons, if_pos rfl, if_pos hcd.symm] at h3
        exact Option.some.inj h3
      have hcd' : c = d := Prod.ext hcd h2
      subst hcd'
      rw [ih hm hm' ?_]
      intro a
      have h3 := h a
      rw [Memory.get_cons, Memory.get_cons] at h3
      by_cases ha : c.1 = a
      · rw [Memory.get_eq_none_of_lt, Memory.get_eq_none_of_lt]
        · intro e he; have := hd e he; omega
        · intro e he; have := hc e he; omega
      · rwa [if_neg ha, if_neg ha] at h3

/-! ### Levels -/

/-- The two bytes of a level give the level back (20_memory.md R62). -/
theorem levelByte_append (v : Level) : levelByte v 1 ++ levelByte v 0 = v := by
  unfold levelByte
  ext i hi
  simp only [BitVec.getElem_append, BitVec.getElem_extractLsb', Nat.mul_zero, Nat.mul_one, Nat.zero_add]
  split
  · rw [BitVec.getLsbD_eq_getElem hi]
  · rw [show 8 + (i - 8) = i from by omega, BitVec.getLsbD_eq_getElem hi]

/-- A level written reads back. -/
theorem Memory.getLevel_fillLevels_in (m : Memory) (base n : Nat) (f : Nat → Option Level) {k : Nat} (h : k < n) :
    (m.fillLevels base n f).getLevel (base + 2 * k) = f k := by
  unfold Memory.getLevel Memory.fillLevels
  rw [Memory.get_fill_in _ _ _ _ (by omega), show base + 2 * k + 1 = base + (2 * k + 1) from by omega,
    Memory.get_fill_in _ _ _ _ (by omega)]
  rw [show 2 * k / 2 = k from by omega, show (2 * k + 1) / 2 = k from by omega,
    show 2 * k % 2 = 0 from by omega, show (2 * k + 1) % 2 = 1 from by omega]
  cases f k with
  | none => rfl
  | some v => simp [levelByte_append]

theorem Memory.get_fillLevels_out (m : Memory) (base n : Nat) (f : Nat → Option Level) {a : Nat}
    (h : a < base ∨ base + 2 * n ≤ a) : (m.fillLevels base n f).get a = m.get a :=
  Memory.get_fill_out _ _ _ _ h

theorem Memory.getLevel_fillLevels_out (m : Memory) (base n : Nat) (f : Nat → Option Level) {a : Nat}
    (h : a + 1 < base ∨ base + 2 * n ≤ a) : (m.fillLevels base n f).getLevel a = m.getLevel a := by
  unfold Memory.getLevel
  rw [Memory.get_fillLevels_out _ _ _ _ (by omega), Memory.get_fillLevels_out _ _ _ _ (by omega)]

theorem Memory.getLevel_fill_out (m : Memory) (base n : Nat) (f : Nat → Option Byte) {a : Nat}
    (h : a + 1 < base ∨ base + n ≤ a) : (m.fill base n f).getLevel a = m.getLevel a := by
  unfold Memory.getLevel
  rw [Memory.get_fill_out _ _ _ _ (by omega), Memory.get_fill_out _ _ _ _ (by omega)]

theorem Memory.fillLevels_wf {m : Memory} (h : m.wf) (base n : Nat) (f : Nat → Option Level) :
    (m.fillLevels base n f).wf :=
  Memory.fill_wf h _ _ _

theorem Memory.nil_wf : Memory.wf [] := List.Pairwise.nil

end Sys2Proof.Machine
end

