-- ==== Sys2Proof/Laws/State.lean ====
section
/-! SUPPORT. One lemma per field per update of the state, true by definition, so that no later proof unfolds an update. -/

namespace Sys2Proof.Machine

@[simp] theorem State.raise_cfg (s : State) (t : Txn) (e : ErrorBit) : (s.raise t e).cfg = s.cfg := rfl
@[simp] theorem State.raise_mem (s : State) (t : Txn) (e : ErrorBit) : (s.raise t e).mem = s.mem := rfl
@[simp] theorem State.raise_cmd (s : State) (t : Txn) (e : ErrorBit) : (s.raise t e).cmd = s.cmd := rfl
@[simp] theorem State.raise_status (s : State) (t : Txn) (e : ErrorBit) : (s.raise t e).status = s.status.raise e := rfl
@[simp] theorem State.raise_irqEn (s : State) (t : Txn) (e : ErrorBit) : (s.raise t e).irqEn = s.irqEn := rfl
@[simp] theorem State.raise_countdown (s : State) (t : Txn) (e : ErrorBit) : (s.raise t e).countdown = s.countdown := rfl
@[simp] theorem State.raise_rst (s : State) (t : Txn) (e : ErrorBit) : (s.raise t e).rst = s.rst := rfl
@[simp] theorem State.raise_resetSeen (s : State) (t : Txn) (e : ErrorBit) : (s.raise t e).resetSeen = s.resetSeen := rfl
@[simp] theorem State.raise_script (s : State) (t : Txn) (e : ErrorBit) : (s.raise t e).script = s.script := rfl
@[simp] theorem State.raise_pos (s : State) (t : Txn) (e : ErrorBit) : (s.raise t e).pos = s.pos := rfl
@[simp] theorem State.raise_resp (s : State) (t : Txn) (e : ErrorBit) : (s.raise t e).resp = some (Txn.errResponse t) := rfl
@[simp] theorem State.raise_draws (s : State) (t : Txn) (e : ErrorBit) : (s.raise t e).draws = s.draws := rfl

@[simp] theorem State.respond_cfg (s : State) (r : Response) : (s.respond r).cfg = s.cfg := rfl
@[simp] theorem State.respond_mem (s : State) (r : Response) : (s.respond r).mem = s.mem := rfl
@[simp] theorem State.respond_cmd (s : State) (r : Response) : (s.respond r).cmd = s.cmd := rfl
@[simp] theorem State.respond_status (s : State) (r : Response) : (s.respond r).status = s.status := rfl
@[simp] theorem State.respond_irqEn (s : State) (r : Response) : (s.respond r).irqEn = s.irqEn := rfl
@[simp] theorem State.respond_countdown (s : State) (r : Response) : (s.respond r).countdown = s.countdown := rfl
@[simp] theorem State.respond_rst (s : State) (r : Response) : (s.respond r).rst = s.rst := rfl
@[simp] theorem State.respond_resetSeen (s : State) (r : Response) : (s.respond r).resetSeen = s.resetSeen := rfl
@[simp] theorem State.respond_script (s : State) (r : Response) : (s.respond r).script = s.script := rfl
@[simp] theorem State.respond_pos (s : State) (r : Response) : (s.respond r).pos = s.pos := rfl
@[simp] theorem State.respond_resp (s : State) (r : Response) : (s.respond r).resp = some r := rfl
@[simp] theorem State.respond_draws (s : State) (r : Response) : (s.respond r).draws = s.draws := rfl

@[simp] theorem State.accept_cfg (s : State) (w : Word) (d : Nat) : (s.accept w d).cfg = s.cfg := rfl
@[simp] theorem State.accept_mem (s : State) (w : Word) (d : Nat) : (s.accept w d).mem = s.mem := rfl
@[simp] theorem State.accept_cmd (s : State) (w : Word) (d : Nat) : (s.accept w d).cmd = w := rfl
@[simp] theorem State.accept_status (s : State) (w : Word) (d : Nat) : (s.accept w d).status = { s.status with busy := true, done := false } := rfl
@[simp] theorem State.accept_irqEn (s : State) (w : Word) (d : Nat) : (s.accept w d).irqEn = s.irqEn := rfl
@[simp] theorem State.accept_countdown (s : State) (w : Word) (d : Nat) : (s.accept w d).countdown = d := rfl
@[simp] theorem State.accept_rst (s : State) (w : Word) (d : Nat) : (s.accept w d).rst = s.rst := rfl
@[simp] theorem State.accept_resetSeen (s : State) (w : Word) (d : Nat) : (s.accept w d).resetSeen = s.resetSeen := rfl
@[simp] theorem State.accept_script (s : State) (w : Word) (d : Nat) : (s.accept w d).script = s.script := rfl
@[simp] theorem State.accept_pos (s : State) (w : Word) (d : Nat) : (s.accept w d).pos = s.pos := rfl
@[simp] theorem State.accept_resp (s : State) (w : Word) (d : Nat) : (s.accept w d).resp = s.resp := rfl
@[simp] theorem State.accept_draws (s : State) (w : Word) (d : Nat) : (s.accept w d).draws = s.draws := rfl

@[simp] theorem State.complete_cfg (s : State) (m : Memory) : (s.complete m).cfg = s.cfg := rfl
@[simp] theorem State.complete_mem (s : State) (m : Memory) : (s.complete m).mem = m := rfl
@[simp] theorem State.complete_cmd (s : State) (m : Memory) : (s.complete m).cmd = s.cmd := rfl
@[simp] theorem State.complete_status (s : State) (m : Memory) : (s.complete m).status = { s.status with busy := false, done := true } := rfl
@[simp] theorem State.complete_irqEn (s : State) (m : Memory) : (s.complete m).irqEn = s.irqEn := rfl
@[simp] theorem State.complete_countdown (s : State) (m : Memory) : (s.complete m).countdown = s.countdown := rfl
@[simp] theorem State.complete_rst (s : State) (m : Memory) : (s.complete m).rst = s.rst := rfl
@[simp] theorem State.complete_resetSeen (s : State) (m : Memory) : (s.complete m).resetSeen = s.resetSeen := rfl
@[simp] theorem State.complete_script (s : State) (m : Memory) : (s.complete m).script = s.script := rfl
@[simp] theorem State.complete_pos (s : State) (m : Memory) : (s.complete m).pos = s.pos := rfl
@[simp] theorem State.complete_resp (s : State) (m : Memory) : (s.complete m).resp = s.resp := rfl
@[simp] theorem State.complete_draws (s : State) (m : Memory) : (s.complete m).draws = s.draws := rfl

@[simp] theorem State.dropEdge_cfg (s : State) : (s.dropEdge).cfg = s.cfg := rfl
@[simp] theorem State.dropEdge_mem (s : State) : (s.dropEdge).mem = s.mem := rfl
@[simp] theorem State.dropEdge_cmd (s : State) : (s.dropEdge).cmd = s.cmd := rfl
@[simp] theorem State.dropEdge_status (s : State) : (s.dropEdge).status = s.status := rfl
@[simp] theorem State.dropEdge_irqEn (s : State) : (s.dropEdge).irqEn = s.irqEn := rfl
@[simp] theorem State.dropEdge_countdown (s : State) : (s.dropEdge).countdown = s.countdown := rfl
@[simp] theorem State.dropEdge_rst (s : State) : (s.dropEdge).rst = s.rst.tail := rfl
@[simp] theorem State.dropEdge_resetSeen (s : State) : (s.dropEdge).resetSeen = s.resetSeen := rfl
@[simp] theorem State.dropEdge_script (s : State) : (s.dropEdge).script = s.script := rfl
@[simp] theorem State.dropEdge_pos (s : State) : (s.dropEdge).pos = s.pos := rfl
@[simp] theorem State.dropEdge_resp (s : State) : (s.dropEdge).resp = s.resp := rfl
@[simp] theorem State.dropEdge_draws (s : State) : (s.dropEdge).draws = s.draws := rfl

@[simp] theorem State.resetEdge_cfg (s : State) : (s.resetEdge).cfg = s.cfg := rfl
@[simp] theorem State.resetEdge_mem (s : State) : (s.resetEdge).mem = [] := rfl
@[simp] theorem State.resetEdge_cmd (s : State) : (s.resetEdge).cmd = 0 := rfl
@[simp] theorem State.resetEdge_status (s : State) : (s.resetEdge).status = ⟨false, false, false, false, false⟩ := rfl
@[simp] theorem State.resetEdge_irqEn (s : State) : (s.resetEdge).irqEn = ⟨false, false⟩ := rfl
@[simp] theorem State.resetEdge_countdown (s : State) : (s.resetEdge).countdown = 0 := rfl
@[simp] theorem State.resetEdge_rst (s : State) : (s.resetEdge).rst = s.rst := rfl
@[simp] theorem State.resetEdge_resetSeen (s : State) : (s.resetEdge).resetSeen = true := rfl
@[simp] theorem State.resetEdge_script (s : State) : (s.resetEdge).script = s.script := rfl
@[simp] theorem State.resetEdge_pos (s : State) : (s.resetEdge).pos = s.pos := rfl
@[simp] theorem State.resetEdge_resp (s : State) : (s.resetEdge).resp = none := rfl
@[simp] theorem State.resetEdge_draws (s : State) : (s.resetEdge).draws = s.draws := rfl

@[simp] theorem Status.raise_cmdErr_busy (st : Status) : (st.raise .cmdErr).busy = st.busy := rfl
@[simp] theorem Status.raise_cmdErr_done (st : Status) : (st.raise .cmdErr).done = st.done := rfl
@[simp] theorem Status.raise_cmdErr_cmdErr (st : Status) : (st.raise .cmdErr).cmdErr = true := rfl
@[simp] theorem Status.raise_cmdErr_addrErr (st : Status) : (st.raise .cmdErr).addrErr = st.addrErr := rfl
@[simp] theorem Status.raise_cmdErr_wbusyErr (st : Status) : (st.raise .cmdErr).wbusyErr = st.wbusyErr := rfl

@[simp] theorem Status.raise_addrErr_busy (st : Status) : (st.raise .addrErr).busy = st.busy := rfl
@[simp] theorem Status.raise_addrErr_done (st : Status) : (st.raise .addrErr).done = st.done := rfl
@[simp] theorem Status.raise_addrErr_cmdErr (st : Status) : (st.raise .addrErr).cmdErr = st.cmdErr := rfl
@[simp] theorem Status.raise_addrErr_addrErr (st : Status) : (st.raise .addrErr).addrErr = true := rfl
@[simp] theorem Status.raise_addrErr_wbusyErr (st : Status) : (st.raise .addrErr).wbusyErr = st.wbusyErr := rfl

@[simp] theorem Status.raise_wbusyErr_busy (st : Status) : (st.raise .wbusyErr).busy = st.busy := rfl
@[simp] theorem Status.raise_wbusyErr_done (st : Status) : (st.raise .wbusyErr).done = st.done := rfl
@[simp] theorem Status.raise_wbusyErr_cmdErr (st : Status) : (st.raise .wbusyErr).cmdErr = st.cmdErr := rfl
@[simp] theorem Status.raise_wbusyErr_addrErr (st : Status) : (st.raise .wbusyErr).addrErr = st.addrErr := rfl
@[simp] theorem Status.raise_wbusyErr_wbusyErr (st : Status) : (st.raise .wbusyErr).wbusyErr = true := rfl

/-- BUSY and DONE are not touched by any error (60_exceptions.md R201, R203). -/
@[simp] theorem Status.raise_busy (st : Status) (e : ErrorBit) : (st.raise e).busy = st.busy := by cases e <;> rfl

@[simp] theorem Status.raise_done (st : Status) (e : ErrorBit) : (st.raise e).done = st.done := by cases e <;> rfl

@[simp] theorem Status.clear_busy (st : Status) (w : Word) : (st.clear w).busy = st.busy := rfl

@[simp] theorem Status.clear_done (st : Status) (w : Word) : (st.clear w).done = (st.done && !w.getLsbD 1) := rfl

@[simp] theorem Status.clear_cmdErr (st : Status) (w : Word) : (st.clear w).cmdErr = (st.cmdErr && !w.getLsbD 2) := rfl

@[simp] theorem Status.clear_addrErr (st : Status) (w : Word) : (st.clear w).addrErr = (st.addrErr && !w.getLsbD 3) := rfl

@[simp] theorem Status.clear_wbusyErr (st : Status) (w : Word) : (st.clear w).wbusyErr = (st.wbusyErr && !w.getLsbD 4) :=
  rfl

end Sys2Proof.Machine
end

