-- ==== Sys2Proof/Laws/Ops.lean ====
section
/-! SUPPORT. What each shared operation can do, said once: the address map, bus accesses, host turns, steps. -/

namespace Sys2Proof.Machine

/-! ### The address map -/

theorem Buf.mem_all (b : Buf) : b ∈ Buf.all := by cases b <;> decide

theorem Buf.holds_iff (b : Buf) (a : Nat) : b.holds a = true ↔ b.base ≤ a ∧ a ≤ b.last := by simp [Buf.holds]

/-- Every buffer lies in 0x100 to 0xB87, above the registers (20_memory.md R60). -/
theorem Buf.range (b : Buf) : 0x100 ≤ b.base ∧ b.base ≤ b.last ∧ b.last ≤ 0xB87 := by cases b <;> decide

/-- No two buffers overlap (20_memory.md R60). -/
theorem Buf.disjoint {b b' : Buf} {a : Nat} (h : b.holds a = true) (h' : b'.holds a = true) : b = b' := by
  rw [Buf.holds_iff] at h h'
  cases b <;> cases b' <;> first | rfl | (simp only [Buf.base, Buf.last] at h h'; omega)

/-- Buffers begin at word boundaries and end just below one, so a word at an aligned offset lies in one buffer. -/
theorem Buf.word_inside {b : Buf} {a : Nat} (h : b.holds a = true) (ha : a % 4 = 0) : a + 3 ≤ b.last := by
  rw [Buf.holds_iff] at h
  have : b.last % 4 = 3 := by cases b <;> rfl
  omega

theorem targetOf_of_ge {a : Nat} (h : 0x18 ≤ a) :
    targetOf a = match Buf.all.find? fun b => b.holds a with | some b => .buf b | none => .unmapped := by
  unfold targetOf
  split <;> first | omega | rfl

theorem targetOf_buf_iff (a : Nat) (b : Buf) : targetOf a = .buf b ↔ b.holds a = true := by
  constructor
  · intro h
    unfold targetOf at h
    split at h <;> try simp at h
    split at h <;> simp at h
    subst h
    rename_i h; exact List.find?_some (p := fun b : Buf => b.holds a) h
  · intro h
    have hge : 0x18 ≤ a := by rw [Buf.holds_iff] at h; have := b.range; omega
    rw [targetOf_of_ge hge]
    cases hf : Buf.all.find? fun b => b.holds a with
    | none => exact absurd h (by simpa using List.find?_eq_none.mp hf b b.mem_all)
    | some b' =>
      have hb' := List.find?_some (p := fun b : Buf => b.holds a) hf
      simp only [Buf.disjoint hb' h]

theorem targetOf_unmapped_iff (a : Nat) :
    targetOf a = .unmapped ↔ (∀ b : Buf, b.holds a = false) ∧ a ∉ [0x000, 0x004, 0x008, 0x00C, 0x010, 0x014] := by
  constructor
  · intro h
    refine ⟨fun b => ?_, fun hm => ?_⟩
    · by_contra hb
      rw [(targetOf_buf_iff a b).mpr (by simpa using hb)] at h; simp at h
    · simp only [List.mem_cons, List.not_mem_nil, or_false] at hm
      rcases hm with rfl | rfl | rfl | rfl | rfl | rfl <;> simp [targetOf] at h
  · rintro ⟨hb, hr⟩
    simp only [List.mem_cons, List.not_mem_nil, or_false, not_or] at hr
    unfold targetOf
    split <;> first | omega | skip
    rw [List.find?_eq_none.mpr (fun b _ => by simp [hb b])]

/-- The register at an offset (20_memory.md R60). -/
def Reg.offset : Reg → Nat
  | .id => 0x000 | .cmd => 0x004 | .status => 0x008 | .config => 0x00C | .irqEn => 0x010 | .nz => 0x014

theorem targetOf_reg_iff (a : Nat) (r : Reg) : targetOf a = .reg r ↔ a = r.offset := by
  constructor
  · intro h
    unfold targetOf at h
    split at h <;> first | (injection h with h; subst h; rfl) | skip
    split at h <;> simp at h
  · rintro rfl; cases r <;> rfl

/-! ### Bus accesses -/

/-- A read raises ADDR_ERR or answers `OK`; it changes nothing but the response (20_memory.md R67). -/
theorem busRead_cases (a : Offset) (draw : Word) (s : State) :
    busRead a draw s = s.raise (.read a) .addrErr ∨ ∃ d, busRead a draw s = s.respond (.read .ok d) := by
  unfold busRead
  split
  · exact .inl rfl
  · split
    · exact .inl rfl
    · exact .inr ⟨_, rfl⟩
    · exact .inr ⟨_, rfl⟩

/-- Everything a write can do (20_memory.md R63 to R70, 60_exceptions.md R206). -/
theorem busWrite_cases (a : Offset) (w : Word) (delay : Nat) (s : State) :
    (∃ e, busWrite a w delay s = s.raise (.write a w) e) ∨
    busWrite a w delay s = s.respond (.write .ok) ∨
    (a = 0x008 ∧ busWrite a w delay s = State.respond { s with status := s.status.clear w } (.write .ok)) ∨
    (a = 0x010 ∧ busWrite a w delay s = State.respond { s with irqEn := IrqEn.ofWord w } (.write .ok)) ∨
    (a = 0x004 ∧ s.status.busy = false ∧ (∃ i, decode w = .ok i) ∧
      busWrite a w delay s = (s.accept w delay).respond (.write .ok)) ∨
    (∃ b : Buf, b.holds a.toNat = true ∧ a.toNat % 4 = 0 ∧ b.isRecon = false ∧ s.status.busy = false ∧
      busWrite a w delay s = State.respond { s with mem := writeBufWord s.mem a.toNat w } (.write .ok)) := by
  unfold busWrite
  split
  · exact .inl ⟨_, rfl⟩
  rename_i hal
  have ha4 : a.toNat % 4 = 0 := by simpa [misaligned] using hal
  split
  · exact .inl ⟨_, rfl⟩
  · rename_i r hr
    rw [targetOf_reg_iff] at hr
    cases r
    · exact .inr (.inl rfl)
    · simp only [writeReg, writeCmd]
      split
      · exact .inl ⟨_, rfl⟩
      · rename_i hb
        split
        · exact .inl ⟨_, rfl⟩
        · rename_i i hi
          exact .inr (.inr (.inr (.inr (.inl ⟨BitVec.eq_of_toNat_eq hr, by simpa using hb, ⟨i, hi⟩, rfl⟩))))
    · exact .inr (.inr (.inl ⟨BitVec.eq_of_toNat_eq hr, rfl⟩))
    · exact .inr (.inl rfl)
    · exact .inr (.inr (.inr (.inl ⟨BitVec.eq_of_toNat_eq hr, rfl⟩)))
    · exact .inr (.inl rfl)
  · rename_i b hb
    rw [targetOf_buf_iff] at hb
    unfold writeBuf
    split
    · exact .inl ⟨_, rfl⟩
    · rename_i hrec
      split
      · exact .inl ⟨_, rfl⟩
      · rename_i hbusy
        exact .inr (.inr (.inr (.inr (.inr ⟨b, hb, ha4, by simpa using hrec, by simpa using hbusy, rfl⟩))))

/-! ### The engine -/

/-- The buffers after the completion step of a command (10_state.md R32). -/
def execMem (cfg : Config) : Instr → Memory → Memory
  | .nop => id
  | .fwdL4 b => fwdL4Mem cfg b
  | .invL4 b => invL4Mem cfg b
  | .rtL4 b => rtL4Mem cfg b
  | .fwdL16 => fwdL16Mem cfg
  | .invL16 => invL16Mem cfg
  | .rtL16 => rtL16Mem cfg
  | .fwdC8 p => fwdC8Mem cfg p
  | .invC8 p => invC8Mem cfg p
  | .rtC8 p => rtC8Mem cfg p
  | .pcmCopy => pcmCopyMem
  | .clrCoef => clrCoefMem

/-- Every command completes (60_exceptions.md R200): the buffers change, BUSY falls, DONE rises, nothing else. -/
theorem exec_eq (i : Instr) (s : State) : exec i s = .next (s.complete (execMem s.cfg i s.mem)) := by
  cases i <;> rfl

/-! ### Steps -/

/-- Everything a step can do: a reset edge, the completion step of the decoded command, or a host turn. -/
theorem step_cases {s t : State} (h : step s = .next t) :
    (s.resetDue = true ∧ t = s.dropEdge.resetEdge) ∨
    (s.resetDue = false ∧ s.engineTurn = true ∧
      ∃ i, decode s.cmd = .ok i ∧ t = s.dropEdge.complete (execMem s.cfg i s.mem)) ∨
    (s.resetDue = false ∧ s.engineTurn = false ∧ t = hostTurn s.dropEdge) := by
  unfold step at h
  split at h
  · rename_i hr; injection h with h; exact .inl ⟨hr, h.symm⟩
  · rename_i hr
    have hr' : s.resetDue = false := by simpa using hr
    unfold agentStep at h
    split at h
    · rename_i he
      unfold engineStep at h
      split at h
      · rename_i i hi
        rw [exec_eq] at h
        injection h with h
        exact .inr (.inl ⟨hr', he, i, hi, h.symm⟩)
      · simp at h
    · rename_i he
      injection h with h
      exact .inr (.inr ⟨hr', Bool.eq_false_iff.mpr he, h.symm⟩)

@[simp] theorem engineTurn_dropEdge (s : State) : s.dropEdge.engineTurn = s.engineTurn := rfl

end Sys2Proof.Machine
end

