-- ==== Sys2Proof/Laws/Commands.lean ====
section
/-! SUPPORT. What each command's body writes: the value at every output element, and every other byte as before. -/

namespace Sys2Proof.Machine

theorem Comp.side_pos (c : Comp) : 0 < c.side := by cases c <;> decide

@[simp] theorem Comp.side_y : Comp.y.side = 4 := rfl

@[simp] theorem Comp.side_plane (p : Plane) : (planeComp p).side = 2 := by cases p <;> rfl

@[simp] theorem Comp.width_y : Comp.y.width = 16 := rfl

@[simp] theorem Comp.width_plane (p : Plane) : (planeComp p).width = 8 := by cases p <;> rfl

/-- Sample addresses lie inside their buffer and determine the sample. -/
theorem sampleAddr_eq (c : Comp) (buf : Buf) (x y : Nat) : sampleAddr c buf x y = buf.base + (c.width * y + x) := by
  unfold sampleAddr; omega

/-! ### Planes and blocks -/

/-- A sample written by `fillPlane` reads back. -/
theorem get_fillPlane (m : Memory) (c : Comp) (buf : Buf) (f : Nat → Nat → Option Byte) {x y : Nat}
    (hx : x < c.width) (hy : y < c.width) : (fillPlane m c buf f).get (sampleAddr c buf x y) = f x y := by
  have h : c.width * y + x < c.width * c.width := by
    calc c.width * y + x < c.width * y + c.width := by omega
      _ = c.width * (y + 1) := by ring
      _ ≤ c.width * c.width := Nat.mul_le_mul_left _ hy
  rw [sampleAddr_eq, fillPlane, Memory.get_fill_in _ _ _ _ h, Nat.mul_add_mod, Nat.mod_eq_of_lt hx,
    Nat.mul_add_div (by omega), Nat.div_eq_of_lt hx, Nat.add_zero]

theorem get_fillPlane_out (m : Memory) (c : Comp) (buf : Buf) (f : Nat → Nat → Option Byte) {a : Nat}
    (h : a < buf.base ∨ buf.base + c.width * c.width ≤ a) : (fillPlane m c buf f).get a = m.get a :=
  Memory.get_fill_out _ _ _ _ h

/-- Every byte after `fillBlock`: four rows of four. -/
theorem get_fillBlock_eq (m : Memory) (c : Comp) (buf : Buf) (b : Nat) (f : Nat → Nat → Option Byte) (a : Nat) :
    (fillBlock m c buf b f).get a =
      if sampleAddr c buf (blockX c b) (blockY c b + 3) ≤ a ∧ a < sampleAddr c buf (blockX c b) (blockY c b + 3) + 4 then
        f 3 (a - sampleAddr c buf (blockX c b) (blockY c b + 3))
      else if sampleAddr c buf (blockX c b) (blockY c b + 2) ≤ a ∧ a < sampleAddr c buf (blockX c b) (blockY c b + 2) + 4 then
        f 2 (a - sampleAddr c buf (blockX c b) (blockY c b + 2))
      else if sampleAddr c buf (blockX c b) (blockY c b + 1) ≤ a ∧ a < sampleAddr c buf (blockX c b) (blockY c b + 1) + 4 then
        f 1 (a - sampleAddr c buf (blockX c b) (blockY c b + 1))
      else if sampleAddr c buf (blockX c b) (blockY c b + 0) ≤ a ∧ a < sampleAddr c buf (blockX c b) (blockY c b + 0) + 4 then
        f 0 (a - sampleAddr c buf (blockX c b) (blockY c b + 0))
      else m.get a := by
  unfold fillBlock
  rw [Memory.get_fill, Memory.get_fill, Memory.get_fill, Memory.get_fill]

/-- A sample written by `fillBlock` reads back. -/
theorem get_fillBlock (m : Memory) (c : Comp) (buf : Buf) (b : Nat) (f : Nat → Nat → Option Byte) {i j : Nat}
    (hi : i < 4) (hj : j < 4) :
    (fillBlock m c buf b f).get (sampleAddr c buf (blockX c b + j) (blockY c b + i)) = f i j := by
  have hw : 4 ≤ c.width := by cases c <;> decide
  have hrow : ∀ k, sampleAddr c buf (blockX c b) (blockY c b + k) =
      sampleAddr c buf (blockX c b) (blockY c b) + c.width * k := by
    intro k; unfold sampleAddr; rw [Nat.mul_add]; omega
  have hcell : sampleAddr c buf (blockX c b + j) (blockY c b + i) =
      sampleAddr c buf (blockX c b) (blockY c b) + c.width * i + j := by
    unfold sampleAddr; rw [Nat.mul_add]; omega
  rw [get_fillBlock_eq, hcell, hrow 0, hrow 1, hrow 2, hrow 3]
  have hk : i = 0 ∨ i = 1 ∨ i = 2 ∨ i = 3 := by omega
  rcases hk with rfl | rfl | rfl | rfl
  · rw [if_neg (by omega), if_neg (by omega), if_neg (by omega), if_pos (by omega)]; congr 1; omega
  · rw [if_neg (by omega), if_neg (by omega), if_pos (by omega)]; congr 1; omega
  · rw [if_neg (by omega), if_pos (by omega)]; congr 1; omega
  · rw [if_pos (by omega)]; congr 1; omega

/-- An address outside a luma block is left alone. -/
theorem get_fillBlock_luma_out (m : Memory) (buf : Buf) (b : Nat) (hb : b < 16) (f : Nat → Nat → Option Byte) {a : Nat}
    (h : ¬ inLumaBlock buf.base b a) : (fillBlock m .y buf b f).get a = m.get a := by
  have hout : ∀ k, k < 4 → ¬ (sampleAddr .y buf (blockX .y b) (blockY .y b + k) ≤ a ∧
      a < sampleAddr .y buf (blockX .y b) (blockY .y b + k) + 4) := by
    intro k hk
    unfold inLumaBlock at h
    unfold sampleAddr blockX blockY
    rw [Comp.width_y, Comp.side_y]
    omega
  rw [get_fillBlock_eq, if_neg (hout 3 (by omega)), if_neg (hout 2 (by omega)), if_neg (hout 1 (by omega)),
    if_neg (hout 0 (by omega))]

/-- An address inside a luma block is one of its 16 samples. -/
theorem inLumaBlock_iff (base b a : Nat) (hb : b < 16) :
    inLumaBlock base b a ↔ ∃ i j, i < 4 ∧ j < 4 ∧ a = base + 16 * (4 * (b / 4) + i) + (4 * (b % 4) + j) := by
  unfold inLumaBlock
  constructor
  · rintro ⟨h1, h2, h3, h4⟩
    exact ⟨(a - base) / 16 % 4, (a - base) % 16 % 4, by omega, by omega, by omega⟩
  · rintro ⟨i, j, hi, hj, rfl⟩
    omega

/-! ### Levels of a component -/

theorem coefAddr_eq (buf : Buf) (b u v : Nat) : coefAddr buf b u v = buf.base + 2 * (16 * b + 4 * u + v) := rfl

theorem dcAddr_eq (c : Comp) (i j : Nat) : dcAddr c i j = c.dc.base + 2 * (c.side * i + j) := rfl

/-! ### Forward -/

/-- FWD_L4 writes each level of its block (40_forward.md R118). -/
theorem getLevel_fwdL4Mem (cfg : Config) (blk : Nat) (m : Memory) {u v : Nat} (hu : u < 4) (hv : v < 4) :
    (fwdL4Mem cfg blk m).getLevel (coefAddr .coefY blk u v) =
      ifWritten (blockWritten m .y .yOrig blk && blockWritten m .y .yPred blk)
        (toLevel (fwdBlockLevel m .y cfg.qpY blk u v)) := by
  unfold fwdL4Mem
  rw [show coefAddr .coefY blk u v = coefAddr .coefY blk 0 0 + 2 * (4 * u + v) from by unfold coefAddr; omega]
  rw [Memory.getLevel_fillLevels_in _ _ _ _ (by omega)]
  rw [show (4 * u + v) / 4 = u from by omega, show (4 * u + v) % 4 = v from by omega]

theorem get_fwdL4Mem_out (cfg : Config) (blk : Nat) (m : Memory) {a : Nat} (h : ¬ inLevels (0x800 + 32 * blk) 16 a) :
    (fwdL4Mem cfg blk m).get a = m.get a := by
  unfold fwdL4Mem
  refine Memory.get_fillLevels_out _ _ _ _ ?_
  unfold inLevels at h
  simp only [coefAddr, Buf.base]; omega

/-- FWD_L16 and FWD_C8 write each coefficient level of the component (40_forward.md R119, R120). -/
theorem getLevel_fwdPlaneMem_coef (c : Comp) (qp : Nat) (dcT : Mat → Mat) (m : Memory) {b u v : Nat}
    (hb : b < c.side * c.side) (hu : u < 4) (hv : v < 4) :
    (fwdPlaneMem c qp dcT m).getLevel (coefAddr c.coef b u v) =
      ifWritten (planeWritten m c c.orig && planeWritten m c c.pred) (toLevel (fwdAcLevel m c qp b u v)) := by
  unfold fwdPlaneMem
  have hout : coefAddr c.coef b u v + 1 < c.dc.base := by
    cases c <;> simp only [coefAddr, Comp.coef, Comp.dc, Buf.base, Comp.side] at * <;> omega
  rw [Memory.getLevel_fillLevels_out _ _ _ _ (Or.inl hout)]
  rw [show coefAddr c.coef b u v = c.coef.base + 2 * (16 * b + 4 * u + v) from rfl]
  rw [Memory.getLevel_fillLevels_in _ _ _ _ (by omega)]
  rw [show (16 * b + 4 * u + v) / 16 = b from by omega, show (16 * b + 4 * u + v) / 4 % 4 = u from by omega,
    show (16 * b + 4 * u + v) % 4 = v from by omega]

/-- FWD_L16 and FWD_C8 write each DC level of the component (40_forward.md R119, R120). -/
theorem getLevel_fwdPlaneMem_dc (c : Comp) (qp : Nat) (dcT : Mat → Mat) (m : Memory) {i j : Nat}
    (hi : i < c.side) (hj : j < c.side) :
    (fwdPlaneMem c qp dcT m).getLevel (dcAddr c i j) =
      ifWritten (planeWritten m c c.orig && planeWritten m c c.pred)
        (toLevel (quantDC (dcT (dcTerms m c) i j) qp)) := by
  unfold fwdPlaneMem
  have h : c.side * i + j < c.side * c.side := by
    calc c.side * i + j < c.side * i + c.side := by omega
      _ = c.side * (i + 1) := by ring
      _ ≤ c.side * c.side := Nat.mul_le_mul_left _ hi
  rw [show dcAddr c i j = c.dc.base + 2 * (c.side * i + j) from rfl, Memory.getLevel_fillLevels_in _ _ _ _ h,
    Nat.mul_add_div (by omega), Nat.div_eq_of_lt hj, Nat.add_zero, Nat.mul_add_mod, Nat.mod_eq_of_lt hj]

theorem get_fwdPlaneMem_out (c : Comp) (qp : Nat) (dcT : Mat → Mat) (m : Memory) {a : Nat}
    (h1 : ¬ inLevels c.coef.base (16 * (c.side * c.side)) a) (h2 : ¬ inLevels c.dc.base (c.side * c.side) a) :
    (fwdPlaneMem c qp dcT m).get a = m.get a := by
  unfold fwdPlaneMem
  unfold inLevels at h1 h2
  rw [Memory.get_fillLevels_out _ _ _ _ (by omega), Memory.get_fillLevels_out _ _ _ _ (by omega)]

/-! ### Inverse -/

/-- INV_L4 writes each RECON sample of its block (41_inverse.md R150). -/
theorem get_invL4Mem (cfg : Config) (blk : Nat) (m : Memory) {i j : Nat} (hi : i < 4) (hj : j < 4) :
    (invL4Mem cfg blk m).get (sampleAddr .y .yRecon (blockX .y blk + j) (blockY .y blk + i)) =
      ifWritten (blockLevelsWritten m .y blk && blockWritten m .y .yPred blk)
        (toSample (clampedSample .y (sampleAt m .y .yPred (blockX .y blk + j) (blockY .y blk + i))
          (itrans (blockScaled m .y cfg.qpY blk) i j))) := by
  unfold invL4Mem
  rw [get_fillBlock _ _ _ _ _ hi hj]

theorem get_invL4Mem_out (cfg : Config) (blk : Nat) (hb : blk < 16) (m : Memory) {a : Nat}
    (h : ¬ inLumaBlock 0x500 blk a) : (invL4Mem cfg blk m).get a = m.get a := by
  unfold invL4Mem
  exact get_fillBlock_luma_out _ _ _ hb _ h

/-- INV_L16 and INV_C8 write each RECON sample of the component (41_inverse.md R151, R152). -/
theorem get_invPlaneMem (c : Comp) (qp : Nat) (dcT : Mat → Mat) (m : Memory) {x y : Nat} (hx : x < c.width)
    (hy : y < c.width) :
    (invPlaneMem c qp dcT m).get (sampleAddr c c.recon x y) =
      ifWritten (dcLevelsWritten m c && acLevelsWritten m c && planeWritten m c c.pred)
        (toSample (clampedSample c (sampleAt m c c.pred x y)
          (itrans (planeScaled m c qp dcT (blockOf c x y)) (y % 4) (x % 4)))) := by
  unfold invPlaneMem
  rw [get_fillPlane _ _ _ _ hx hy]

theorem get_invPlaneMem_out (c : Comp) (qp : Nat) (dcT : Mat → Mat) (m : Memory) {a : Nat}
    (h : ¬ inSamples c.recon.base (c.width * c.width) a) : (invPlaneMem c qp dcT m).get a = m.get a := by
  unfold invPlaneMem
  unfold inSamples at h
  exact get_fillPlane_out _ _ _ _ (by omega)

/-! ### PCM_COPY and CLR_COEF -/

theorem get_copyPlane (c : Comp) (m : Memory) {x y : Nat} (hx : x < c.width) (hy : y < c.width) :
    (copyPlane c m).get (sampleAddr c c.recon x y) = m.get (sampleAddr c c.orig x y) :=
  get_fillPlane _ _ _ _ hx hy

theorem get_copyPlane_out (c : Comp) (m : Memory) {a : Nat} (h : ¬ inSamples c.recon.base (c.width * c.width) a) :
    (copyPlane c m).get a = m.get a := by
  unfold inSamples at h
  exact get_fillPlane_out _ _ _ _ (by omega)

theorem getLevel_clearLevels_coef (c : Comp) (m : Memory) {k : Nat} (hk : k < 16 * (c.side * c.side)) :
    (clearLevels c m).getLevel (c.coef.base + 2 * k) = some 0 := by
  unfold clearLevels
  have hout : c.coef.base + 2 * k + 1 < c.dc.base := by
    cases c <;> simp only [Comp.coef, Comp.dc, Buf.base, Comp.side] at * <;> omega
  rw [Memory.getLevel_fillLevels_out _ _ _ _ (Or.inl hout), Memory.getLevel_fillLevels_in _ _ _ _ hk]

theorem getLevel_clearLevels_dc (c : Comp) (m : Memory) {k : Nat} (hk : k < c.side * c.side) :
    (clearLevels c m).getLevel (c.dc.base + 2 * k) = some 0 := by
  unfold clearLevels
  rw [Memory.getLevel_fillLevels_in _ _ _ _ hk]

theorem get_clearLevels_out (c : Comp) (m : Memory) {a : Nat} (h1 : ¬ inLevels c.coef.base (16 * (c.side * c.side)) a)
    (h2 : ¬ inLevels c.dc.base (c.side * c.side) a) : (clearLevels c m).get a = m.get a := by
  unfold clearLevels
  unfold inLevels at h1 h2
  rw [Memory.get_fillLevels_out _ _ _ _ (by omega), Memory.get_fillLevels_out _ _ _ _ (by omega)]

/-! ### The canonical form -/

theorem fillBlock_wf {m : Memory} (h : m.wf) (c : Comp) (buf : Buf) (b : Nat) (f : Nat → Nat → Option Byte) :
    (fillBlock m c buf b f).wf :=
  Memory.fill_wf (Memory.fill_wf (Memory.fill_wf (Memory.fill_wf h _ _ _) _ _ _) _ _ _) _ _ _

theorem fwdPlaneMem_wf {m : Memory} (h : m.wf) (c : Comp) (qp : Nat) (dcT : Mat → Mat) : (fwdPlaneMem c qp dcT m).wf :=
  by unfold fwdPlaneMem; exact Memory.fillLevels_wf (Memory.fillLevels_wf h _ _ _) _ _ _

theorem clearLevels_wf {m : Memory} (h : m.wf) (c : Comp) : (clearLevels c m).wf :=
  Memory.fillLevels_wf (Memory.fillLevels_wf h _ _ _) _ _ _

theorem fwdL4Mem_wf {m : Memory} (h : m.wf) (cfg : Config) (b : Nat) : (fwdL4Mem cfg b m).wf := by
  unfold fwdL4Mem; exact Memory.fillLevels_wf h _ _ _

theorem invL4Mem_wf {m : Memory} (h : m.wf) (cfg : Config) (b : Nat) : (invL4Mem cfg b m).wf := by
  unfold invL4Mem; exact fillBlock_wf h _ _ _ _

theorem invPlaneMem_wf {m : Memory} (h : m.wf) (c : Comp) (qp : Nat) (dcT : Mat → Mat) : (invPlaneMem c qp dcT m).wf := by
  unfold invPlaneMem; exact Memory.fill_wf h _ _ _

theorem copyPlane_wf {m : Memory} (h : m.wf) (c : Comp) : (copyPlane c m).wf := Memory.fill_wf h _ _ _

/-- Every command keeps the canonical form. -/
theorem execMem_wf {m : Memory} (h : m.wf) (cfg : Config) (i : Instr) : (execMem cfg i m).wf := by
  cases i with
  | nop => exact h
  | fwdL4 b => exact fwdL4Mem_wf h _ _
  | invL4 b => exact invL4Mem_wf h _ _
  | rtL4 b => exact invL4Mem_wf (fwdL4Mem_wf h _ _) _ _
  | fwdL16 => exact fwdPlaneMem_wf h _ _ _
  | invL16 => exact invPlaneMem_wf h _ _ _
  | rtL16 => exact invPlaneMem_wf (fwdPlaneMem_wf h _ _ _) _ _ _
  | fwdC8 p => exact fwdPlaneMem_wf h _ _ _
  | invC8 p => exact invPlaneMem_wf h _ _ _
  | rtC8 p => exact invPlaneMem_wf (fwdPlaneMem_wf h _ _ _) _ _ _
  | pcmCopy => exact copyPlane_wf (copyPlane_wf (copyPlane_wf h _) _) _
  | clrCoef => exact clearLevels_wf (clearLevels_wf (clearLevels_wf h _) _) _

/-- A host write keeps the canonical form. -/
theorem writeBufWord_wf {m : Memory} (h : m.wf) (a : Nat) (w : Word) : (writeBufWord m a w).wf := Memory.fill_wf h _ _ _

theorem get_writeBufWord (m : Memory) (a : Nat) (w : Word) (x : Nat) :
    (writeBufWord m a w).get x = if a ≤ x ∧ x < a + 4 then some (byteOf w (x - a)) else m.get x :=
  Memory.get_fill _ _ _ _ _

end Sys2Proof.Machine
end

