-- ==== Sys2Proof/Laws/Frame.lean ====
section
/-! SUPPORT. Each command's frame over the buffers (10_state.md R32), and the shape of memory that every operation keeps. -/

namespace Sys2Proof.Machine

theorem chroma_bases (p : Plane) :
    (planeComp p).coef.base = chromaCoef p ∧ (planeComp p).dc.base = chromaDc p ∧
      (planeComp p).orig.base = chromaOrig p ∧ (planeComp p).pred.base = chromaPred p ∧
      (planeComp p).recon.base = chromaRecon p := by cases p <;> decide

/-- Every byte that a command may not write is as before (10_state.md R32). -/
theorem execMem_frame (cfg : Config) (i : Instr) (m : Memory) {a : Nat} (h : ¬ writes i a) :
    (execMem cfg i m).get a = m.get a := by
  cases i with
  | nop => rfl
  | fwdL4 b => exact get_fwdL4Mem_out cfg b m h
  | invL4 b => exact get_invL4Mem_out cfg b b.isLt m h
  | rtL4 b =>
    simp only [writes, not_or] at h
    exact (get_invL4Mem_out cfg b b.isLt _ h.2).trans (get_fwdL4Mem_out cfg b m h.1)
  | fwdL16 =>
    simp only [writes, not_or] at h
    exact get_fwdPlaneMem_out .y _ _ m h.1 h.2
  | invL16 => exact get_invPlaneMem_out .y _ _ m h
  | rtL16 =>
    simp only [writes, not_or] at h
    exact (get_invPlaneMem_out .y _ _ _ h.2.2).trans (get_fwdPlaneMem_out .y _ _ m h.1 h.2.1)
  | fwdC8 p =>
    obtain ⟨hc, hd, -, -, -⟩ := chroma_bases p
    simp only [writes, not_or] at h
    exact get_fwdPlaneMem_out (planeComp p) _ _ m (by rw [hc, Comp.side_plane]; exact h.1)
      (by rw [hd, Comp.side_plane]; exact h.2)
  | invC8 p =>
    obtain ⟨-, -, -, -, hr⟩ := chroma_bases p
    exact get_invPlaneMem_out (planeComp p) _ _ m (by rw [hr, Comp.width_plane]; exact h)
  | rtC8 p =>
    obtain ⟨hc, hd, -, -, hr⟩ := chroma_bases p
    simp only [writes, not_or] at h
    exact (get_invPlaneMem_out (planeComp p) _ _ _ (by rw [hr, Comp.width_plane]; exact h.2.2)).trans
      (get_fwdPlaneMem_out (planeComp p) _ _ m (by rw [hc, Comp.side_plane]; exact h.1)
        (by rw [hd, Comp.side_plane]; exact h.2.1))
  | pcmCopy =>
    simp only [writes, not_or] at h
    exact ((get_copyPlane_out .cr _ h.2.2).trans (get_copyPlane_out .cb _ h.2.1)).trans (get_copyPlane_out .y m h.1)
  | clrCoef =>
    simp only [writes, not_or] at h
    exact ((get_clearLevels_out .cr _ h.2.2.1 h.2.2.2).trans
      (get_clearLevels_out .cb _ h.2.1.1 h.2.1.2)).trans (get_clearLevels_out .y m h.1.1 h.1.2)

/-- The shape of memory: canonical, only buffer elements written, levels written as a whole. -/
structure MemOk (m : Memory) : Prop where
  memWf : m.wf
  mapped : ∀ a, (m.get a).isSome = true → ∃ b : Buf, b.holds a = true
  levels : ∀ a, 0x800 ≤ a → a % 2 = 0 → (m.get a).isSome = (m.get (a + 1)).isSome

theorem MemOk.nil : MemOk [] := ⟨Memory.nil_wf, by simp, by simp⟩

/-- A write inside one sample buffer keeps the shape. -/
theorem MemOk.fill_samples {m : Memory} (h : MemOk m) (b : Buf) (hb : b.isCoef = false) (base n : Nat)
    (f : Nat → Option Byte) (h1 : b.base ≤ base) (h2 : base + n ≤ b.last + 1) : MemOk (m.fill base n f) := by
  have hlast : b.last < 0x800 := by cases b <;> simp [Buf.isCoef] at hb <;> decide
  refine ⟨Memory.fill_wf h.memWf _ _ _, fun a ha => ?_, fun a ha hp => ?_⟩
  · rw [Memory.get_fill] at ha
    split at ha
    · exact ⟨b, by rw [Buf.holds_iff]; omega⟩
    · exact h.mapped a ha
  · rw [Memory.get_fill_out _ _ _ _ (by omega), Memory.get_fill_out _ _ _ _ (by omega)]
    exact h.levels a ha hp

/-- A write of whole levels inside one coefficient buffer keeps the shape. -/
theorem MemOk.fill_pairs {m : Memory} (h : MemOk m) (b : Buf) (base n : Nat)
    (f : Nat → Option Byte) (h1 : b.base ≤ base) (h2 : base + n ≤ b.last + 1) (hbase : base % 2 = 0) (hn : n % 2 = 0)
    (hf : ∀ k, (f (2 * k)).isSome = (f (2 * k + 1)).isSome) : MemOk (m.fill base n f) := by
  refine ⟨Memory.fill_wf h.memWf _ _ _, fun a ha => ?_, fun a ha hp => ?_⟩
  · rw [Memory.get_fill] at ha
    split at ha
    · exact ⟨b, by rw [Buf.holds_iff]; omega⟩
    · exact h.mapped a ha
  · rw [Memory.get_fill, Memory.get_fill]
    by_cases hin : base ≤ a ∧ a < base + n
    · rw [if_pos hin, if_pos (by omega), show a - base = 2 * ((a - base) / 2) from by omega,
        show a + 1 - base = 2 * ((a - base) / 2) + 1 from by omega]
      exact hf _
    · rw [if_neg hin, if_neg (by omega)]
      exact h.levels a ha hp

theorem MemOk.fillLevels {m : Memory} (h : MemOk m) (b : Buf) (base n : Nat)
    (f : Nat → Option Level) (h1 : b.base ≤ base) (h2 : base + 2 * n ≤ b.last + 1) (hbase : base % 2 = 0) :
    MemOk (m.fillLevels base n f) := by
  unfold Memory.fillLevels
  refine h.fill_pairs b base (2 * n) _ h1 h2 hbase (by omega) fun k => ?_
  rw [show 2 * k / 2 = k from by omega, show (2 * k + 1) / 2 = k from by omega]
  cases f k <;> rfl

theorem Comp.recon_isCoef (c : Comp) : c.recon.isCoef = false := by cases c <;> rfl

theorem Comp.coef_size (c : Comp) : c.coef.base + 2 * (16 * (c.side * c.side)) = c.coef.last + 1 ∧ c.coef.base % 2 = 0 := by
  cases c <;> decide

theorem Comp.dc_size (c : Comp) : c.dc.base + 2 * (c.side * c.side) = c.dc.last + 1 ∧ c.dc.base % 2 = 0 := by
  cases c <;> decide

theorem Comp.recon_size (c : Comp) : c.recon.base + c.width * c.width = c.recon.last + 1 := by cases c <;> decide

theorem MemOk.fwdPlane {m : Memory} (h : MemOk m) (c : Comp) (qp : Nat) (dcT : Mat → Mat) : MemOk (fwdPlaneMem c qp dcT m) := by
  unfold fwdPlaneMem
  exact (h.fillLevels c.coef _ _ _ (Nat.le_refl _) (Nat.le_of_eq c.coef_size.1) c.coef_size.2).fillLevels
    c.dc _ _ _ (Nat.le_refl _) (Nat.le_of_eq c.dc_size.1) c.dc_size.2

theorem MemOk.clear {m : Memory} (h : MemOk m) (c : Comp) : MemOk (clearLevels c m) := by
  unfold clearLevels
  exact (h.fillLevels c.coef _ _ _ (Nat.le_refl _) (Nat.le_of_eq c.coef_size.1) c.coef_size.2).fillLevels
    c.dc _ _ _ (Nat.le_refl _) (Nat.le_of_eq c.dc_size.1) c.dc_size.2

theorem MemOk.fillRecon {m : Memory} (h : MemOk m) (c : Comp) (f : Nat → Nat → Option Byte) :
    MemOk (fillPlane m c c.recon f) := by
  unfold fillPlane
  exact h.fill_samples c.recon c.recon_isCoef _ _ _ (Nat.le_refl _) (Nat.le_of_eq c.recon_size)

theorem MemOk.fwdL4 {m : Memory} (h : MemOk m) (cfg : Config) (b : Nat) (hb : b < 16) : MemOk (fwdL4Mem cfg b m) := by
  unfold fwdL4Mem
  exact h.fillLevels .coefY _ _ _ (by simp [coefAddr]) (by simp [coefAddr, Buf.base, Buf.last]; omega)
    (by unfold coefAddr; rw [show Buf.coefY.base = 0x800 from rfl]; omega)

theorem MemOk.fillReconBlock {m : Memory} (h : MemOk m) (b : Nat) (hb : b < 16) (f : Nat → Nat → Option Byte) :
    MemOk (fillBlock m .y .yRecon b f) := by
  have hrow : ∀ (m' : Memory) (k : Nat) (g : Nat → Option Byte), k < 4 → MemOk m' →
      MemOk (m'.fill (sampleAddr .y .yRecon (blockX .y b) (blockY .y b + k)) 4 g) := by
    intro m' k g hk hm
    refine hm.fill_samples .yRecon rfl _ _ _ ?_ ?_ <;>
      (unfold sampleAddr blockX blockY; rw [Comp.width_y, Comp.side_y]; simp only [Buf.base, Buf.last]; omega)
  unfold fillBlock
  exact hrow _ 3 _ (by omega) (hrow _ 2 _ (by omega) (hrow _ 1 _ (by omega) (hrow _ 0 _ (by omega) h)))

theorem MemOk.invL4 {m : Memory} (h : MemOk m) (cfg : Config) (b : Nat) (hb : b < 16) : MemOk (invL4Mem cfg b m) := by
  unfold invL4Mem; exact h.fillReconBlock b hb _

theorem MemOk.invPlane {m : Memory} (h : MemOk m) (c : Comp) (qp : Nat) (dcT : Mat → Mat) : MemOk (invPlaneMem c qp dcT m) := by
  unfold invPlaneMem; exact h.fillRecon c _

theorem MemOk.copy {m : Memory} (h : MemOk m) (c : Comp) : MemOk (copyPlane c m) := by
  unfold copyPlane; exact h.fillRecon c _

/-- Every command keeps the shape of memory. -/
theorem MemOk.execMem {m : Memory} (h : MemOk m) (cfg : Config) (i : Instr) : MemOk (execMem cfg i m) := by
  cases i with
  | nop => exact h
  | fwdL4 b => exact h.fwdL4 cfg b b.isLt
  | invL4 b => exact h.invL4 cfg b b.isLt
  | rtL4 b => exact (h.fwdL4 cfg b b.isLt).invL4 cfg b b.isLt
  | fwdL16 => exact h.fwdPlane .y _ _
  | invL16 => exact h.invPlane .y _ _
  | rtL16 => exact (h.fwdPlane .y _ _).invPlane .y _ _
  | fwdC8 p => exact h.fwdPlane (planeComp p) _ _
  | invC8 p => exact h.invPlane (planeComp p) _ _
  | rtC8 p => exact (h.fwdPlane (planeComp p) _ _).invPlane (planeComp p) _ _
  | pcmCopy => exact ((h.copy .y).copy .cb).copy .cr
  | clrCoef => exact ((h.clear .y).clear .cb).clear .cr

/-- A host write to a buffer keeps the shape of memory. -/
theorem MemOk.writeBufWord {m : Memory} (h : MemOk m) {b : Buf} {a : Nat} (hb : b.holds a = true) (ha : a % 4 = 0)
    (w : Word) : MemOk (writeBufWord m a w) := by
  have h1 := (Buf.holds_iff b a).mp hb
  have h2 := Buf.word_inside hb ha
  unfold Machine.writeBufWord
  cases hc : b.isCoef with
  | false => exact h.fill_samples b hc _ _ _ h1.1 (by omega)
  | true => exact h.fill_pairs b _ _ _ h1.1 (by omega) (by omega) (by omega) fun k => rfl

end Sys2Proof.Machine
end

