-- ==== Sys2Proof/Laws/Operands.lean ====
section
/-! SUPPORT. Reading operands: when every element is written, and what the integer readers then answer. -/

namespace Sys2Proof.Machine

theorem sampleIs_iff (m : Memory) (a : Nat) (v : Int) : sampleIs m a v ↔ ∃ b, m.get a = some b ∧ (b.toNat : Int) = v := by
  unfold sampleIs; cases m.get a <;> simp

theorem levelIs_iff (m : Memory) (a : Nat) (v : Int) : levelIs m a v ↔ ∃ l, m.getLevel a = some l ∧ l.toInt = v := by
  unfold levelIs; cases m.getLevel a <;> simp

theorem sampleAt_of_is {m : Memory} {c : Comp} {buf : Buf} {x y : Nat} {v : Int}
    (h : sampleIs m (sampleAddr c buf x y) v) : sampleAt m c buf x y = v := by
  obtain ⟨b, hb, hv⟩ := (sampleIs_iff _ _ _).mp h
  unfold sampleAt; rw [hb]; exact hv

theorem levelAt_of_is {m : Memory} {a : Nat} {v : Int} (h : levelIs m a v) : levelAt m a = v := by
  obtain ⟨l, hl, hv⟩ := (levelIs_iff _ _ _).mp h
  unfold levelAt; rw [hl]; exact hv

theorem isSome_of_sampleIs {m : Memory} {a : Nat} {v : Int} (h : sampleIs m a v) : (m.get a).isSome = true := by
  obtain ⟨b, hb, -⟩ := (sampleIs_iff _ _ _).mp h
  rw [hb]; rfl

theorem isSome_of_levelIs {m : Memory} {a : Nat} {v : Int} (h : levelIs m a v) : (m.getLevel a).isSome = true := by
  obtain ⟨b, hb, -⟩ := (levelIs_iff _ _ _).mp h
  rw [hb]; rfl

theorem sampleIs_range {m : Memory} {a : Nat} {v : Int} (h : sampleIs m a v) : 0 ≤ v ∧ v ≤ 255 := by
  obtain ⟨b, -, rfl⟩ := (sampleIs_iff _ _ _).mp h
  have := b.isLt; omega

theorem levelIs_range {m : Memory} {a : Nat} {v : Int} (h : levelIs m a v) : -32768 ≤ v ∧ v ≤ 32767 := by
  obtain ⟨l, -, rfl⟩ := (levelIs_iff _ _ _).mp h
  have h1 := BitVec.le_toInt l; have h2 := BitVec.toInt_lt (x := l)
  norm_num at h1 h2; omega

/-- A level is written exactly when both its bytes are (20_memory.md R62). -/
theorem getLevel_isSome (m : Memory) (a : Nat) :
    (m.getLevel a).isSome = ((m.get a).isSome && (m.get (a + 1)).isSome) := by
  unfold Memory.getLevel
  cases m.get a <;> cases m.get (a + 1) <;> rfl

theorem getLevel_congr {m m' : Memory} {a : Nat} (h0 : m.get a = m'.get a) (h1 : m.get (a + 1) = m'.get (a + 1)) :
    m.getLevel a = m'.getLevel a := by
  unfold Memory.getLevel; rw [h0, h1]

theorem blockWritten_iff (m : Memory) (c : Comp) (buf : Buf) (b : Nat) :
    blockWritten m c buf b = true ↔
      ∀ i j, i < 4 → j < 4 → (m.get (sampleAddr c buf (blockX c b + j) (blockY c b + i))).isSome = true := by
  unfold blockWritten
  rw [List.all_eq_true]
  constructor
  · intro h i j hi hj
    have := h (4 * i + j) (by rw [List.mem_range]; omega)
    rwa [show (4 * i + j) % 4 = j from by omega, show (4 * i + j) / 4 = i from by omega] at this
  · intro h k hk
    rw [List.mem_range] at hk
    exact h (k / 4) (k % 4) (by omega) (by omega)

theorem planeWritten_iff (m : Memory) (c : Comp) (buf : Buf) :
    planeWritten m c buf = true ↔ ∀ x y, x < c.width → y < c.width → (m.get (sampleAddr c buf x y)).isSome = true := by
  unfold planeWritten
  rw [List.all_eq_true]
  constructor
  · intro h x y hx hy
    have hlt : c.width * y + x < c.width * c.width := by
      calc c.width * y + x < c.width * y + c.width := by omega
        _ = c.width * (y + 1) := by ring
        _ ≤ c.width * c.width := Nat.mul_le_mul_left _ hy
    rw [sampleAddr_eq]
    exact h _ (List.mem_range.mpr hlt)
  · intro h k hk
    rw [List.mem_range] at hk
    have hw : 0 < c.width := by cases c <;> decide
    have := h (k % c.width) (k / c.width) (Nat.mod_lt _ hw) (Nat.div_lt_of_lt_mul hk)
    rwa [sampleAddr_eq, Nat.div_add_mod] at this

theorem blockLevelsWritten_iff (m : Memory) (c : Comp) (b : Nat) :
    blockLevelsWritten m c b = true ↔ ∀ u v, u < 4 → v < 4 → (m.getLevel (coefAddr c.coef b u v)).isSome = true := by
  unfold blockLevelsWritten
  rw [List.all_eq_true]
  constructor
  · intro h i j hi hj
    have := h (4 * i + j) (by rw [List.mem_range]; omega)
    rwa [show (4 * i + j) % 4 = j from by omega, show (4 * i + j) / 4 = i from by omega] at this
  · intro h k hk
    rw [List.mem_range] at hk
    exact h (k / 4) (k % 4) (by omega) (by omega)

theorem acLevelsWritten_iff (m : Memory) (c : Comp) :
    acLevelsWritten m c = true ↔ ∀ b u v, b < c.side * c.side → u < 4 → v < 4 → ¬ (u = 0 ∧ v = 0) →
      (m.getLevel (coefAddr c.coef b u v)).isSome = true := by
  unfold acLevelsWritten
  simp only [List.all_eq_true, List.mem_range]
  constructor
  · intro h b u v hb hu hv huv
    have := h b hb (4 * u + v - 1) (by omega)
    rwa [show (4 * u + v - 1 + 1) / 4 = u from by omega, show (4 * u + v - 1 + 1) % 4 = v from by omega] at this
  · intro h b hb k hk
    exact h b _ _ hb (by omega) (by omega) (by omega)

theorem dcLevelsWritten_iff (m : Memory) (c : Comp) :
    dcLevelsWritten m c = true ↔ ∀ i j, i < c.side → j < c.side → (m.getLevel (dcAddr c i j)).isSome = true := by
  unfold dcLevelsWritten
  simp only [List.all_eq_true, List.mem_range]
  constructor
  · intro h i j hi hj
    have hlt : c.side * i + j < c.side * c.side := by
      calc c.side * i + j < c.side * i + c.side := by omega
        _ = c.side * (i + 1) := by ring
        _ ≤ c.side * c.side := Nat.mul_le_mul_left _ hi
    exact h _ hlt
  · intro h k hk
    have := h (k / c.side) (k % c.side) (Nat.div_lt_of_lt_mul hk) (Nat.mod_lt _ c.side_pos)
    unfold dcAddr at this
    rwa [Nat.div_add_mod] at this

@[simp] theorem ifWritten_true {α : Type} (v : α) : ifWritten true v = some v := rfl

@[simp] theorem ifWritten_false {α : Type} (v : α) : ifWritten false v = none := rfl

end Sys2Proof.Machine
end

