-- ==== Sys2Proof/Laws/Specs.lean ====
section
/-! SUPPORT. What the shared bodies compute on written inputs, in the terms of Safety.lean: one specification per body. -/

namespace Sys2Proof.Machine

/-! ### The configuration and the exactness of stores -/

theorem Config.qpY_le (cfg : Config) : cfg.qpY ≤ 51 := by
  have := cfg.ok; simp only [configOk, Bool.and_eq_true, decide_eq_true_eq] at this; exact this.1.1

theorem Config.qpC_le (cfg : Config) : cfg.qpC ≤ 39 := by
  have := cfg.ok; simp only [configOk, Bool.and_eq_true, decide_eq_true_eq] at this; exact this.1.2

/-- A quantised transform of a residual fits a 16-bit level (40_forward.md R121). -/
theorem quant_fits {x : Mat} (hx : ∀ i j, i < 4 → j < 4 → (x i j).natAbs ≤ 255) {u v : Nat} (hu : u < 4) (hv : v < 4)
    {qp : Nat} (hqp : qp ≤ 51) : (quant (coreTransform x u v) qp u v).natAbs < 32768 := by
  have : ∀ qp, qp < 52 → ∀ u, u < 4 → ∀ v, v < 4 →
      (255 * ((if u % 2 = 0 then 4 else 6) * (if v % 2 = 0 then 4 else 6)) * mf (qp % 6) (cls u v) + fIntra qp) /
        2 ^ qbits qp < 32768 := by decide +kernel
  rw [quant_eq]
  exact (signQuot_abs_le (coreTransform_bound hx hu hv) _ _ _).trans_lt (this qp (by omega) u hu v hv)

/-- A quantised DC term fits a 16-bit level (40_forward.md R121). -/
theorem quantDC_fits {w : Int} (hw : w.natAbs ≤ 32640) {qp : Nat} (hqp : qp ≤ 51) : (quantDC w qp).natAbs < 32768 := by
  have : ∀ qp, qp < 52 → (32640 * mf (qp % 6) 0 + 2 * fIntra qp) / 2 ^ (qbits qp + 1) < 32768 := by decide +kernel
  rw [quantDC_eq]
  exact (signQuot_abs_le hw _ _ _).trans_lt (this qp (by omega))

/-- A clamped sample is stored exactly. -/
theorem toNat_clampedSample (c : Comp) (p r : Int) :
    ((toSample (clampedSample c p r)).toNat : Int) = clampedSample c p r := by
  have h : (0 : Int) ≤ c.lo ∧ c.lo ≤ c.hi ∧ c.hi ≤ 255 := by cases c <;> decide
  have := clip3_bounds h.2.1 (p + r)
  unfold clampedSample
  exact toNat_toSample (by omega) (by omega)

/-! ### Equal bytes hold equal levels and samples -/

theorem levelIs_congr {m m' : Memory} {a : Nat} {v : Int} (h0 : m.get a = m'.get a) (h1 : m.get (a + 1) = m'.get (a + 1))
    (h : levelIs m a v) : levelIs m' a v := by
  unfold levelIs at *; rwa [getLevel_congr h0 h1] at h

theorem sampleIs_congr {m m' : Memory} {a : Nat} {v : Int} (h0 : m.get a = m'.get a) (h : sampleIs m a v) :
    sampleIs m' a v := by
  unfold sampleIs at *; rwa [h0] at h

/-! ### Luma blocks -/

theorem lumaBlock_addr (b : Nat) (buf : Buf) (i j : Nat) :
    sampleAddr .y buf (blockX .y b + j) (blockY .y b + i) =
      buf.base + 16 * (4 * (b / 4) + i) + (4 * (b % 4) + j) := by
  unfold sampleAddr blockX blockY; rw [Comp.width_y, Comp.side_y]

theorem blockWritten_of_is {m : Memory} {buf : Buf} {b : Fin 16} {x : Mat} (h : lumaBlockIs m buf.base b x) :
    blockWritten m .y buf b = true :=
  (blockWritten_iff _ _ _ _).mpr fun i j hi hj => by rw [lumaBlock_addr]; exact isSome_of_sampleIs (h i j hi hj)

theorem sampleAt_of_block {m : Memory} {buf : Buf} {b : Fin 16} {x : Mat} (h : lumaBlockIs m buf.base b x) {i j : Nat}
    (hi : i < 4) (hj : j < 4) : sampleAt m .y buf (blockX .y b + j) (blockY .y b + i) = x i j :=
  sampleAt_of_is (by rw [lumaBlock_addr]; exact h i j hi hj)

/-- The transformed residual of a luma block, from its samples (40_forward.md R111, R112). -/
theorem coreTransform_of_block {m : Memory} {b : Fin 16} {o p : Mat} (ho : lumaBlockIs m 0x100 b o)
    (hp : lumaBlockIs m 0x300 b p) :
    coreTransform (residual m .y b) = coreTransform fun i j => o i j - p i j :=
  coreTransform_congr fun i j hi hj => by
    unfold Machine.residual
    rw [sampleAt_of_block (buf := Comp.y.orig) ho hi hj, sampleAt_of_block (buf := Comp.y.pred) hp hi hj]

/-- The scaled coefficients of a luma block, from its levels (41_inverse.md R150). -/
theorem itrans_of_levels {m : Memory} {b : Fin 16} {c : Mat} (h : lumaLevelsAre m b c) (qp : Nat) :
    itrans (blockScaled m .y qp b) = itrans fun u v => deq (c u v) qp u v :=
  itrans_congr fun u v hu hv => by unfold blockScaled; rw [levelAt_of_is (a := coefAddr Comp.y.coef b u v) (h u v hu hv)]

theorem blockLevelsWritten_of_are {m : Memory} {b : Fin 16} {c : Mat} (h : lumaLevelsAre m b c) :
    blockLevelsWritten m .y b = true :=
  (blockLevelsWritten_iff _ _ _).mpr fun u v hu hv => isSome_of_levelIs (h u v hu hv)

/-! ### Planes -/

/-- `b = side*m + n` is a block index (10_state.md R28, R30). -/
theorem blockIndex_lt {side i j : Nat} (hi : i < side) (hj : j < side) : side * i + j < side * side := by
  calc side * i + j < side * i + side := by omega
    _ = side * (i + 1) := by ring
    _ ≤ side * side := Nat.mul_le_mul_left _ hi

theorem blockCoord_lt (c : Comp) {b : Nat} (hb : b < c.side * c.side) {i j : Nat} (hi : i < 4) (hj : j < 4) :
    blockX c b + j < c.width ∧ blockY c b + i < c.width := by
  have h3 := Nat.mod_lt b c.side_pos
  have h4 := Nat.div_lt_of_lt_mul hb
  unfold blockX blockY Comp.width; omega

theorem planeWritten_of_is {m : Memory} {c : Comp} {buf : Buf} {p : Nat → Nat → Int} (h : planeIs m buf.base c.width p) :
    planeWritten m c buf = true :=
  (planeWritten_iff _ _ _).mpr fun x y hx hy => isSome_of_sampleIs (h x y hx hy)

/-- The common body of FWD_L16 and FWD_C8 on written samples (40_forward.md R119, R120). -/
theorem fwdPlane_spec (c : Comp) {qp : Nat} (hqp : qp ≤ 51) (dcT : Mat → Mat) (m : Memory) (o p : Nat → Nat → Int)
    (hdep : ∀ d d' : Mat, (∀ i j, i < c.side → j < c.side → d i j = d' i j) → dcT d = dcT d')
    (hbound : ∀ d : Mat, (∀ i j, i < c.side → j < c.side → (d i j).natAbs ≤ 4080) →
      ∀ i j, i < c.side → j < c.side → (dcT d i j).natAbs ≤ 32640)
    (ho : planeIs m c.orig.base c.width o) (hp : planeIs m c.pred.base c.width p) :
    acLevelsAre (fwdPlaneMem c qp dcT m) c.coef.base (c.side * c.side)
        (fun b u v => quant (planeCore c.side o p b u v) qp u v) ∧
      (∀ b, b < c.side * c.side → levelIs (fwdPlaneMem c qp dcT m) (c.coef.base + 32 * b) 0) ∧
      dcLevelsAre (fwdPlaneMem c qp dcT m) c.dc.base c.side
        (fun i j => quantDC (dcT (planeDc c.side o p) i j) qp) := by
  have hres : ∀ b, b < c.side * c.side → ∀ i j, i < 4 → j < 4 →
      residual m c b i j = planeResidual c.side o p b i j := by
    intro b hb i j hi hj
    obtain ⟨h3, h4⟩ := blockCoord_lt c hb hi hj
    unfold Machine.residual planeResidual
    rw [sampleAt_of_is (ho _ _ h3 h4), sampleAt_of_is (hp _ _ h3 h4)]
    rfl
  have hcore : ∀ b, b < c.side * c.side → coreTransform (residual m c b) = planeCore c.side o p b :=
    fun b hb => coreTransform_congr (hres b hb)
  have hsmall : ∀ b, b < c.side * c.side → ∀ i j, i < 4 → j < 4 → (planeResidual c.side o p b i j).natAbs ≤ 255 := by
    intro b hb i j hi hj
    obtain ⟨h3, h4⟩ := blockCoord_lt c hb hi hj
    have a1 := sampleIs_range (ho _ _ h3 h4)
    have a2 := sampleIs_range (hp _ _ h3 h4)
    unfold planeResidual
    unfold blockX blockY at a1 a2
    omega
  refine ⟨?_, ?_, ?_⟩
  · intro b u v hb hu hv huv
    rw [levelIs_iff, ← coefAddr_eq, getLevel_fwdPlaneMem_coef _ _ _ _ hb hu hv, planeWritten_of_is ho,
      planeWritten_of_is hp]
    refine ⟨_, rfl, ?_⟩
    unfold fwdAcLevel fwdBlockLevel
    rw [if_neg huv, hcore b hb]
    exact toInt_toLevel (quant_fits (hsmall b hb) hu hv hqp)
  · intro b hb
    rw [levelIs_iff, show c.coef.base + 32 * b = coefAddr c.coef b 0 0 by unfold coefAddr; omega,
      getLevel_fwdPlaneMem_coef _ _ _ _ hb (by omega) (by omega), planeWritten_of_is ho, planeWritten_of_is hp]
    exact ⟨_, rfl, rfl⟩
  · intro i j hi hj
    rw [levelIs_iff, ← dcAddr_eq, getLevel_fwdPlaneMem_dc _ _ _ _ hi hj, planeWritten_of_is ho, planeWritten_of_is hp]
    refine ⟨_, rfl, ?_⟩
    have hd : dcT (dcTerms m c) = dcT (planeDc c.side o p) := hdep _ _ fun i j hi hj => by
      unfold dcTerms planeDc; rw [hcore _ (blockIndex_lt hi hj)]
    rw [hd]
    refine toInt_toLevel (quantDC_fits (hbound _ ?_ i j hi hj) hqp)
    exact fun i j hi hj => coreTransform_bound (hsmall _ (blockIndex_lt hi hj)) (by omega) (by omega)

/-- The common body of INV_L16 and INV_C8 on written inputs (41_inverse.md R151, R152). -/
theorem invPlane_spec (c : Comp) (qp : Nat) (dcT : Mat → Mat) (m : Memory) (lev : Nat → Mat) (dc : Mat)
    (p : Nat → Nat → Int)
    (hdep : ∀ d d' : Mat, (∀ i j, i < c.side → j < c.side → d i j = d' i j) → dcT d = dcT d')
    (hc : acLevelsAre m c.coef.base (c.side * c.side) lev) (hd : dcLevelsAre m c.dc.base c.side dc)
    (hp : planeIs m c.pred.base c.width p) :
    planeIs (invPlaneMem c qp dcT m) c.recon.base c.width (fun x y => clampedSample c (p x y)
      (itrans (scaledWithDc qp c.side (dcT dc) lev (blockOf c x y)) (y % 4) (x % 4))) := by
  have h1 : dcLevelsWritten m c = true :=
    (dcLevelsWritten_iff _ _).mpr fun i j hi hj => isSome_of_levelIs (hd i j hi hj)
  have h2 : acLevelsWritten m c = true :=
    (acLevelsWritten_iff _ _).mpr fun b u v hb hu hv huv => isSome_of_levelIs (hc b u v hb hu hv huv)
  have hdc : dcT (dcLevels m c) = dcT dc := hdep _ _ fun i j hi hj => by
    unfold dcLevels; exact levelAt_of_is (hd i j hi hj)
  intro x y hx hy
  have hb : blockOf c x y < c.side * c.side := by
    unfold Comp.width at hx hy
    exact blockIndex_lt (by omega) (by omega)
  rw [sampleIs_iff, show c.recon.base + c.width * y + x = sampleAddr c c.recon x y from rfl, get_invPlaneMem _ _ _ _ hx hy,
    h1, h2, planeWritten_of_is hp]
  refine ⟨_, rfl, ?_⟩
  rw [toNat_clampedSample, sampleAt_of_is (hp x y hx hy)]
  have : itrans (planeScaled m c qp dcT (blockOf c x y)) = itrans (scaledWithDc qp c.side (dcT dc) lev (blockOf c x y)) :=
    itrans_congr fun u v hu hv => by
      unfold planeScaled scaledWithDc
      rw [hdc]
      split
      · rfl
      · rename_i huv
        rw [levelAt_of_is (a := coefAddr c.coef _ u v) (hc _ u v hb hu hv huv)]
  rw [this]

end Sys2Proof.Machine
end

