-- ==== Sys2Proof/Laws/Bus.lean ====
section
/-! SUPPORT. The bus in the terms of Safety.lean: register words bit by bit, what an offset names, what each kind of access
does. -/

namespace Sys2Proof.Machine

/-! ### Words by their bits -/

theorem getLsbD_wordOfBits (f : Nat → Bool) {k : Nat} (h : k < 32) : (wordOfBits f).getLsbD k = f k := by
  unfold wordOfBits; rw [BitVec.getLsbD_eq_getElem h]; simp [BitVec.getElem_ofFnLE]

theorem wordOfBits_eq_iff (f : Nat → Bool) (w : Word) : wordOfBits f = w ↔ ∀ k, k < 32 → f k = w.getLsbD k := by
  constructor
  · rintro rfl k hk; rw [getLsbD_wordOfBits f hk]
  · intro h
    apply BitVec.eq_of_getLsbD_eq
    intro k hk
    rw [getLsbD_wordOfBits f hk, h k hk]

/-! ### What an offset names (20_memory.md R60) -/

/-- An offset of some buffer. -/
theorem holds_iff_mapped (a : Nat) (h : 0x018 ≤ a) : (∃ b : Buf, b.holds a = true) ↔ mappedOffset a := by
  constructor
  · rintro ⟨b, hb⟩
    rw [Buf.holds_iff] at hb
    unfold mappedOffset
    cases b <;> simp only [Buf.base, Buf.last] at hb <;> omega
  · intro hm
    have : ∃ b : Buf, b.base ≤ a ∧ a ≤ b.last := by
      unfold mappedOffset at hm
      rcases hm with hm | hm | hm | hm | hm | hm | hm
      · omega
      · by_cases h1 : a ≤ 0x1FF
        · exact ⟨.yOrig, hm.1, h1⟩
        · by_cases h2 : a ≤ 0x23F
          · exact ⟨.cbOrig, by simp only [Buf.base]; omega, h2⟩
          · exact ⟨.crOrig, by simp only [Buf.base]; omega, hm.2⟩
      · by_cases h1 : a ≤ 0x3FF
        · exact ⟨.yPred, hm.1, h1⟩
        · by_cases h2 : a ≤ 0x43F
          · exact ⟨.cbPred, by simp only [Buf.base]; omega, h2⟩
          · exact ⟨.crPred, by simp only [Buf.base]; omega, hm.2⟩
      · by_cases h1 : a ≤ 0x5FF
        · exact ⟨.yRecon, hm.1, h1⟩
        · by_cases h2 : a ≤ 0x63F
          · exact ⟨.cbRecon, by simp only [Buf.base]; omega, h2⟩
          · exact ⟨.crRecon, by simp only [Buf.base]; omega, hm.2⟩
      · by_cases h1 : a ≤ 0x9FF
        · exact ⟨.coefY, hm.1, h1⟩
        · exact ⟨.dcY, by simp only [Buf.base]; omega, hm.2⟩
      · by_cases h1 : a ≤ 0xABF
        · exact ⟨.coefCb, hm.1, h1⟩
        · exact ⟨.dcCb, by simp only [Buf.base]; omega, hm.2⟩
      · by_cases h1 : a ≤ 0xB7F
        · exact ⟨.coefCr, hm.1, h1⟩
        · exact ⟨.dcCr, by simp only [Buf.base]; omega, hm.2⟩
    obtain ⟨b, hb⟩ := this
    exact ⟨b, (Buf.holds_iff b a).mpr hb⟩

/-- The aligned unmapped offsets. -/
theorem targetOf_unmapped_iff_mapped {a : Nat} (ha : a % 4 = 0) : targetOf a = .unmapped ↔ ¬ mappedOffset a := by
  rw [targetOf_unmapped_iff]
  by_cases h : 0x018 ≤ a
  · rw [← holds_iff_mapped a h]
    constructor
    · rintro ⟨h1, -⟩ ⟨b, hb⟩; rw [h1 b] at hb; exact Bool.noConfusion hb
    · intro h1
      refine ⟨fun b => by_contra fun hb => h1 ⟨b, by simpa using hb⟩, ?_⟩
      simp only [List.mem_cons, List.not_mem_nil, or_false]; omega
  · have h1 : mappedOffset a := .inl (by omega)
    simp only [h1, not_true_eq_false, iff_false, not_and]
    intro _ h2
    apply h2
    simp only [List.mem_cons, List.not_mem_nil, or_false]; omega

theorem isRecon_iff {b : Buf} {a : Nat} (hb : b.holds a = true) : b.isRecon = true ↔ reconOffset a := by
  rw [Buf.holds_iff] at hb
  unfold reconOffset
  cases b <;> simp only [Buf.base, Buf.last, Buf.isRecon] at hb ⊢ <;> simp <;> omega

theorem isCoef_iff {b : Buf} {a : Nat} (hb : b.holds a = true) : b.isCoef = true ↔ 0x800 ≤ a := by
  rw [Buf.holds_iff] at hb
  cases b <;> simp only [Buf.base, Buf.last, Buf.isCoef] at hb ⊢ <;> simp <;> omega

/-- A mapped aligned offset from 0x100 on names a buffer. -/
theorem exists_buf {a : Nat} (h : 0x100 ≤ a) (hm : mappedOffset a) : ∃ b : Buf, b.holds a = true ∧ targetOf a = .buf b := by
  obtain ⟨b, hb⟩ := (holds_iff_mapped a (by omega)).mpr hm
  exact ⟨b, hb, (targetOf_buf_iff a b).mpr hb⟩

/-! ### The accesses -/

theorem misaligned_eq_false {a : Offset} (h : a.toNat % 4 = 0) : misaligned a = false := by simp [misaligned, h]

theorem misaligned_eq_true {a : Offset} (h : a.toNat % 4 ≠ 0) : misaligned a = true := by simp [misaligned, h]

/-- A read of a register (20_memory.md R67). -/
theorem busRead_reg {a : Offset} {r : Reg} (h : a.toNat = r.offset) (draw : Word) (s : State) :
    busRead a draw s = s.respond (.read .ok (readReg s draw r)) := by
  have ha : a.toNat % 4 = 0 := by rw [h]; cases r <;> decide
  unfold busRead
  rw [misaligned_eq_false ha, (targetOf_reg_iff _ r).mpr h]
  rfl

/-- A read of a register after the first reset edge. -/
theorem busRead_reg_seen {a : Offset} {r : Reg} (h : a.toNat = r.offset) (draw : Word) {s : State} (hs : s.resetSeen = true) :
    busRead a draw s = s.respond (.read .ok (regValue s draw r)) := by
  rw [busRead_reg h]; unfold readReg; rw [hs]; rfl

/-- A read of a register before the first reset edge (70_reset_and_hazards.md R232). -/
theorem busRead_reg_unseen {a : Offset} {r : Reg} (h : a.toNat = r.offset) (draw : Word) {s : State}
    (hs : s.resetSeen = false) : busRead a draw s = s.respond (.read .ok draw) := by
  rw [busRead_reg h]; unfold readReg; rw [hs]; rfl

/-- A read of a buffer (20_memory.md R68). -/
theorem busRead_buf {a : Offset} {b : Buf} (ha : a.toNat % 4 = 0) (h : b.holds a.toNat = true) (draw : Word) (s : State) :
    busRead a draw s =
      s.respond (.read .ok (if s.status.busy then draw else readBufWord s.mem b a.toNat draw)) := by
  unfold busRead
  rw [misaligned_eq_false ha, (targetOf_buf_iff _ b).mpr h]
  rfl

/-- A read with an address error (60_exceptions.md R204). -/
theorem busRead_error {a : Offset} (h : a.toNat % 4 ≠ 0 ∨ ¬ mappedOffset a.toNat) (draw : Word) (s : State) :
    busRead a draw s = s.raise (.read a) .addrErr := by
  unfold busRead
  by_cases ha : a.toNat % 4 = 0
  · rw [misaligned_eq_false ha, (targetOf_unmapped_iff_mapped ha).mpr (h.resolve_left (by simp [ha]))]; rfl
  · rw [misaligned_eq_true ha]; rfl

/-- A write of a register. -/
theorem busWrite_reg {a : Offset} {r : Reg} (h : a.toNat = r.offset) (w : Word) (d : Nat) (s : State) :
    busWrite a w d s = writeReg a w d s r := by
  have ha : a.toNat % 4 = 0 := by rw [h]; cases r <;> decide
  unfold busWrite
  rw [misaligned_eq_false ha, (targetOf_reg_iff _ r).mpr h]
  rfl

/-- A write of a buffer. -/
theorem busWrite_buf {a : Offset} {b : Buf} (ha : a.toNat % 4 = 0) (h : b.holds a.toNat = true) (w : Word) (d : Nat)
    (s : State) : busWrite a w d s = writeBuf a w s b := by
  unfold busWrite
  rw [misaligned_eq_false ha, (targetOf_buf_iff _ b).mpr h]
  rfl

/-- A write with an address error (60_exceptions.md R204). -/
theorem busWrite_error {a : Offset} (h : a.toNat % 4 ≠ 0 ∨ ¬ mappedOffset a.toNat ∨ reconOffset a.toNat) (w : Word) (d : Nat)
    (s : State) : busWrite a w d s = s.raise (.write a w) .addrErr := by
  by_cases ha : a.toNat % 4 = 0
  · rcases h.resolve_left (by simp [ha]) with hm | hr
    · unfold busWrite
      rw [misaligned_eq_false ha, (targetOf_unmapped_iff_mapped ha).mpr hm]; rfl
    · obtain ⟨b, hb, -⟩ := exists_buf (a := a.toNat) (by unfold reconOffset at hr; omega)
        (by unfold reconOffset at hr; unfold mappedOffset; omega)
      rw [busWrite_buf ha hb]
      unfold writeBuf
      rw [(isRecon_iff hb).mpr hr]; rfl
  · unfold busWrite
    rw [misaligned_eq_true ha]; rfl

/-- A write to a buffer that the host may write, by BUSY (60_exceptions.md R205, 20_memory.md R69). -/
theorem busWrite_writable {a : Offset} (ha : a.toNat % 4 = 0) (h : writableOffset a.toNat) (w : Word) (d : Nat) (s : State) :
    busWrite a w d s = if s.status.busy then s.raise (.write a w) .wbusyErr
      else State.respond { s with mem := writeBufWord s.mem a.toNat w } (.write .ok) := by
  obtain ⟨h1, h2, h3⟩ := h
  obtain ⟨b, hb, -⟩ := exists_buf h1 h2
  rw [busWrite_buf ha hb]
  unfold writeBuf
  have : b.isRecon = false := by
    cases hc : b.isRecon
    · rfl
    · exact absurd ((isRecon_iff hb).mp hc) h3
  rw [this]; rfl

/-- The level at an offset that a word write covers, low half then high half (20_memory.md R62). -/
theorem getLevel_writeBufWord (m : Memory) (a : Nat) (w : Word) :
    (writeBufWord m a w).getLevel a = some (halfOf w 0) ∧ (writeBufWord m a w).getLevel (a + 2) = some (halfOf w 1) := by
  unfold Memory.getLevel
  simp only [get_writeBufWord]
  refine ⟨?_, ?_⟩
  · rw [if_pos (by omega), if_pos (by omega), show a - a = 0 by omega, show a + 1 - a = 1 by omega]
    simp only [Option.some.injEq]
    apply BitVec.eq_of_getLsbD_eq
    intro k hk
    rw [BitVec.getLsbD_append]
    unfold byteOf halfOf
    split <;> simp only [BitVec.getLsbD_extractLsb'] <;> rename_i h
    · simp [h, hk]
    · simp [show k - 8 < 8 by omega, hk, show 8 + (k - 8) = k by omega]
  · rw [if_pos (by omega), if_pos (by omega), show a + 2 - a = 2 by omega, show a + 2 + 1 - a = 3 by omega]
    simp only [Option.some.injEq]
    apply BitVec.eq_of_getLsbD_eq
    intro k hk
    rw [BitVec.getLsbD_append]
    unfold byteOf halfOf
    split <;> simp only [BitVec.getLsbD_extractLsb'] <;> rename_i h
    · simp [h, hk]
    · simp [show k - 8 < 8 by omega, hk, show 24 + (k - 8) = 16 + k by omega]

/-- Byte `k` of a word packed from four bytes. -/
theorem byteOf_packBytes (b0 b1 b2 b3 : Byte) :
    byteOf (packBytes b0 b1 b2 b3) 0 = b0 ∧ byteOf (packBytes b0 b1 b2 b3) 1 = b1 ∧
      byteOf (packBytes b0 b1 b2 b3) 2 = b2 ∧ byteOf (packBytes b0 b1 b2 b3) 3 = b3 := by
  refine ⟨?_, ?_, ?_, ?_⟩ <;>
  · apply BitVec.eq_of_getLsbD_eq
    intro k hk
    unfold byteOf packBytes
    rw [BitVec.getLsbD_extractLsb']
    simp only [BitVec.getLsbD_append]
    simp [hk]
    try (split <;> first | omega | skip)
    try (split <;> first | omega | skip)
    try (split <;> first | omega | skip)
    all_goals (congr 1; try first | omega | (show _ = k; omega))

/-- A word is packed from its bytes. -/
theorem packBytes_byteOf (w : Word) : packBytes (byteOf w 0) (byteOf w 1) (byteOf w 2) (byteOf w 3) = w := by
  apply BitVec.eq_of_getLsbD_eq
  intro k hk
  unfold byteOf packBytes
  simp only [BitVec.getLsbD_append, BitVec.getLsbD_extractLsb']
  split
  · rename_i h; simp [h]
  · split
    · rename_i h; simp [h]; congr 1; omega
    · split
      · rename_i h; simp [h]; congr 1; omega
      · rename_i h; simp [show k - 8 - 8 - 8 < 8 by omega]; congr 1; omega

/-- A word is packed from its halves. -/
theorem packHalves_halfOf (w : Word) : packHalves (halfOf w 0) (halfOf w 1) = w := by
  apply BitVec.eq_of_getLsbD_eq
  intro k hk
  unfold halfOf packHalves
  simp only [BitVec.getLsbD_append, BitVec.getLsbD_extractLsb']
  split
  · rename_i h; simp [h]
  · simp [show k - 16 < 16 by omega]; congr 1; omega

end Sys2Proof.Machine
end

