-- ==== Sys2Proof/Laws/Nz.lean ====
section
/-! SUPPORT. The NZ register bit by bit: when a field is defined and what it then says (10_state.md R42 to R45). -/

namespace Sys2Proof.Machine

/-- A field is defined when every level it is computed from is written. -/
theorem someNonzero_of_written {m : Memory} {l : List Nat} (h : ∀ a ∈ l, (m.getLevel a).isSome = true) :
    someNonzero m l = some (l.any fun a => levelAt m a ≠ 0) := by
  unfold someNonzero; rw [if_pos (List.all_eq_true.mpr h)]

theorem someNonzero_of_unwritten {m : Memory} {l : List Nat} {a : Nat} (ha : a ∈ l) (h : (m.getLevel a).isSome = false) :
    someNonzero m l = none := by
  unfold someNonzero
  rw [if_neg]
  intro h2
  rw [List.all_eq_true.mp h2 a ha] at h; exact Bool.noConfusion h

/-- Of levels whose values are known, some is not 0. -/
theorem any_ne_zero_iff {m : Memory} {l : List Nat} {val : Nat → Int} (h : ∀ a ∈ l, levelIs m a (val a)) :
    (l.any fun a => levelAt m a ≠ 0) = true ↔ ∃ a ∈ l, val a ≠ 0 := by
  rw [List.any_eq_true]
  constructor
  · rintro ⟨a, ha, hv⟩; exact ⟨a, ha, by rw [levelAt_of_is (h a ha)] at hv; simpa using hv⟩
  · rintro ⟨a, ha, hv⟩; exact ⟨a, ha, by rw [levelAt_of_is (h a ha)]; simpa using hv⟩

/-- A bit of NZ as it is read. -/
theorem getLsbD_nzRead (m : Memory) (busy : Bool) (draw : Word) {k : Nat} (hk : k < 32) :
    (nzRead m busy draw).getLsbD k =
      if nzReserved k then false else if busy then draw.getLsbD k else (nzBit m k).getD (draw.getLsbD k) := by
  unfold nzRead; rw [getLsbD_wordOfBits _ hk]

theorem mem_blockAddrs (c : Comp) (b a : Nat) :
    a ∈ blockAddrs c b ↔ ∃ u v, u < 4 ∧ v < 4 ∧ a = coefAddr c.coef b u v := by
  unfold blockAddrs
  simp only [List.mem_map, List.mem_range]
  constructor
  · rintro ⟨k, hk, rfl⟩; exact ⟨k / 4, k % 4, by omega, by omega, rfl⟩
  · rintro ⟨u, v, hu, hv, rfl⟩
    exact ⟨4 * u + v, by omega, by rw [show (4 * u + v) / 4 = u by omega, show (4 * u + v) % 4 = v by omega]⟩

theorem mem_blockAcAddrs (c : Comp) (b a : Nat) :
    a ∈ blockAcAddrs c b ↔ ∃ u v, u < 4 ∧ v < 4 ∧ ¬ (u = 0 ∧ v = 0) ∧ a = coefAddr c.coef b u v := by
  unfold blockAcAddrs
  simp only [List.mem_map, List.mem_range]
  constructor
  · rintro ⟨k, hk, rfl⟩; exact ⟨(k + 1) / 4, (k + 1) % 4, by omega, by omega, by omega, rfl⟩
  · rintro ⟨u, v, hu, hv, huv, rfl⟩
    exact ⟨4 * u + v - 1, by omega, by
      rw [show (4 * u + v - 1 + 1) / 4 = u by omega, show (4 * u + v - 1 + 1) % 4 = v by omega]⟩

theorem mem_acAddrs (c : Comp) (a : Nat) :
    a ∈ acAddrs c ↔ ∃ b u v, b < c.side * c.side ∧ u < 4 ∧ v < 4 ∧ ¬ (u = 0 ∧ v = 0) ∧ a = coefAddr c.coef b u v := by
  unfold acAddrs
  simp only [List.mem_flatMap, List.mem_range, mem_blockAcAddrs]
  constructor
  · rintro ⟨b, hb, u, v, h⟩; exact ⟨b, u, v, hb, h⟩
  · rintro ⟨b, u, v, hb, h⟩; exact ⟨b, hb, u, v, h⟩

theorem mem_coefAddrs (c : Comp) (a : Nat) :
    a ∈ coefAddrs c ↔ ∃ b u v, b < c.side * c.side ∧ u < 4 ∧ v < 4 ∧ a = coefAddr c.coef b u v := by
  unfold coefAddrs
  simp only [List.mem_flatMap, List.mem_range, mem_blockAddrs]
  constructor
  · rintro ⟨b, hb, u, v, h⟩; exact ⟨b, u, v, hb, h⟩
  · rintro ⟨b, u, v, hb, h⟩; exact ⟨b, hb, u, v, h⟩

theorem mem_dcAddrs (c : Comp) (a : Nat) : a ∈ dcAddrs c ↔ ∃ i j, i < c.side ∧ j < c.side ∧ a = dcAddr c i j := by
  unfold dcAddrs
  simp only [List.mem_map, List.mem_range]
  constructor
  · rintro ⟨k, hk, rfl⟩
    exact ⟨k / c.side, k % c.side, Nat.div_lt_of_lt_mul hk, Nat.mod_lt _ c.side_pos, by
      unfold dcAddr; rw [Nat.div_add_mod]⟩
  · rintro ⟨i, j, hi, hj, rfl⟩; exact ⟨_, blockIndex_lt hi hj, rfl⟩

end Sys2Proof.Machine
end

