-- ==== Sys2Proof/Laws/PerInstr.lean ====
section
/-! SUPPORT. Per instruction: the encoder agrees with the mask and the match of its row in spec/opcode_table.json. -/

namespace Sys2Proof.Laws.TableMatch

/-- The "mask" of an instruction's row in spec/opcode_table.json: the bits that are no operand. -/
def tableMask : Instr → Word
  | .nop | .fwdL16 | .invL16 | .rtL16 | .pcmCopy | .clrCoef => 0xFFFFFFFF
  | .fwdL4 _ | .invL4 _ | .rtL4 _ => 0xFFFFFF0F
  | .fwdC8 _ | .invC8 _ | .rtC8 _ => 0xFFFFFEFF

/-- The "match" of an instruction's row in spec/opcode_table.json. -/
def tableMatch : Instr → Word
  | .nop => 0x00000000
  | .fwdL4 _ => 0x00000001
  | .invL4 _ => 0x00000002
  | .rtL4 _ => 0x00000003
  | .fwdL16 => 0x00000004
  | .invL16 => 0x00000005
  | .rtL16 => 0x00000006
  | .fwdC8 _ => 0x00000007
  | .invC8 _ => 0x00000008
  | .rtC8 _ => 0x00000009
  | .pcmCopy => 0x0000000A
  | .clrCoef => 0x0000000B

/-- The word of the instruction carries its row's fixed bits, for every value of its operand. -/
def Statement (i : Instr) : Prop := encode i &&& tableMask i = tableMatch i

theorem nop : Statement .nop := by unfold Statement; decide

theorem fwdL4 (blk : Fin 16) : Statement (.fwdL4 blk) := by unfold Statement; revert blk; decide

theorem invL4 (blk : Fin 16) : Statement (.invL4 blk) := by unfold Statement; revert blk; decide

theorem rtL4 (blk : Fin 16) : Statement (.rtL4 blk) := by unfold Statement; revert blk; decide

theorem fwdL16 : Statement .fwdL16 := by unfold Statement; decide

theorem invL16 : Statement .invL16 := by unfold Statement; decide

theorem rtL16 : Statement .rtL16 := by unfold Statement; decide

theorem fwdC8 (plane : Plane) : Statement (.fwdC8 plane) := by unfold Statement; cases plane <;> decide

theorem invC8 (plane : Plane) : Statement (.invC8 plane) := by unfold Statement; cases plane <;> decide

theorem rtC8 (plane : Plane) : Statement (.rtC8 plane) := by unfold Statement; cases plane <;> decide

theorem pcmCopy : Statement .pcmCopy := by unfold Statement; decide

theorem clrCoef : Statement .clrCoef := by unfold Statement; decide

end Sys2Proof.Laws.TableMatch
end

