-- ==== Sys2Proof/Laws/Steps.lean ====
section
/-! SUPPORT. What a bus write and a host turn can do, each said once, and what they keep. -/

namespace Sys2Proof.Machine

/-- Everything a write can do, with the condition of each outcome (60_exceptions.md R203 to R206, 20_memory.md R63 to
R70). -/
theorem busWrite_inv (a : Offset) (w : Word) (d : Nat) (s : State) :
    ((a.toNat % 4 ≠ 0 ∨ ¬ mappedOffset a.toNat ∨ reconOffset a.toNat) ∧
      busWrite a w d s = s.raise (.write a w) .addrErr) ∨
    (a = 0x004 ∧ (s.status.busy = true ∨ ∀ i, decode w ≠ .ok i) ∧ busWrite a w d s = s.raise (.write a w) .cmdErr) ∨
    (a = 0x004 ∧ s.status.busy = false ∧ (∃ i, decode w = .ok i) ∧
      busWrite a w d s = (s.accept w d).respond (.write .ok)) ∨
    (a = 0x008 ∧ busWrite a w d s = State.respond { s with status := s.status.clear w } (.write .ok)) ∨
    (a = 0x010 ∧ busWrite a w d s = State.respond { s with irqEn := IrqEn.ofWord w } (.write .ok)) ∨
    (a ∈ [(0x000 : Offset), 0x00C, 0x014] ∧ busWrite a w d s = s.respond (.write .ok)) ∨
    (writableOffset a.toNat ∧ s.status.busy = true ∧ busWrite a w d s = s.raise (.write a w) .wbusyErr) ∨
    (writableOffset a.toNat ∧ a.toNat % 4 = 0 ∧ s.status.busy = false ∧
      busWrite a w d s = State.respond { s with mem := writeBufWord s.mem a.toNat w } (.write .ok)) := by
  by_cases herr : a.toNat % 4 ≠ 0 ∨ ¬ mappedOffset a.toNat ∨ reconOffset a.toNat
  · exact .inl ⟨herr, busWrite_error herr w d s⟩
  have ha : a.toNat % 4 = 0 := by omega
  have hm : mappedOffset a.toNat := by by_contra h; exact herr (.inr (.inl h))
  have hr : ¬ reconOffset a.toNat := fun h => herr (.inr (.inr h))
  by_cases h : 0x100 ≤ a.toNat
  · have e := busWrite_writable ha ⟨h, hm, hr⟩ w d s
    cases hb : s.status.busy with
    | true => rw [hb] at e; exact .inr (.inr (.inr (.inr (.inr (.inr (.inl ⟨⟨h, hm, hr⟩, rfl, e⟩))))))
    | false => rw [hb] at e; exact .inr (.inr (.inr (.inr (.inr (.inr (.inr ⟨⟨h, hm, hr⟩, ha, rfl, e⟩))))))
  · have hreg : ∃ r : Reg, a.toNat = r.offset := by
      unfold mappedOffset at hm
      rcases (show a.toNat = 0 ∨ a.toNat = 4 ∨ a.toNat = 8 ∨ a.toNat = 12 ∨ a.toNat = 16 ∨ a.toNat = 20 by omega) with
        h | h | h | h | h | h
      · exact ⟨.id, h⟩
      · exact ⟨.cmd, h⟩
      · exact ⟨.status, h⟩
      · exact ⟨.config, h⟩
      · exact ⟨.irqEn, h⟩
      · exact ⟨.nz, h⟩
    obtain ⟨r, hr⟩ := hreg
    have e := busWrite_reg hr w d s
    cases r with
    | id => exact .inr (.inr (.inr (.inr (.inr (.inl ⟨by rw [BitVec.eq_of_toNat_eq (y := (0x000 : Offset)) hr]; simp, e⟩)))))
    | config => exact .inr (.inr (.inr (.inr (.inr (.inl ⟨by rw [BitVec.eq_of_toNat_eq (y := (0x00C : Offset)) hr]; simp, e⟩)))))
    | nz => exact .inr (.inr (.inr (.inr (.inr (.inl ⟨by rw [BitVec.eq_of_toNat_eq (y := (0x014 : Offset)) hr]; simp, e⟩)))))
    | status => exact .inr (.inr (.inr (.inl ⟨BitVec.eq_of_toNat_eq hr, e⟩)))
    | irqEn => exact .inr (.inr (.inr (.inr (.inl ⟨BitVec.eq_of_toNat_eq hr, e⟩))))
    | cmd =>
      have ha4 : a = 0x004 := BitVec.eq_of_toNat_eq hr
      simp only [writeReg, writeCmd] at e
      cases hb : s.status.busy with
      | true => rw [hb] at e; exact .inr (.inl ⟨ha4, .inl rfl, e⟩)
      | false =>
        rw [hb] at e
        cases hd : decode w with
        | error x => rw [hd] at e; exact .inr (.inl ⟨ha4, .inr (fun i => by simp), e⟩)
        | ok i => rw [hd] at e; exact .inr (.inr (.inl ⟨ha4, rfl, ⟨i, rfl⟩, e⟩))

/-- Everything a read can do (20_memory.md R67): it changes the response, and ADDR_ERR where it raises it. -/
theorem busRead_inv (a : Offset) (draw : Word) (s : State) :
    ((a.toNat % 4 ≠ 0 ∨ ¬ mappedOffset a.toNat) ∧ busRead a draw s = s.raise (.read a) .addrErr) ∨
    ∃ x, busRead a draw s = s.respond (.read .ok x) := by
  by_cases h : a.toNat % 4 ≠ 0 ∨ ¬ mappedOffset a.toNat
  · exact .inl ⟨h, busRead_error h draw s⟩
  · rcases busRead_cases a draw s with e | ⟨x, e⟩
    · exfalso
      unfold busRead at e
      have ha : a.toNat % 4 = 0 := by omega
      have hm : mappedOffset a.toNat := by by_contra h2; exact h (.inr h2)
      rw [misaligned_eq_false ha] at e
      simp only [Bool.false_eq_true, if_false] at e
      split at e
      · rename_i hu; exact (targetOf_unmapped_iff_mapped ha).mp hu hm
      all_goals
        have := congrArg State.resp e
        simp [State.respond, State.raise, Txn.errResponse] at this
    · exact .inr ⟨x, e⟩

/-- The state at a host turn before its access: the countdown goes on. -/
def State.tick (s : State) : State := { s with countdown := s.countdown - 1 }

/-- Everything a host turn can do: nothing, one write, or one read (30_encoding.md R96, R98). -/
theorem hostTurn_cases (s : State) :
    (s.script[s.pos]? = none ∧ hostTurn s = s.tick) ∨
    (∃ off w, s.script[s.pos]? = some (.wr off w) ∧
      hostTurn s =
        { busWrite off w (Config.drawDelay s.draws) s.tick with draws := s.draws + 1, pos := s.pos + 1 }) ∨
    (∃ st off, s.script[s.pos]? = some st ∧ stmtTxn st = .read off ∧
      hostTurn s =
        { busRead off (Config.drawWord s.draws) s.tick with
          draws := s.draws + 1
          pos := stmtNext st s.pos (busRead off (Config.drawWord s.draws) s.tick).resp }) := by
  unfold hostTurn hostAccess
  change (_ ∧ (match s.script[s.pos]? with | none => _ | some st => _) = _) ∨ _
  cases h : s.script[s.pos]? with
  | none => exact .inl ⟨rfl, rfl⟩
  | some st =>
    cases st with
    | wr off w => exact .inr (.inl ⟨off, w, rfl, rfl⟩)
    | rd off => exact .inr (.inr ⟨_, off, rfl, rfl, rfl⟩)
    | poll off mask value => exact .inr (.inr ⟨_, off, rfl, rfl, rfl⟩)
    | bne off mask value target => exact .inr (.inr ⟨_, off, rfl, rfl, rfl⟩)

/-- A host turn whose statement reads, with the response its read got. -/
theorem hostTurn_of_read {s : State} {st : Stmt} {off : Offset} {r : Option Response} (hs : s.script[s.pos]? = some st)
    (hst : stmtTxn st = .read off) (hr : (busRead off (Config.drawWord s.draws) s.tick).resp = r) :
    hostTurn s =
      { busRead off (Config.drawWord s.draws) s.tick with draws := s.draws + 1, pos := stmtNext st s.pos r } := by
  rcases hostTurn_cases s with ⟨e, -⟩ | ⟨off', w, e, -⟩ | ⟨st', off', e, e', h⟩
  · rw [hs] at e; simp at e
  · rw [hs] at e; injection e with e; rw [e] at hst; simp [stmtTxn] at hst
  · rw [hs] at e; injection e with e; subst e
    rw [hst] at e'; injection e' with e'; subst e'
    rw [h, hr]

/-- A read answers with data (20_memory.md R64). -/
theorem busRead_resp (a : Offset) (draw : Word) (s : State) : ∃ code x, (busRead a draw s).resp = some (.read code x) := by
  rcases busRead_inv a draw s with ⟨-, h⟩ | ⟨x, h⟩ <;> rw [h]
  · exact ⟨.err, 0, rfl⟩
  · exact ⟨.ok, x, rfl⟩

/-- A host turn keeps the parameters, the script and the coming levels of `rst`. -/
theorem hostTurn_kept (s : State) :
    (hostTurn s).cfg = s.cfg ∧ (hostTurn s).script = s.script ∧ (hostTurn s).rst = s.rst := by
  rcases hostTurn_cases s with ⟨-, e⟩ | ⟨off, w, -, e⟩ | ⟨st, off, -, -, e⟩ <;> rw [e]
  · exact ⟨rfl, rfl, rfl⟩
  · rcases busWrite_inv off w (Config.drawDelay s.draws) s.tick with
      ⟨-, h⟩ | ⟨-, -, h⟩ | ⟨-, -, -, h⟩ | ⟨-, h⟩ | ⟨-, h⟩ | ⟨-, h⟩ | ⟨-, -, h⟩ | ⟨-, -, -, h⟩ <;> rw [h] <;>
      exact ⟨rfl, rfl, rfl⟩
  · rcases busRead_inv off (Config.drawWord s.draws) s.tick with ⟨-, h⟩ | ⟨x, h⟩ <;> rw [h] <;> exact ⟨rfl, rfl, rfl⟩

/-- A host turn is no reset edge (70_reset_and_hazards.md R232). -/
@[simp] theorem hostTurn_resetSeen (s : State) : (hostTurn s).resetSeen = s.resetSeen := by
  rcases hostTurn_cases s with ⟨-, e⟩ | ⟨off, w, -, e⟩ | ⟨st, off, -, -, e⟩ <;> rw [e]
  · rfl
  · rcases busWrite_inv off w (Config.drawDelay s.draws) s.tick with
      ⟨-, h⟩ | ⟨-, -, h⟩ | ⟨-, -, -, h⟩ | ⟨-, h⟩ | ⟨-, h⟩ | ⟨-, h⟩ | ⟨-, -, h⟩ | ⟨-, -, -, h⟩ <;> rw [h] <;> rfl
  · rcases busRead_inv off (Config.drawWord s.draws) s.tick with ⟨-, h⟩ | ⟨x, h⟩ <;> rw [h] <;> rfl

/-- A host turn while a command is in flight keeps it (20_memory.md R68, R71). -/
theorem hostTurn_busy {s : State} (hb : s.status.busy = true) :
    (hostTurn s).cmd = s.cmd ∧ (hostTurn s).mem = s.mem ∧ (hostTurn s).status.busy = true ∧
      (hostTurn s).countdown = s.countdown - 1 := by
  have hb' : s.tick.status.busy = true := hb
  rcases hostTurn_cases s with ⟨-, e⟩ | ⟨off, w, -, e⟩ | ⟨st, off, -, -, e⟩ <;> rw [e]
  · exact ⟨rfl, rfl, hb, rfl⟩
  · rcases busWrite_inv off w (Config.drawDelay s.draws) s.tick with
      ⟨-, h⟩ | ⟨-, -, h⟩ | ⟨-, h0, -⟩ | ⟨-, h⟩ | ⟨-, h⟩ | ⟨-, h⟩ | ⟨-, -, h⟩ | ⟨-, -, h0, -⟩
    · rw [h]; exact ⟨rfl, rfl, hb, rfl⟩
    · rw [h]; exact ⟨rfl, rfl, hb, rfl⟩
    · rw [hb'] at h0; exact Bool.noConfusion h0
    · rw [h]; exact ⟨rfl, rfl, hb, rfl⟩
    · rw [h]; exact ⟨rfl, rfl, hb, rfl⟩
    · rw [h]; exact ⟨rfl, rfl, hb, rfl⟩
    · rw [h]; exact ⟨rfl, rfl, hb, rfl⟩
    · rw [hb'] at h0; exact Bool.noConfusion h0
  · rcases busRead_inv off (Config.drawWord s.draws) s.tick with ⟨-, h⟩ | ⟨x, h⟩ <;> rw [h] <;> exact ⟨rfl, rfl, hb, rfl⟩

/-! ### Steps and runs -/

/-- A run is a step, then the rest of the run. -/
theorem run_succ (M : Host.Core) (k : Nat) (s : M.State) :
    M.run (k + 1) s = match M.step s with
      | .next s' => M.run k s'
      | .fault r => .fault r
      | .refused r => .refused r := rfl

/-- A run goes on from the next state. -/
theorem run_succ_of_next {s t : State} (h : step s = .next t) (k : Nat) :
    Sys2Proof.core.run (k + 1) s = Sys2Proof.core.run k t := by
  have e := run_succ Sys2Proof.core k s
  have hs : Sys2Proof.core.step s = .next t := h
  rw [hs] at e
  exact e

/-- The engine's completion step as a step of the machine (20_memory.md R72). -/
theorem step_engine {s : State} {i : Instr} (hr : s.resetDue = false) (hb : s.status.busy = true) (hc : s.countdown = 0)
    (hd : decode s.cmd = .ok i) : step s = exec i s.dropEdge := by
  unfold step agentStep engineStep
  rw [hr, engineTurn_dropEdge, show s.engineTurn = true by unfold State.engineTurn; rw [hb, hc]; rfl]
  simp only [State.dropEdge_cmd, hd, Bool.false_eq_true, if_false, if_true]

/-- A host turn as a step of the machine. -/
theorem step_host {s : State} (hr : s.resetDue = false) (h : s.status.busy = false ∨ s.countdown ≠ 0) :
    step s = .next (hostTurn s.dropEdge) := by
  have he : s.engineTurn = false := by unfold State.engineTurn; rcases h with h | h <;> simp [h]
  unfold step agentStep
  rw [hr, engineTurn_dropEdge, he]
  rfl

/-- Exactly a reset edge makes the machine one that has seen a reset edge. -/
theorem step_resetSeen {s t : State} (h : step s = .next t) : t.resetSeen = (s.resetSeen || s.resetDue) := by
  rcases step_cases h with ⟨hr, rfl⟩ | ⟨hr, -, i, -, rfl⟩ | ⟨hr, -, rfl⟩ <;> rw [hr] <;> simp

/-! ### The transactions of a run -/

/-- A step that answers a next state issues what it offers, then the rest of the run goes on. -/
theorem issued_succ {s t : State} (h : step s = .next t) (n : Nat) :
    issued (n + 1) s = s.offered.toList ++ issued n t := by
  rw [issued, h]

/-- What a host turn issues. -/
theorem offered_host {s : State} (hr : s.resetDue = false) (h : s.status.busy = false ∨ s.countdown ≠ 0) :
    s.offered = (s.script[s.pos]?).map stmtTxn := by
  have he : s.engineTurn = false := by unfold State.engineTurn; rcases h with h | h <;> simp [h]
  unfold State.offered; rw [hr, he]; rfl

/-- A reset edge and the engine's step issue nothing. -/
theorem offered_silent {s : State} (h : s.resetDue = true ∨ (s.status.busy = true ∧ s.countdown = 0)) :
    s.offered = none := by
  unfold State.offered State.engineTurn; rcases h with h | ⟨h, h'⟩ <;> simp [*]

end Sys2Proof.Machine
end

