-- ==== Sys2Proof/Tests/Slice0.lean ====
section
/-! SUPPORT. Tests against values from outside the model: the words of 30_encoding.md R92 and R95 written out, and the vectors
of spec/95_test_vectors.md, each cited by its id. After them one witness per statement that has hypotheses. -/

namespace Sys2Proof.Tests

-- One theorem after another: each kernel evaluation waits on a thread of its own, and many threads exhaust the memory limit.
set_option Elab.async false

open Sys2Proof Sys2Proof.Machine

/-! ### Well-formedness: ill-formed terms are refused -/

theorem test_wf_block_out_of_range : AsmCommand.wf ⟨.FWD_L4, some (.number 16)⟩ = false := by decide

theorem test_wf_missing_operand : AsmCommand.wf ⟨.INV_C8, none⟩ = false := by decide

theorem test_wf_operand_on_nop : AsmCommand.wf ⟨.NOP, some (.number 0)⟩ = false := by decide

theorem test_wf_plane_for_block : AsmCommand.wf ⟨.RT_L4, some (.plane .cb)⟩ = false := by decide

theorem test_wf_number_for_plane : AsmCommand.wf ⟨.RT_C8, some (.number 0)⟩ = false := by decide

theorem test_wf_last_block : AsmCommand.wf ⟨.RT_L4, some (.number 15)⟩ = true := by decide

theorem test_wf_script_target : scriptWf [.rd 0x008, .bne 0x008 1 1 3] = false := by decide

theorem test_wf_script : scriptWf [.rd 0x008, .bne 0x008 1 1 0] = true := by decide

/-- QP_C 39 needs a chroma index of at least 48, more than 12 above QP_Y 0 (00_scope.md R7, R8). -/
theorem test_config_ill_formed : configOk 0 39 = false := by decide

theorem test_config_qpY_out_of_range : configOk 52 39 = false := by decide

theorem test_config_well_formed : configOk 28 28 = true ∧ configOk 51 39 = true ∧ configOk 0 0 = true := by decide

/-! ### Decoding: every constructor by a word written out from 30_encoding.md R90 to R92 -/

theorem test_decode_nop : decode 0b00000000000000000000000000000000 = .ok .nop := by decide

theorem test_decode_fwdL4 : decode 0b00000000000000000000000001110001 = .ok (.fwdL4 7) := by decide

/-- E4. -/
theorem test_decode_invL4 : decode 0b00000000000000000000000001010010 = .ok (.invL4 5) := by decide

/-- E3. -/
theorem test_decode_rtL4 : decode 0b00000000000000000000000011110011 = .ok (.rtL4 15) := by decide

theorem test_decode_fwdL16 : decode 0b00000000000000000000000000000100 = .ok .fwdL16 := by decide

theorem test_decode_invL16 : decode 0b00000000000000000000000000000101 = .ok .invL16 := by decide

theorem test_decode_rtL16 : decode 0b00000000000000000000000000000110 = .ok .rtL16 := by decide

/-- E8. -/
theorem test_decode_fwdC8 : decode 0b00000000000000000000000100000111 = .ok (.fwdC8 .cr) := by decide

theorem test_decode_invC8 : decode 0b00000000000000000000000000001000 = .ok (.invC8 .cb) := by decide

/-- E10. -/
theorem test_decode_rtC8 : decode 0b00000000000000000000000100001001 = .ok (.rtC8 .cr) := by decide

theorem test_decode_pcmCopy : decode 0b00000000000000000000000000001010 = .ok .pcmCopy := by decide

theorem test_decode_clrCoef : decode 0b00000000000000000000000000001011 = .ok .clrCoef := by decide

/-- E6, E7, E9, E12 to E16, ER9: the invalid words. -/
theorem test_decode_invalid :
    ([0x104, 0x101, 0x17, 0x1B, 0xC, 0xD, 0xE, 0xF, 0x200, 0x80000003, 0xFFFFFFFF, 0x14] : List Word).all
      (fun w => (decode w).toOption == none) = true := by decide

/-- 30_encoding.md R92, R93: a reserved OP, and a nonzero field of a known OP, are told apart. -/
theorem test_decode_reasons : decode 0xC = .error .reservedOp ∧ decode 0x17 = .error .nonzeroField := by decide

/-- The mnemonics below section 2.1. -/
theorem test_assembler_words :
    AsmCommand.word ⟨.RT_L4, some (.number 5)⟩ = some 0x53 ∧ AsmCommand.word ⟨.INV_C8, some (.plane .cr)⟩ = some 0x108 ∧
      AsmCommand.word ⟨.FWD_C8, some (.plane .cb)⟩ = some 0x7 ∧ AsmCommand.word ⟨.CLR_COEF, none⟩ = some 0xB := by decide

/-- Program P4's and P3's forms: a pseudo-statement and a branch forward to a label. -/
theorem test_assemble_branch :
    assemble [.command ⟨.PCM_COPY, none⟩, .bne 0x008 4 4 7, .wait, .clrst, .label 7, .rd 0x500 (some 0x03020100)] =
      some [.wr 0x004 0xA, .bne 0x008 4 4 4, .poll 0x008 1 0, .wr 0x008 0x1E, .rd 0x500] := by decide

theorem test_assemble_missing_label : assemble [.bne 0x008 4 4 7] = none := by decide

theorem test_table_word : decodeTableWord 32 0x00000053 = some (.rtL4 5) ∧ decodeTableWord 32 0x0000000C = none := by decide

/-! ### Small states -/

/-- The configuration of the vectors: QP_Y = QP_C = 28. -/
def cfg28 : Config := ⟨28, 28, by decide⟩

/-- QP_Y 0 with QP_C 0, and QP_Y 51 with QP_C 39. -/
def cfg0 : Config := ⟨0, 0, by decide⟩

def cfg51 : Config := ⟨51, 39, by decide⟩

/-- An idle machine with the given configuration and buffers. -/
def idle (cfg : Config) (m : Memory) : State := { State.reset with cfg := cfg, mem := m }

/-- The bytes `l` from the offset `base` on. -/
def row (base : Nat) (l : List Byte) : Memory := Memory.cells base l.length fun k => l[k]?

/-- The levels `l` from the offset `base` on. -/
def levels (base : Nat) (l : List Int) : Memory := Memory.fillLevels [] base l.length fun k => l[k]?.map (BitVec.ofInt 16)

/-- A 4×4 block of a luma buffer at the offset of its first sample. -/
def block (base : Nat) (r0 r1 r2 r3 : List Byte) : Memory :=
  row base r0 ++ row (base + 16) r1 ++ row (base + 32) r2 ++ row (base + 48) r3

/-- Block T's ORIG with its first sample at `base`. -/
def blockT (base : Nat) : Memory := block base [120, 140, 160, 180] [100, 120, 140, 160] [80, 100, 120, 140] [60, 80, 100, 120]

def flatBlock (base : Nat) (v : Byte) : Memory := block base [v, v, v, v] [v, v, v, v] [v, v, v, v] [v, v, v, v]

/-- The buffers after a command. -/
def memAfter (i : Instr) (s : State) : Memory :=
  match exec i s with
  | .next t => t.mem
  | .fault _ => []
  | .refused _ => []

/-- The state after a step. -/
def stateAfter (s : State) : Option State :=
  match step s with
  | .next t => some t
  | .fault _ => none
  | .refused _ => none

def readLevels (m : Memory) (base n : Nat) : List (Option Int) := (List.range n).map fun k => (m.getLevel (base + 2 * k)).map BitVec.toInt

def readBytes (m : Memory) (base n : Nat) : List (Option Nat) := (List.range n).map fun k => (m.get (base + k)).map BitVec.toNat

/-! ### Commands -/

/-- X3. -/
theorem test_nop_status : (stateAfter ((idle cfg28 []).withFetchWord 32 0)).map (fun t => (t.cmd, t.status)) =
    some (0, ⟨false, true, false, false, false⟩) := by decide +kernel

/-- F3. -/
theorem test_fwdL4_F3 : readLevels (memAfter (.fwdL4 0) (idle cfg28 (blockT 0x100 ++ flatBlock 0x300 100))) 0x800 16 =
    ([5, -5, 0, -1, 5, 0, 0, 0, 0, 0, 0, 0, 1, 0, 0, 0].map some) := by decide +kernel

/-- F10: block 7 is at x 12..15, y 4..7, and its levels at 0x8E0. -/
theorem test_fwdL4_F10 :
    readLevels (memAfter (.fwdL4 7) (idle cfg28 (blockT 0x14C ++ flatBlock 0x34C 100))) 0x8DE 6 =
      [none, some 5, some (-5), some 0, some (-1), some 5] := by decide +kernel

/-- I5: both clamp bounds, from F6's levels. -/
theorem test_invL4_I5 :
    readBytes (memAfter (.invL4 0) (idle cfg0 (flatBlock 0x300 0 ++
      levels 0x800 [816, 0, 0, 0, 0, 81, 0, 245, 0, 0, 0, 0, 0, 245, 0, 734]))) 0x500 5 =
      [some 235, some 16, some 235, some 16, none] := by decide +kernel

/-- I6: the shifts round toward minus infinity. -/
theorem test_invL4_I6 :
    readBytes (memAfter (.invL4 0) (idle cfg0 (flatBlock 0x300 128 ++
      levels 0x800 [0, -12, 0, 0, 0, 0, 0, 0, 0, 0, 0, 0, 0, 0, 0, 0]))) 0x530 4 =
      [some 126, some 127, some 129, some 130] := by decide +kernel

/-- T1, program P1: the levels and the second row of block 5, whose first sample is at x 4, y 4. -/
theorem test_rtL4_T1 :
    readLevels (memAfter (.rtL4 5) (idle cfg28 (blockT 0x144 ++ flatBlock 0x344 100))) 0x8A0 4 =
        [some 5, some (-5), some 0, some (-1)] ∧
      readBytes (memAfter (.rtL4 5) (idle cfg28 (blockT 0x144 ++ flatBlock 0x344 100))) 0x554 4 =
        [some 100, some 120, some 135, some 155] := by decide +kernel

/-- F19: the luma DC path on the gradient, and an AC level. -/
theorem test_fwdL16_F19 :
    (let o : Nat → Nat → Int := fun x y => 40 + 8 * x + 4 * y
     let p : Nat → Nat → Int := fun _ _ => 128
     planeDc 4 o p 2 1 = -96 ∧ lumaDcForward (planeDc 4 o p) 0 1 = -4096 ∧
      quantDC (lumaDcForward (planeDc 4 o p) 0 1) 28 = -32 ∧ quantDC (lumaDcForward (planeDc 4 o p) 3 0) 28 = -8 ∧
      quant (planeCore 4 o p 6 0 1) 28 0 1 = -2 ∧ quant (planeCore 4 o p 6 1 0) 28 1 0 = -1) := by decide +kernel

/-- 40_forward.md R111: with ORIG unwritten every level of FWD_L16 is unwritten, a level written before too. -/
theorem test_fwdL16_unwritten : (memAfter .fwdL16 (idle cfg28 (levels 0xA00 [1]))).get 0xA00 = none := by decide +kernel

/-- I12 to I18: `dcY` from `DC_Y[0][0]` at each QP. -/
theorem test_invL16_I12_to_I18 :
    (let d : Int → Mat := fun v i j => if i = 0 ∧ j = 0 then v else 0
     lumaDcInverse 0 (d 512) 0 0 = 1280 ∧ lumaDcInverse 5 (d 284) 3 1 = 1278 ∧ lumaDcInverse 6 (d 256) 2 2 = 1280 ∧
      lumaDcInverse 11 (d 142) 1 3 = 1278 ∧ lumaDcInverse 12 (d 128) 0 2 = 1280 ∧ lumaDcInverse 28 (d 20) 3 3 = 1280 ∧
      lumaDcInverse 51 (d 1) 1 0 = 896) := by decide +kernel

/-- I20: samples of the gradient's reconstruction, in blocks 0 and 7. -/
theorem test_invL16_I20 :
    (let dc : Mat := table [[2, -32, 0, -16], [-16, 0, 0, 0], [0, 0, 0, 0], [-8, 0, 0, 0]]
     let c : Nat → Mat := fun _ => table [[0, -2, 0, 0], [-1, 0, 0, 0], [0, 0, 0, 0], [0, 0, 0, 0]]
     let d : Nat → Mat := scaledWithDc 28 4 (lumaDcInverse 28 dc) c
     clampedSample .y 128 (itrans (d 0) 0 0) = 43 ∧ clampedSample .y 128 (itrans (d 0) 1 3) = 66 ∧
      clampedSample .y 128 (itrans (d 7) 0 2) = 170 ∧ clampedSample .y 128 (itrans (d 15) 3 3) = 217) := by decide +kernel

/-- T5: clamped at 235. -/
theorem test_rtL16_T5 :
    (let dc : Mat := fun m n => quantDC (lumaDcForward (planeDc 4 (fun _ _ => 250) (fun _ _ => 230)) m n) 28
     dc 0 0 = 20 ∧ clampedSample .y 230 (itrans (scaledWithDc 28 4 (lumaDcInverse 28 dc) (fun _ _ _ => 0) 9) 1 2) = 235) := by
  decide +kernel

/-- 41_inverse.md R146 in RT_L16: unwritten inputs make a RECON sample unwritten. -/
theorem test_rtL16_unwritten : (memAfter .rtL16 (idle cfg28 (row 0x500 [1]))).get 0x500 = none := by decide +kernel

/-- A chroma plane of one value at `base`. -/
def plane8 (base : Nat) (v : Byte) : Memory := Memory.cells base 64 fun _ => some v

/-- F20, F23: `DC_CR[0][0] = -14`. -/
theorem test_fwdC8_F23 :
    ((memAfter (.fwdC8 .cr) (idle cfg28 (plane8 0x240 100 ++ plane8 0x440 128))).getLevel 0xB80).map BitVec.toInt = some (-14) := by
  decide +kernel

/-- F22: the chroma DC path on the gradient at QP_C 29. -/
theorem test_fwdC8_F22 :
    (let o : Nat → Nat → Int := fun x y => 60 + 10 * x + 5 * y
     let p : Nat → Nat → Int := fun _ _ => 128
     chromaDcForward (planeDc 2 o p) 0 1 = -1280 ∧ quantDC (chromaDcForward (planeDc 2 o p) 0 1) 29 = -9 ∧
      quantDC (chromaDcForward (planeDc 2 o p) 1 0) 29 = -4 ∧ quant (planeCore 2 o p 3 0 1) 29 0 1 = -2) := by decide +kernel

/-- I25: the blocks of F21 come back. -/
theorem test_invC8_I25 :
    (let dc : Mat := table [[-4, -5], [-10, 0]]
     let d : Nat → Mat := scaledWithDc 28 2 (chromaDcInverse 28 dc) (fun _ _ _ => 0)
     (List.range 4).map (fun b => clampedSample .cb 128 (itrans (d b) 2 1)) = [90, 110, 130, 150]) := by decide +kernel

/-- F17: 238 is inside the chroma range. -/
theorem test_invC8_F17 :
    (memAfter (.invC8 .cb) (idle cfg28 (plane8 0x400 238 ++ levels 0xA40 (List.replicate 68 0)))).get 0x607 = some 238 := by
  decide +kernel

/-- T6: clamped at 240. -/
theorem test_rtC8_T6 :
    (let dc : Mat := fun m n => quantDC (chromaDcForward (planeDc 2 (fun _ _ => 250) (fun _ _ => 240)) m n) 28
     dc 0 0 = 5 ∧ clampedSample .cb 240 (itrans (scaledWithDc 28 2 (chromaDcInverse 28 dc) (fun _ _ _ => 0) 3) 0 3) = 240) := by
  decide +kernel

/-- The two chroma planes are apart (10_state.md R32): RT_C8 cr leaves a Cb sample. -/
theorem test_rtC8_other_plane : (memAfter (.rtC8 .cr) (idle cfg28 (row 0x600 [9]))).get 0x600 = some 9 := by decide +kernel

/-- X1: no clamp, and an unwritten sample is copied as unwritten (program P3). -/
theorem test_pcmCopy_X1 :
    (let m := memAfter .pcmCopy (idle cfg28 (row 0x100 [0] ++ row 0x23F [255] ++ row 0x25B [17] ++ row 0x501 [7]))
     m.get 0x500 = some 0 ∧ m.get 0x501 = none ∧ m.get 0x63F = some 255 ∧ m.get 0x65B = some 17) := by decide +kernel

/-- X2, Z1. -/
theorem test_clrCoef_X2 :
    (let m := memAfter .clrCoef (idle cfg28 (row 0x100 [3] ++ levels 0x800 [-1]))
     m.getLevel 0x800 = some 0 ∧ m.getLevel 0xB86 = some 0 ∧ m.get 0x100 = some 3 ∧ m.get 0xA20 = none) := by decide +kernel

/-- Q1 to Q5. -/
theorem test_quantiser_thresholds :
    quant 42 28 0 0 = 0 ∧ quant 43 28 0 0 = 1 ∧ quant (-43) 28 0 0 = -1 ∧ quant 127 28 0 0 = 2 ∧ quant 128 28 0 0 = 2 ∧
      quant 66 28 0 1 = 0 ∧ quant 67 28 0 1 = 1 ∧ quant 104 28 1 1 = 0 ∧ quant 105 28 1 1 = 1 ∧
      quantDC 85 28 = 0 ∧ quantDC 86 28 = 1 ∧ quantDC (-86) 28 = -1 := by decide +kernel

/-- I9 to I11: the widest levels. -/
theorem test_deq_extremes : deq 32767 51 0 0 = 117436928 ∧ deq (-32768) 51 0 0 = -117440512 ∧ deq (-32768) 51 3 3 = -192937984 := by
  decide +kernel

/-! ### The bus -/

def readResp (s : State) (a : Offset) (draw : Word) : Option Response := (busRead a draw s).resp

/-- B1, B2. -/
theorem test_bus_id_config :
    readResp (idle cfg28 []) 0x000 5 = some (.read .ok 0x51444354) ∧
      readResp (idle cfg28 []) 0x00C 5 = some (.read .ok 0x00001C1C) := by decide +kernel

/-- B4. -/
theorem test_bus_sample_layout : readBytes (busWrite 0x100 0x04030201 0 (idle cfg28 [])).mem 0x100 4 =
    [some 1, some 2, some 3, some 4] := by decide +kernel

/-- B5, B6. -/
theorem test_bus_level_layout :
    readLevels (busWrite 0x800 0x8000FFFF 0 (idle cfg28 [])).mem 0x800 2 = [some (-1), some (-32768)] ∧
      readResp (busWrite 0x800 0x8000FFFF 0 (idle cfg28 [])) 0x800 5 = some (.read .ok 0x8000FFFF) ∧
      readLevels (busWrite 0xAC4 0x00020001 0 (idle cfg28 [])).mem 0xAC4 2 = [some 1, some 2] := by decide +kernel

/-- B7 to B11. -/
theorem test_bus_address_errors :
    ([0xB86, 0xA20, 0x500] : List Offset).all (fun a =>
        (busWrite a 0x12345678 0 (idle cfg28 [])).resp == some (.write .err) &&
          (busWrite a 0x12345678 0 (idle cfg28 [])).status == ⟨false, false, false, true, false⟩) = true ∧
      ([0x002, 0x018] : List Offset).all (fun a => readResp (idle cfg28 []) a 5 == some (.read .err 0)) = true := by
  decide +kernel

/-- B12: an unwritten word reads as the draw; a half-written one in its lane (10_state.md R35 a). -/
theorem test_bus_unwritten_reads :
    readResp (idle cfg28 []) 0x500 0xDEADBEEF = some (.read .ok 0xDEADBEEF) ∧
      readResp (idle cfg28 (row 0x101 [7])) 0x100 0xDEADBEEF = some (.read .ok 0xDEAD07EF) := by decide +kernel

/-- B13 to B16. -/
theorem test_bus_status_irq :
    (let s : State := { idle cfg28 [] with status := ⟨false, true, true, true, true⟩ }
     (busWrite 0x008 0x8 0 s).status.word = 0x16 ∧
      State.irq { s with status := ⟨false, false, true, false, true⟩, irqEn := ⟨true, false⟩ } = false ∧
      State.irq { s with status := ⟨false, false, true, false, true⟩, irqEn := ⟨false, true⟩ } = true ∧
      State.irq { s with status := ⟨false, true, false, false, false⟩, irqEn := ⟨true, false⟩ } = true) := by decide +kernel

/-- B17. -/
theorem test_bus_irqEn : readResp (busWrite 0x010 0xFFFFFFFF 0 (idle cfg28 [])) 0x010 5 = some (.read .ok 3) := by decide +kernel

/-- A machine with NOP in flight, three host turns before its completion. -/
def busyNop : State := { idle cfg28 [] with status := ⟨true, false, false, false, false⟩, countdown := 3 }

/-- ER1 to ER5. -/
theorem test_bus_errors :
    (busWrite 0x004 0xC 0 (idle cfg28 [])).status = ⟨false, false, true, false, false⟩ ∧
      (busWrite 0x004 0x0 0 busyNop).status = ⟨true, false, true, false, false⟩ ∧
      (busWrite 0x100 0x0 0 busyNop).status = ⟨true, false, false, false, true⟩ ∧
      (busWrite 0x502 0x0 0 busyNop).status = ⟨true, false, false, true, false⟩ ∧
      (busWrite 0x500 0x0 0 busyNop).status = ⟨true, false, false, true, false⟩ := by decide +kernel

/-- ER6 to ER8. -/
theorem test_bus_busy_accesses :
    readResp busyNop 0x100 0x1234 = some (.read .ok 0x1234) ∧ readResp busyNop 0x008 0 = some (.read .ok 1) ∧
      (busWrite 0x008 0x2 0 busyNop).status = ⟨true, false, false, false, false⟩ := by decide +kernel

/-- Z2: FWD_L4 0 on block T sets Y_NZ[0] and bit 0 of CBP_LUMA; block 1 stays 0. -/
theorem test_nz_Z2 :
    (let m := levels 0x800 ([5, -5, 0, -1, 5, 0, 0, 0, 0, 0, 0, 0, 1, 0, 0, 0] ++ List.replicate 80 0)
     nzBit m 0 = some true ∧ nzBit m 1 = some false ∧ nzBit m 24 = some true ∧ nzBit m 25 = none) := by decide +kernel

/-- Z7: CB_DC_NZ counts the DC levels, and CB_AC_NZ no `[b][0][0]` (10_state.md R42). -/
theorem test_nz_dc_ac :
    dcNz (levels 0xAC0 [0, 0, 0, -14]) .cb = some true ∧ acNz (levels 0xA40 (-7 :: List.replicate 63 0)) .cb = some false := by
  decide +kernel

/-! ### Reset -/

/-- Section 2.9: a reset edge during a command in flight. -/
theorem test_reset_edge :
    (stateAfter { busyNop with rst := [true], mem := row 0x100 [1] }).map
      (fun t => (t.cmd, t.status.word, t.irqEn.word, t.mem.get 0x100, t.irq)) = some (0, 0, 0, none, false) := by
  decide +kernel

/-- 70_reset_and_hazards.md R232, U10: before any reset edge ID and CONFIG too are unspecified. -/
theorem test_power_on_reads :
    readResp State.powerOn 0x000 0x1234 = some (.read .ok 0x1234) ∧ readResp State.powerOn 0x00C 0x1234 = some (.read .ok 0x1234) :=
  ⟨rfl, rfl⟩

/-! ### One step of the host and of the engine -/

/-- A CMD write in a script is accepted (20_memory.md R70) and the script goes on. -/
theorem test_step_accepts :
    (stateAfter { idle cfg28 [] with script := [.wr 0x004 0xA] }).map
      (fun t => (t.cmd, t.status, t.pos, t.resp)) =
      some (0xA, ⟨true, false, false, false, false⟩, 1, some (.write .ok)) := by decide +kernel

/-- Program P3's BNE: taken where CMD_ERR is 0, not taken where it is 1. -/
theorem test_step_bne :
    (stateAfter { idle cfg28 [] with script := [.bne 0x008 4 4 5] }).map State.pos = some 5 ∧
      (stateAfter { idle cfg28 [] with script := [.bne 0x008 4 4 5], status := ⟨false, false, true, false, false⟩ }).map
        State.pos = some 1 := by decide +kernel

/-- 30_encoding.md R98: one pair per iteration of a `POLL`. NOP completes after three host turns, so `WAIT` reads four times. -/
theorem test_issued_poll :
    issued 6 { busyNop with script := [.poll 0x008 1 0, .rd 0x500] } =
      [.read 0x008, .read 0x008, .read 0x008, .read 0x008, .read 0x500] := by decide +kernel

/-- Program P3: the taken `BNE` skips the statements of the rejected path. -/
theorem test_issued_bne :
    issued 3 { idle cfg28 [] with script := [.bne 0x008 4 4 3, .poll 0x008 1 0, .wr 0x008 0x1E, .poll 0x008 1 0, .rd 0x500] } =
      [.read 0x008, .read 0x008, .read 0x500] := by decide +kernel

/-- The word of `FWD_L4 0`, placed by `withFetchWord`, runs at the next step (F3). -/
theorem test_step_runs_word :
    (stateAfter ((idle cfg28 (blockT 0x100 ++ flatBlock 0x300 100)).withFetchWord 32 0x1)).map
      (fun t => (readLevels t.mem 0x800 2, t.status.done, t.cmd)) = some ([some 5, some (-5)], true, 0x1) := by
  decide +kernel

/-! ### Witnesses: for every statement that has hypotheses, states and operands that meet them together, each clause of a
statement with several clauses at values of its own -/

/-- Every byte of the window holds 7: every sample is 7 and every level 0x0707. -/
@[irreducible] def full : Memory := Memory.cells 0 0xC00 fun _ => some 7

def fullState : State := idle cfg28 full

theorem full_get {a : Nat} (h : a < 0xC00) : full.get a = some 7 := by
  unfold full; rw [Memory.get_cells, if_pos (by omega)]

theorem full_sample {a : Nat} (h : a < 0xC00) : sampleIs full a 7 := (sampleIs_iff _ _ _).mpr ⟨7, full_get h, rfl⟩

theorem full_level {a : Nat} (h : a + 1 < 0xC00) : levelIs full a 0x707 := by
  refine (levelIs_iff _ _ _).mpr ⟨0x707, ?_, by decide⟩
  unfold Memory.getLevel; rw [full_get (by omega), full_get h]; rfl

theorem full_block (base : Nat) (h : base ≤ 0x800) (b : Fin 16) : lumaBlockIs full base b fun _ _ => 7 :=
  fun i j _ _ => full_sample (by omega)

theorem full_lumaLevels (b : Fin 16) : lumaLevelsAre full b fun _ _ => 0x707 :=
  fun u v _ _ => full_level (by omega)

theorem full_plane16 (base : Nat) (h : base ≤ 0x800) : planeIs full base 16 fun _ _ => 7 := fun x y _ _ => full_sample (by omega)

theorem full_plane8 (base : Nat) (h : base ≤ 0x800) : planeIs full base 8 fun _ _ => 7 := fun x y _ _ => full_sample (by omega)

theorem full_ac (base n : Nat) (h : base + 32 * n ≤ 0xB80) : acLevelsAre full base n fun _ _ _ => 0x707 :=
  fun b u v hb _ _ _ => full_level (by omega)

theorem full_dc4 (base : Nat) (h : base ≤ 0xB80) : dcLevelsAre full base 4 fun _ _ => 0x707 := fun i j _ _ => full_level (by omega)

theorem full_dc2 (base : Nat) (h : base ≤ 0xB80) : dcLevelsAre full base 2 fun _ _ => 0x707 := fun i j _ _ => full_level (by omega)

/-- The last `qp` of the clause on `F_INTRA`, in its last row `qp/6 = 8`. -/
theorem witness_QuantiserFormulas : 53 < 54 ∧ fIntra 53 = 2796202 := by decide +kernel

/-- The last `qp` of the rounding branch, and the last row and column of a block. -/
theorem witness_ShiftsFloor : 11 < 12 ∧ 3 < 4 := by decide

theorem witness_QuantisersMonotone : (-43 : Int) ≤ 43 ∧ quant (-43) 28 0 0 ≤ quant 43 28 0 0 := by decide +kernel

theorem witness_ForwardRanges :
    (∀ i j : Nat, ((fun _ _ => 255 : Mat) i j).natAbs ≤ 255) ∧ (∀ i j : Nat, ((fun _ _ => -4080 : Mat) i j).natAbs ≤ 4080) ∧
      51 ≤ 51 := ⟨fun _ _ => by simp, fun _ _ => by simp, by decide⟩

theorem witness_InverseRanges :
    (∀ i j : Nat, -32768 ≤ (fun _ _ => -32768 : Mat) i j ∧ (fun _ _ => -32768 : Mat) i j ≤ 32767) ∧
      (∀ b u v : Nat, -32768 ≤ (fun _ _ _ => 32767 : Nat → Mat) b u v ∧ (fun _ _ _ => 32767 : Nat → Mat) b u v ≤ 32767) ∧
      39 ≤ 39 ∧ 39 ≤ 51 ∧ 15 < 16 ∧ 3 < 4 :=
  ⟨fun _ _ => by simp, fun _ _ _ => by simp, by decide⟩

theorem witness_FwdL4_RtL4 :
    lumaBlockIs fullState.mem 0x100 15 (fun _ _ => 7) ∧ lumaBlockIs fullState.mem 0x300 15 (fun _ _ => 7) :=
  ⟨full_block _ (by omega) _, full_block _ (by omega) _⟩

theorem witness_FwdL16_RtL16 :
    planeIs fullState.mem 0x100 16 (fun _ _ => 7) ∧ planeIs fullState.mem 0x300 16 (fun _ _ => 7) :=
  ⟨full_plane16 _ (by omega), full_plane16 _ (by omega)⟩

theorem witness_FwdC8_RtC8 :
    planeIs fullState.mem (chromaOrig .cr) 8 (fun _ _ => 7) ∧ planeIs fullState.mem (chromaPred .cr) 8 (fun _ _ => 7) :=
  ⟨full_plane8 _ (by decide), full_plane8 _ (by decide)⟩

theorem witness_InvL4 : lumaLevelsAre fullState.mem 15 (fun _ _ => 0x707) ∧ lumaBlockIs fullState.mem 0x300 15 (fun _ _ => 7) :=
  ⟨full_lumaLevels _, full_block _ (by omega) _⟩

theorem witness_InvL16 :
    acLevelsAre fullState.mem 0x800 16 (fun _ _ _ => 0x707) ∧ dcLevelsAre fullState.mem 0xA00 4 (fun _ _ => 0x707) ∧
      planeIs fullState.mem 0x300 16 (fun _ _ => 7) :=
  ⟨full_ac _ _ (by omega), full_dc4 _ (by omega), full_plane16 _ (by omega)⟩

theorem witness_InvC8 :
    acLevelsAre fullState.mem (chromaCoef .cr) 4 (fun _ _ _ => 0x707) ∧
      dcLevelsAre fullState.mem (chromaDc .cr) 2 (fun _ _ => 0x707) ∧
      planeIs fullState.mem (chromaPred .cr) 8 (fun _ _ => 7) :=
  ⟨full_ac _ _ (by decide), full_dc2 _ (by decide), full_plane8 _ (by decide)⟩

theorem witness_ZeroResidualReproduces :
    (lumaBlockIs fullState.mem 0x100 0 (fun _ _ => 7) ∧ lumaBlockIs fullState.mem 0x300 0 (fun _ _ => 7)) ∧
      (planeIs fullState.mem 0x100 16 (fun _ _ => 7) ∧ planeIs fullState.mem 0x300 16 (fun _ _ => 7)) ∧
      (planeIs fullState.mem (chromaOrig .cb) 8 (fun _ _ => 7) ∧ planeIs fullState.mem (chromaPred .cb) 8 (fun _ _ => 7)) :=
  ⟨⟨full_block _ (by omega) _, full_block _ (by omega) _⟩, ⟨full_plane16 _ (by omega), full_plane16 _ (by omega)⟩,
    full_plane8 _ (by decide), full_plane8 _ (by decide)⟩

/-- A frame's premise: an offset that the command does not write. -/
theorem witness_EveryCommandCompletesInFrame : ¬ writes (.fwdL4 0) 0x820 ∧ ¬ writes (.invL4 0) 0x504 ∧ ¬ writes .nop 0x500 := by
  simp [writes, inLevels, inLumaBlock]

/-- Two states that differ in RECON and agree on what FWD_L4 reads. -/
theorem witness_OutputsDependOnReadsAlone :
    fullState.cfg = (idle cfg28 (full.fill 0x500 4 fun _ => none)).cfg ∧
      (∀ a, reads (.fwdL4 0) a → fullState.mem.get a = (full.fill 0x500 4 fun _ => none).get a) ∧ writes (.fwdL4 0) 0x800 := by
  refine ⟨rfl, fun a ha => ?_, by simp only [writes, inLevels]; omega⟩
  simp only [reads, inLumaBlock] at ha
  rw [Memory.get_fill_out _ _ _ _ (by omega)]
  rfl

/-- A read DC level that is unwritten, the last byte of the buffer. -/
theorem witness_UnwrittenInputUnwritesOutputs :
    (Instr.invL16 ≠ .pcmCopy) ∧ reads .invL16 0xA1F ∧ (idle cfg28 []).mem.get 0xA1F = none ∧ writes .invL16 0x5FF := by
  refine ⟨by decide, ?_, rfl, ?_⟩
  · simp only [reads, inLevels]; omega
  · simp only [writes, inSamples]; omega

theorem witness_ReconStaysInClampRange :
    clampsRecon (.invL4 0) ∧ writes (.invL4 0) 0x530 ∧ inSamples 0x500 256 0x530 ∧
      (memAfter (.invL4 0) (idle cfg0 (flatBlock 0x300 128 ++ levels 0x800 (List.replicate 16 0)))).get 0x530 = some 128 := by
  refine ⟨trivial, ?_, ?_, by decide +kernel⟩
  · simp only [writes, inLumaBlock]; omega
  · simp only [inSamples]; omega

theorem witness_ReconStaysInClampRange_chroma :
    clampsRecon (.invC8 .cb) ∧ writes (.invC8 .cb) 0x607 ∧ inSamples 0x600 128 0x607 := by
  refine ⟨trivial, ?_, ?_⟩
  · simp only [writes, inSamples, chromaRecon]; omega
  · simp only [inSamples]; omega

theorem witness_RoundTripIsForwardThenInverse :
    ∃ b, (Instr.rtL4 3) = .rtL4 b ∧ (Instr.fwdL4 3) = .fwdL4 b ∧ (Instr.invL4 3) = .invL4 b := ⟨3, rfl, rfl, rfl⟩

/-- The premise of the statements on registers as they are read: State.reset and a busy machine have seen a reset edge. -/
theorem witness_IdCmdConfigRead_IrqIsEnabledStatus_IrqEnWriteReadsBack_StatusWriteOneClears_ClrCoefZeroes :
    State.reset.resetSeen = true ∧ busyNop.resetSeen = true := ⟨rfl, rfl⟩

theorem witness_ReadOnlyRegistersIgnoreWrites : (0x014 : Offset) ∈ [(0x000 : Offset), 0x00C, 0x014] := by decide

/-- The clauses of AddressErrors at the edges of the map: misaligned; the first unmapped word; a RECON word; the last mapped
word; the last word before the gap after DC_Y and the first of the gap. -/
theorem witness_AddressErrors :
    (0x002 : Offset).toNat % 4 ≠ 0 ∧ ¬ mappedOffset (0x018 : Offset).toNat ∧ ¬ mappedOffset (0xA20 : Offset).toNat ∧
      ¬ mappedOffset (0xFFC : Offset).toNat ∧ (reconOffset (0x500 : Offset).toNat ∧ reconOffset (0x67C : Offset).toNat) ∧
      (mappedOffset (0xB84 : Offset).toNat ∧ ¬ reconOffset (0xB84 : Offset).toNat) ∧
      (mappedOffset (0xA1C : Offset).toNat ∧ (0xA1C : Offset).toNat % 4 = 0 ∧ ¬ reconOffset (0xA1C : Offset).toNat) ∧
      (mappedOffset (0x014 : Offset).toNat ∧ (0x014 : Offset).toNat % 4 = 0 ∧ ¬ reconOffset (0x014 : Offset).toNat) := by
  simp [mappedOffset, reconOffset]

/-- The last clause: a buffer write leaves ADDR_ERR 1, a STATUS write with bit 3 clears it, one without leaves it. -/
theorem witness_AddressErrors_sticky :
    (let s : State := { idle cfg28 [] with status := ⟨false, false, false, true, false⟩ }
     (busWrite 0x100 0 0 s).status.addrErr = true ∧ (busWrite 0x008 0x8 0 s).status.addrErr = false ∧
      (busWrite 0x008 0x16 0 s).status.addrErr = true) := by
  decide +kernel

theorem witness_CommandRejected : busyNop.status.busy = true ∧ (idle cfg28 []).status.busy = false ∧ ∀ i, decode 0xC ≠ .ok i :=
  ⟨rfl, rfl, fun i => by cases i <;> exact fun h => by cases h⟩

theorem witness_CommandAccepted : (idle cfg28 []).status.busy = false ∧ decode 0x109 = .ok (.rtC8 .cr) := ⟨rfl, by decide⟩

theorem witness_BusyBufferAccess :
    busyNop.status.busy = true ∧ (0x47C : Offset).toNat % 4 = 0 ∧ writableOffset (0x47C : Offset).toNat ∧
      0x100 ≤ (0x500 : Offset).toNat ∧ mappedOffset (0x500 : Offset).toNat := by
  refine ⟨rfl, ?_⟩
  simp [writableOffset, mappedOffset, reconOffset]

theorem witness_BufferWordLayout :
    (idle cfg28 []).status.busy = false ∧ ((0x100 : Offset).toNat % 4 = 0 ∧ writableOffset (0x100 : Offset).toNat) ∧
      ((0xB84 : Offset).toNat % 4 = 0 ∧ writableOffset (0xB84 : Offset).toNat ∧ 0x800 ≤ (0xB84 : Offset).toNat) := by
  refine ⟨rfl, ?_⟩
  simp [writableOffset, mappedOffset, reconOffset]

theorem witness_IdleReadLanes :
    (idle cfg28 (row 0x101 [7])).status.busy = false ∧
      ((0x100 : Offset).toNat % 4 = 0 ∧ 0x100 ≤ (0x100 : Offset).toNat ∧ mappedOffset (0x100 : Offset).toNat) ∧
      ((0x67C : Offset).toNat % 4 = 0 ∧ (0x67C : Offset).toNat < 0x800 ∧ mappedOffset (0x67C : Offset).toNat) ∧
      ((0x800 : Offset).toNat % 4 = 0 ∧ 0x800 ≤ (0x800 : Offset).toNat ∧ mappedOffset (0x800 : Offset).toNat) ∧
      ((0xB84 : Offset).toNat % 4 = 0 ∧ 0x800 ≤ (0xB84 : Offset).toNat ∧ mappedOffset (0xB84 : Offset).toNat) := by
  refine ⟨rfl, ?_⟩
  simp [mappedOffset]

/-- The six cases of the order of errors, and an access to which none applies. -/
theorem witness_OneErrorPerAccess :
    ((0x502 : Offset).toNat % 4 ≠ 0 ∧ ¬ mappedOffset (0x680 : Offset).toNat ∧ reconOffset (0x67C : Offset).toNat) ∧
      (busyNop.status.busy = true ∧ (0x004 : Offset).toNat % 4 = 0 ∧ mappedOffset (0x004 : Offset).toNat ∧
        ¬ reconOffset (0x004 : Offset).toNat) ∧
      ((idle cfg28 []).status.busy = false ∧ ∀ i, decode 0xC ≠ .ok i) ∧
      ((0x100 : Offset).toNat % 4 = 0 ∧ mappedOffset (0x100 : Offset).toNat ∧ ¬ reconOffset (0x100 : Offset).toNat ∧
        (0x100 : Offset) ≠ 0x004 ∧ 0x100 ≤ (0x100 : Offset).toNat) ∧
      ((0x014 : Offset).toNat % 4 = 0 ∧ mappedOffset (0x014 : Offset).toNat ∧ ¬ reconOffset (0x014 : Offset).toNat ∧
        (0x014 : Offset) ≠ 0x004 ∧ ¬ 0x100 ≤ (0x014 : Offset).toNat) := by
  refine ⟨?_, ⟨rfl, ?_⟩, ⟨rfl, fun i => by cases i <;> exact fun h => by cases h⟩, ?_, ?_⟩ <;>
    simp [mappedOffset, reconOffset]

/-- Every clause of NzFields on one state. -/
theorem witness_NzFields :
    (fullState.status.busy = false ∧ fullState.resetSeen = true) ∧ lumaLevelsAre fullState.mem 15 (fun _ _ => 0x707) ∧
      dcLevelsAre fullState.mem 0xA00 4 (fun _ _ => 0x707) ∧ dcLevelsAre fullState.mem 0xAC0 2 (fun _ _ => 0x707) ∧
      acLevelsAre fullState.mem 0xA40 4 (fun _ _ _ => 0x707) ∧ dcLevelsAre fullState.mem 0xB80 2 (fun _ _ => 0x707) ∧
      acLevelsAre fullState.mem 0xB00 4 (fun _ _ _ => 0x707) ∧
      (∀ k, k ∈ [0, 1, 4, 5] → ∀ j, j < 16 → (fullState.mem.getLevel (0x800 + 32 * (10 + k) + 2 * j)).isSome = true) ∧
      (∀ pl : Plane, (∀ k, k < 64 → (fullState.mem.getLevel (chromaCoef pl + 2 * k)).isSome = true) ∧
        ∀ k, k < 4 → (fullState.mem.getLevel (chromaDc pl + 2 * k)).isSome = true) := by
  have h1 : ∀ pl, chromaCoef pl ≤ 0xB00 ∧ chromaDc pl ≤ 0xB80 := fun pl => by cases pl <;> decide
  refine ⟨⟨rfl, rfl⟩, full_lumaLevels _, full_dc4 _ (by omega), full_dc2 _ (by omega), full_ac _ _ (by omega), full_dc2 _ (by omega),
    full_ac _ _ (by omega), fun k hk j hj => ?_, fun pl => ⟨fun k hk => ?_, fun k hk => ?_⟩⟩
  · simp only [List.mem_cons, List.not_mem_nil, or_false] at hk
    exact isSome_of_levelIs (full_level (by omega))
  · have := h1 pl; exact isSome_of_levelIs (full_level (by omega))
  · have := h1 pl; exact isSome_of_levelIs (full_level (by omega))

/-- An unwritten input of Y_NZ[15], of CBP_LUMA[3] and of CBP_CHROMA; and a busy machine. -/
theorem witness_NzFieldsDraw :
    (nzReserved 15 = false ∧ nzInputs 15 0x9FF) ∧ (nzReserved 27 = false ∧ nzInputs 27 0x9FF) ∧
      (nzReserved 29 = false ∧ nzInputs 29 0xA40) ∧ (idle cfg28 []).status.busy = false ∧ (idle cfg28 []).mem.get 0x9FF = none ∧
      busyNop.status.busy = true := by
  refine ⟨⟨rfl, ?_⟩, ⟨rfl, ?_⟩, ⟨rfl, ?_⟩, rfl, rfl, rfl⟩
  · simp [nzInputs, inLevels]
  · simp [nzInputs, inLevels]
  · simp [nzInputs, inLevels]

theorem witness_StepRunsTheLatchedCommand :
    (fullState.withFetchWord 32 0x71).rst.headD false = false ∧ (fullState.withFetchWord 32 0x71).status.busy = true ∧
      (fullState.withFetchWord 32 0x71).countdown = 0 ∧ decode (fullState.withFetchWord 32 0x71).cmd = .ok (.fwdL4 7) :=
  ⟨rfl, rfl, rfl, by decide⟩

/-- A host turn on each kind of statement, idle and busy, and past the end of the script. -/
theorem witness_HostTurnPerformsStatement :
    (let s : State := { busyNop with script := [.wr 0x100 1, .rd 0x100, .poll 0x008 1 0, .bne 0x008 4 4 0] }
     s.rst.headD false = false ∧ s.countdown ≠ 0 ∧ s.script[s.pos]? = some (.wr 0x100 1) ∧
      (State.script { s with pos := 1 })[1]? = some (.rd 0x100) ∧ s.script[2]? = some (.poll 0x008 1 0) ∧
      s.script[3]? = some (.bne 0x008 4 4 0) ∧ s.script[4]? = none ∧ (idle cfg28 []).status.busy = false) := by decide

theorem witness_ResetEdgeResets : (State.rst { busyNop with rst := [true] }).headD false = true := rfl

theorem witness_RegistersAfterReset : AtReset (idle cfg0 []) := ⟨rfl, rfl, rfl, rfl, rfl, fun _ => rfl⟩

/-- A state with a command in flight and a written sample word that has the invariant, and steps. -/
theorem witness_StepKeepsInvariant_NoStepStops :
    (idle cfg28 (row 0x100 [1, 2, 3, 4])).Inv ∧ ∃ t, step (idle cfg28 (row 0x100 [1, 2, 3, 4])) = .next t := by
  have h : MemOk (row 0x100 [1, 2, 3, 4]) := by
    have := MemOk.nil.fill_samples .yOrig rfl 0x100 4 (fun k => ([1, 2, 3, 4] : List Byte)[k]?) (by decide) (by decide)
    exact this
  exact ⟨⟨h.memWf, h.mapped, h.levels, ⟨.nop, by decide⟩, by decide, rfl⟩, _, rfl⟩

theorem witness_HostCannotDisturbCommandInFlight :
    ∃ t, busyNop.status.busy = true ∧ busyNop.countdown ≠ 0 ∧ busyNop.rst.headD false = false ∧ step busyNop = .next t :=
  ⟨_, rfl, by decide, rfl, rfl⟩

theorem witness_CommandInFlightCompletes :
    busyNop.status.busy = true ∧ decode busyNop.cmd = .ok .nop ∧ ∀ k, k ≤ busyNop.countdown → busyNop.rst.getD k false = false :=
  ⟨rfl, by decide, fun _ _ => rfl⟩

/-- A step that raises BUSY; one that lowers it and raises DONE. -/
theorem witness_StatusBitLifecycle_busy :
    (let s : State := { idle cfg28 [] with script := [.wr 0x004 0xA], status := ⟨false, true, false, false, false⟩ }
     (stateAfter s).map (fun t => (t.status.busy, t.status.done)) = some (true, false)) ∧
      (stateAfter { busyNop with countdown := 0 }).map (fun t => (t.status.busy, t.status.done)) = some (false, true) := by
  decide +kernel

/-- Steps that set each error bit. -/
theorem witness_StatusBitLifecycle_set :
    (stateAfter { busyNop with script := [.wr 0x004 0xA] }).map (fun t => t.status.cmdErr) = some true ∧
      (stateAfter { busyNop with script := [.rd 0x018] }).map (fun t => t.status.addrErr) = some true ∧
      (stateAfter { busyNop with script := [.wr 0x100 0] }).map (fun t => t.status.wbusyErr) = some true := by decide +kernel

/-- One step that clears DONE and every error bit. -/
theorem witness_StatusBitLifecycle_clear :
    (stateAfter { idle cfg28 [] with script := [.wr 0x008 0x1E], status := ⟨false, true, true, true, true⟩ }).map State.status =
      some ⟨false, false, false, false, false⟩ := by decide +kernel

/-- A host write that changes an ORIG byte, and a completion that changes a RECON byte. -/
theorem witness_WhoWritesWhichBuffer :
    (stateAfter { idle cfg28 [] with script := [.wr 0x100 0] }).map (fun t => t.mem.get 0x103) = some (some 0) ∧
      (idle cfg28 []).mem.get 0x103 = none ∧
      (stateAfter ((idle cfg28 (row 0x27F [9])).withFetchWord 32 0xA)).map (fun t => t.mem.get 0x67F) = some (some 9) ∧
      reconOffset 0x67F := by
  refine ⟨by decide +kernel, rfl, by decide +kernel, by unfold reconOffset; omega⟩

/-- A host write that changes a byte of a coefficient buffer, and a completion that changes its last byte. -/
theorem witness_WhoWritesWhichBuffer_levels :
    (stateAfter { idle cfg28 [] with script := [.wr 0x800 0] }).map (fun t => t.mem.get 0x803) = some (some 0) ∧
      (stateAfter ((idle cfg28 []).withFetchWord 32 0xB)).map (fun t => t.mem.get 0xB87) = some (some 0) ∧
      (idle cfg28 []).mem.get 0x803 = none ∧ (idle cfg28 []).mem.get 0xB87 = none :=
  ⟨by decide +kernel, by decide +kernel, rfl, rfl⟩

/-- A machine that no reset edge has reached; it steps with and without one. -/
theorem witness_RegistersBeforeReset :
    State.powerOn.resetSeen = false ∧ (∃ t, step { State.powerOn with rst := [true] } = .next t) ∧
      ∃ t, step { idle cfg28 [] with resetSeen := false } = .next t := ⟨rfl, ⟨_, rfl⟩, ⟨_, rfl⟩⟩

/-- A host turn, a silent step of each kind, and a script of `WR` and `RD` alone. -/
theorem witness_IssuedTransactions :
    (busyNop.rst.headD false = false ∧ busyNop.countdown ≠ 0 ∧
        (State.script { busyNop with script := [.rd 0x008] })[0]? = some (.rd 0x008)) ∧
      (∃ t, step { busyNop with rst := [true] } = .next t) ∧ (∃ t, step { busyNop with countdown := 0 } = .next t) ∧
      ((∃ t, step (idle cfg28 []) = .next t) ∧ (idle cfg28 []).script[0]? = none) ∧
      ∀ st ∈ ([.wr 0x100 0, .rd 0x100] : List Stmt), (∃ off w, st = .wr off w) ∨ ∃ off, st = .rd off := by
  refine ⟨⟨rfl, by decide, rfl⟩, ⟨_, rfl⟩, ⟨_, rfl⟩, ⟨⟨_, rfl⟩, rfl⟩, fun st h => ?_⟩
  simp only [List.mem_cons, List.not_mem_nil, or_false] at h
  rcases h with rfl | rfl
  · exact .inl ⟨_, _, rfl⟩
  · exact .inr ⟨_, rfl⟩

theorem witness_ParametersAreFixed : ∃ t, step busyNop = .next t := ⟨_, rfl⟩

/-- A latch that decodes to no command, its completion step due. -/
theorem witness_OnlyAnUndecodableLatchStops :
    (let s : State := { busyNop with cmd := 0xC, countdown := 0 }
     s.rst.headD false = false ∧ s.status.busy = true ∧ s.countdown = 0 ∧ ∀ i, decode s.cmd ≠ .ok i) :=
  ⟨rfl, rfl, rfl, fun i => by cases i <;> exact fun h => by cases h⟩

/-- The clamp bounds themselves. -/
theorem witness_DecoderAgreesInsideRange :
    (16 ≤ (16 + 0 : Int) ∧ (16 + 0 : Int) ≤ 235) ∧ (16 ≤ (230 + 5 : Int) ∧ (230 + 5 : Int) ≤ 235) ∧
      (16 ≤ (230 + 10 : Int) ∧ (230 + 10 : Int) ≤ 240) := by decide

/-- A command that assembles; and the two kinds of `base` at the edges of their buffers. -/
theorem witness_PseudoStatementsExpand :
    AsmCommand.word ⟨.RT_L4, some (.number 15)⟩ = some 0xF3 ∧
      inSamples 0x100 256 (0x100 : Offset).toNat ∧ inSamples 0x100 256 (0x1FF : Offset).toNat ∧
      inSamples 0x500 256 (0x554 : Offset).toNat ∧ inSamples 0x200 128 (0x240 : Offset).toNat ∧
      inSamples 0x600 128 (0x67F : Offset).toNat := by
  refine ⟨by decide, ?_⟩
  simp [inSamples]

/-- The first and the last block, and the first number out of range. -/
theorem witness_AssemblerWords : 0 < 16 ∧ 15 < 16 ∧ 16 ≤ 16 := by decide

/-- An idle machine; and a word with OP 0 and another bit set. -/
theorem witness_NopCompletes :
    (idle cfg28 []).status.busy = false ∧ BitVec.extractLsb' 0 4 (0x10 : Word) = 0 ∧ (0x10 : Word) ≠ 0 := by decide

end Sys2Proof.Tests
end

section
/-! PROOFS. The well-formed configurations (00_scope.md R7). -/

namespace Sys2Proof.Machine

/-- The model counts the chroma offsets from 0 to 24, R7 from -12 to 12: offset `o` is number `o + 12`. -/
theorem exists_qpcOf_iff (qpY qpC : Nat) :
    (∃ k, k < 25 ∧ qpC = qpcOf qpY k) ↔
      ∃ o : Int, -12 ≤ o ∧ o ≤ 12 ∧ qpC = qpcTable (clip3 0 51 (qpY + o)).toNat := by
  constructor
  · rintro ⟨k, hk, rfl⟩
    refine ⟨k - 12, by omega, by omega, ?_⟩
    rw [qpcOf, Int.add_sub_assoc]
  · rintro ⟨o, hlo, hhi, rfl⟩
    refine ⟨(o + 12).toNat, by omega, ?_⟩
    have number : (qpY : Int) + (o + 12).toNat - 12 = qpY + o := by omega
    rw [qpcOf, number]

theorem configOk_iff (qpY qpC : Nat) :
    configOk qpY qpC = true ↔ qpY ≤ 51 ∧ qpC ≤ 39 ∧ ∃ k, k < 25 ∧ qpC = qpcOf qpY k := by
  simp [configOk, and_assoc]

/-- A configuration is a pair with the check of R7, so the configurations are the pairs that pass it. -/
theorem exists_config_iff (qpY qpC : Nat) :
    (∃ cfg : Config, cfg.qpY = qpY ∧ cfg.qpC = qpC) ↔ configOk qpY qpC = true := by
  constructor
  · rintro ⟨cfg, rfl, rfl⟩
    exact cfg.ok
  · exact fun h => ⟨⟨qpY, qpC, h⟩, rfl, rfl⟩

/-- Settles O11: the check that a `Config` carries, its offset numbers translated to R7's integer offsets. -/
theorem configurationsAreWellFormed : Obligations.ConfigurationsAreWellFormed := by
  intro qpY qpC
  rw [exists_config_iff, configOk_iff, exists_qpcOf_iff]

end Sys2Proof.Machine
end

section
/-! PROOFS. The words of the registers other than NZ (10_state.md R36 to R41). -/

namespace Sys2Proof.Machine

/-- No bit is cut off: both parameters fit their fields (00_scope.md R7). -/
theorem toNat_configWord (cfg : Config) : (configWord cfg).toNat = cfg.qpC * 256 + cfg.qpY := by
  have hY := Config.qpY_le cfg
  have hC := Config.qpC_le cfg
  rw [configWord, BitVec.toNat_ofNat, Nat.mod_eq_of_lt (by omega)]

theorem configWord_qpY (cfg : Config) : ((configWord cfg).extractLsb' 0 6).toNat = cfg.qpY := by
  have hY := Config.qpY_le cfg
  rw [BitVec.extractLsb'_toNat, toNat_configWord, Nat.shiftRight_zero]
  omega

theorem configWord_qpC (cfg : Config) : ((configWord cfg).extractLsb' 8 6).toNat = cfg.qpC := by
  have hY := Config.qpY_le cfg
  have hC := Config.qpC_le cfg
  rw [BitVec.extractLsb'_toNat, toNat_configWord, Nat.shiftRight_eq_div_pow]
  omega

/-- IRQ_EN reads back the two bits it has storage for. -/
theorem IrqEn.word_ofWord (w : Word) : (IrqEn.ofWord w).word = w &&& 3 := by
  rw [IrqEn.word, wordOfBits_eq_iff]
  intro k hk
  have mask : ∀ k < 32, (3 : Word).getLsbD k = decide (k < 2) := by decide
  rw [BitVec.getLsbD_and, mask k hk]
  match k with
  | 0 | 1 => exact (Bool.and_true _).symm
  | k + 2 => simp [IrqEn.bit]

theorem IrqEn.word_reset : IrqEn.word ⟨false, false⟩ = 0 := IrqEn.word_ofWord 0

theorem Status.word_reset : Status.word ⟨false, false, false, false, false⟩ = 0 := by
  rw [Status.word, wordOfBits_eq_iff]
  intro k _
  match k with
  | 0 | 1 | 2 | 3 | 4 => rfl
  | _ + 5 => exact BitVec.getLsbD_zero.symm

theorem State.reset_atReset : AtReset State.reset := ⟨rfl, rfl, rfl, rfl, rfl, fun _ => rfl⟩

/-- Settles O30, from what a register read and a register write answer. -/
theorem idCmdConfigRead : Obligations.IdCmdConfigRead := by
  intro s draw seen
  refine ⟨busRead_reg_seen (r := .id) rfl draw seen, busRead_reg_seen (r := .cmd) rfl draw seen,
    ⟨configWord s.cfg, busRead_reg_seen (r := .config) rfl draw seen, configWord_qpY _, configWord_qpC _,
      toNat_configWord _⟩, ?_⟩
  intro w d
  exact ⟨busWrite_reg (r := .id) rfl w d s, busWrite_reg (r := .config) rfl w d s⟩

/-- Settles O32: the write stores `IrqEn.ofWord w`, whose word is `w &&& 3`. -/
theorem irqEnWriteReadsBack : Obligations.IrqEnWriteReadsBack := by
  refine ⟨fun s w draw d => ⟨_, rfl, busWrite_reg (r := .irqEn) rfl w d s, fun seen => ?_⟩, fun draw => ?_⟩
  · have seenAfter : (writeReg 0x010 w d s .irqEn).resetSeen = true := seen
    rw [busWrite_reg (r := .irqEn) rfl, busRead_reg_seen (r := .irqEn) rfl draw seenAfter, ← IrqEn.word_ofWord]
    rfl
  · rw [busRead_reg_seen (r := .irqEn) rfl draw rfl, ← IrqEn.word_reset]
    rfl

end Sys2Proof.Machine
end

section
/-! PROOFS. The NZ register as an idle read returns it (10_state.md R42 to R45). -/

namespace Sys2Proof.Machine

/-! ### Bits of the word read -/

/-- A stretch of reserved bits reads 0. -/
theorem extractLsb'_nzRead_reserved (m : Memory) (busy : Bool) (draw : Word) {lo n : Nat} (h : lo + n ≤ 32)
    (reserved : ∀ i < n, nzReserved (lo + i) = true) : (nzRead m busy draw).extractLsb' lo n = 0 := by
  apply BitVec.eq_of_getLsbD_eq
  intro i hi
  rw [BitVec.getLsbD_extractLsb', getLsbD_nzRead _ _ _ (by omega), reserved i hi]
  simp

/-- A defined field reads, idle, as it is defined, whatever the draw. -/
theorem getLsbD_nzRead_of_some {m : Memory} (draw : Word) {k : Nat} {v : Bool} (hk : k < 32) (hr : nzReserved k = false)
    (h : nzBit m k = some v) : (nzRead m false draw).getLsbD k = v := by
  rw [getLsbD_nzRead _ _ _ hk, hr, h]
  rfl

theorem nzBit_yNz (m : Memory) {b : Nat} (hb : b < 16) : nzBit m b = yNz m b := if_pos hb

theorem nzBit_cbpLuma (m : Memory) {q : Nat} (hq : q < 4) : nzBit m (24 + q) = cbpLuma m q := by
  unfold nzBit
  repeat rw [if_neg (by omega)]
  rw [if_pos (by omega), Nat.add_sub_cancel_left]

theorem nzBit_cbpChroma (m : Memory) {j : Nat} (hj : j < 2) : nzBit m (28 + j) = (cbpChroma m).map fun n => n.testBit j := by
  unfold nzBit
  repeat rw [if_neg (by omega)]
  rw [if_pos (by omega), Nat.add_sub_cancel_left]

theorem nzReserved_eq_false {k : Nat} (h : k < 21 ∨ 24 ≤ k ∧ k < 30) : nzReserved k = false := by
  simp [nzReserved]; omega

/-! ### Flags over levels whose values are known -/

/-- A field that says whether some level of `l` is not 0, where `l` lists the levels `addr i` with `p i` and each of them is
written, with the value `val i`. -/
theorem getLsbD_nzRead_iff {ι : Type} {m : Memory} (draw : Word) {k : Nat} {l : List Nat} {p : ι → Prop} {addr : ι → Nat}
    {val : ι → Int} (hk : k < 21) (hbit : nzBit m k = someNonzero m l) (mem : ∀ a, a ∈ l ↔ ∃ i, p i ∧ a = addr i)
    (levels : ∀ i, p i → levelIs m (addr i) (val i)) :
    (nzRead m false draw).getLsbD k = true ↔ ∃ i, p i ∧ val i ≠ 0 := by
  have written : ∀ a ∈ l, (m.getLevel a).isSome = true := by
    intro a ha
    obtain ⟨i, hi, rfl⟩ := (mem a).mp ha
    exact isSome_of_levelIs (levels i hi)
  have defined := hbit.trans (someNonzero_of_written written)
  rw [getLsbD_nzRead_of_some draw (by omega) (nzReserved_eq_false (.inl hk)) defined, List.any_eq_true]
  constructor
  · rintro ⟨a, ha, nonzero⟩
    obtain ⟨i, hi, rfl⟩ := (mem a).mp ha
    rw [levelAt_of_is (levels i hi)] at nonzero
    exact ⟨i, hi, of_decide_eq_true nonzero⟩
  · rintro ⟨i, hi, nonzero⟩
    refine ⟨addr i, (mem _).mpr ⟨i, hi, rfl⟩, ?_⟩
    rw [levelAt_of_is (levels i hi)]
    exact decide_eq_true nonzero

/-- `Y_NZ[b]` (10_state.md R42). -/
theorem getLsbD_nzRead_yNz {m : Memory} (draw : Word) {b : Fin 16} {c : Mat} (h : lumaLevelsAre m b c) :
    (nzRead m false draw).getLsbD b = true ↔ ∃ u v, u < 4 ∧ v < 4 ∧ c u v ≠ 0 := by
  have flag := getLsbD_nzRead_iff draw (p := fun i : Nat × Nat => i.1 < 4 ∧ i.2 < 4)
    (addr := fun i => coefAddr (Comp.coef .y) b i.1 i.2) (val := fun i => c i.1 i.2) (by omega) (nzBit_yNz m b.isLt)
    (by simp [mem_blockAddrs, and_assoc]) (fun i hi => h i.1 i.2 hi.1 hi.2)
  simpa [and_assoc] using flag

/-- `YDC_NZ`, `CB_DC_NZ` and `CR_DC_NZ` (10_state.md R42). -/
theorem getLsbD_nzRead_dcNz {m : Memory} (draw : Word) (comp : Comp) {k : Nat} {dc : Mat} (hk : k < 21)
    (hbit : nzBit m k = dcNz m comp) (h : dcLevelsAre m comp.dc.base comp.side dc) :
    (nzRead m false draw).getLsbD k = true ↔ ∃ i j, i < comp.side ∧ j < comp.side ∧ dc i j ≠ 0 := by
  have flag := getLsbD_nzRead_iff draw (p := fun i : Nat × Nat => i.1 < comp.side ∧ i.2 < comp.side)
    (addr := fun i => dcAddr comp i.1 i.2) (val := fun i => dc i.1 i.2) hk hbit
    (by simp [mem_dcAddrs, and_assoc]) (fun i hi => h i.1 i.2 hi.1 hi.2)
  simpa [and_assoc] using flag

/-- `CB_AC_NZ` and `CR_AC_NZ` (10_state.md R42). -/
theorem getLsbD_nzRead_acNz {m : Memory} (draw : Word) (comp : Comp) {k : Nat} {c : Nat → Mat} (hk : k < 21)
    (hbit : nzBit m k = acNz m comp) (h : acLevelsAre m comp.coef.base (comp.side * comp.side) c) :
    (nzRead m false draw).getLsbD k = true ↔
      ∃ b u v, b < comp.side * comp.side ∧ u < 4 ∧ v < 4 ∧ ¬ (u = 0 ∧ v = 0) ∧ c b u v ≠ 0 := by
  have flag := getLsbD_nzRead_iff draw
    (p := fun i : Nat × Nat × Nat => i.1 < comp.side * comp.side ∧ i.2.1 < 4 ∧ i.2.2 < 4 ∧ ¬ (i.2.1 = 0 ∧ i.2.2 = 0))
    (addr := fun i => coefAddr comp.coef i.1 i.2.1 i.2.2) (val := fun i => c i.1 i.2.1 i.2.2) hk hbit
    (by simp [mem_acAddrs, and_assoc]) (fun i ⟨hb, hu, hv, huv⟩ => h i.1 i.2.1 i.2.2 hb hu hv huv)
  simpa [and_assoc] using flag

/-! ### The coded block patterns, in the flags of the same read -/

/-- A defined flag below bit 21, in the form in which the patterns are computed from it. -/
theorem eq_some_getLsbD_nzRead {m : Memory} (draw : Word) {k : Nat} {flag : Option Bool} (hk : k < 21)
    (hbit : nzBit m k = flag) (h : flag.isSome = true) : flag = some ((nzRead m false draw).getLsbD k) := by
  obtain ⟨v, rfl⟩ := Option.isSome_iff_exists.mp h
  rw [getLsbD_nzRead_of_some draw (by omega) (nzReserved_eq_false (.inl hk)) hbit]

theorem someNonzero_isSome {m : Memory} {l : List Nat} (h : ∀ a ∈ l, (m.getLevel a).isSome = true) :
    (someNonzero m l).isSome = true := by
  rw [someNonzero_of_written h]
  rfl

theorem yNz_isSome {m : Memory} {b : Nat} (h : ∀ j, j < 16 → (m.getLevel (0x800 + 32 * b + 2 * j)).isSome = true) :
    (yNz m b).isSome = true := by
  refine someNonzero_isSome fun a ha => ?_
  obtain ⟨u, v, hu, hv, rfl⟩ := (mem_blockAddrs _ _ _).mp ha
  have address : coefAddr (Comp.coef .y) b u v = 0x800 + 32 * b + 2 * (4 * u + v) := by
    simp only [coefAddr_eq, Comp.coef, Buf.base]
    omega
  rw [address]
  exact h _ (by omega)

/-- `CBP_LUMA[q]` (10_state.md R44). -/
theorem getLsbD_nzRead_cbpLuma {m : Memory} {draw nz : Word} (hnz : nzRead m false draw = nz) {q b0 : Nat} (hq : q < 4)
    (hb0 : b0 = 8 * (q / 2) + 2 * (q % 2))
    (written : ∀ k, k ∈ [0, 1, 4, 5] → ∀ j, j < 16 → (m.getLevel (0x800 + 32 * (b0 + k) + 2 * j)).isSome = true) :
    nz.getLsbD (24 + q) =
      (nz.getLsbD b0 || nz.getLsbD (b0 + 1) || nz.getLsbD (b0 + 4) || nz.getLsbD (b0 + 5)) := by
  subst hnz
  have block : ∀ k ∈ [0, 1, 4, 5], yNz m (b0 + k) = some ((nzRead m false draw).getLsbD (b0 + k)) := by
    intro k hk
    have small : b0 + k < 16 := by
      simp only [List.mem_cons, List.not_mem_nil, or_false] at hk
      omega
    exact eq_some_getLsbD_nzRead draw (by omega) (nzBit_yNz m small) (yNz_isSome (written k hk))
  have b1 := block 0 (by simp)
  have b2 := block 1 (by simp)
  have b3 := block 4 (by simp)
  have b4 := block 5 (by simp)
  refine getLsbD_nzRead_of_some draw (by omega) (nzReserved_eq_false (by omega)) ?_
  rw [nzBit_cbpLuma m hq, cbpLuma, ← hb0]
  rw [Nat.add_zero] at b1
  simp only [b1, b2, b3, b4]

/-- Every level of a chroma plane's two buffers is written. -/
def chromaLevelsWritten (m : Memory) (pl : Plane) : Prop :=
  (∀ k, k < 64 → (m.getLevel (chromaCoef pl + 2 * k)).isSome = true) ∧
    ∀ k, k < 4 → (m.getLevel (chromaDc pl + 2 * k)).isSome = true

theorem coefAddrs_written {m : Memory} {pl : Plane} (h : chromaLevelsWritten m pl) :
    ∀ a ∈ coefAddrs (planeComp pl), (m.getLevel a).isSome = true := by
  intro a ha
  obtain ⟨b, u, v, hb, hu, hv, rfl⟩ := (mem_coefAddrs _ _).mp ha
  rw [Comp.side_plane] at hb
  have address : coefAddr (planeComp pl).coef b u v = chromaCoef pl + 2 * (16 * b + 4 * u + v) := by cases pl <;> rfl
  rw [address]
  exact h.1 _ (by omega)

theorem dcAddrs_written {m : Memory} {pl : Plane} (h : chromaLevelsWritten m pl) :
    ∀ a ∈ dcAddrs (planeComp pl), (m.getLevel a).isSome = true := by
  intro a ha
  obtain ⟨i, j, hi, hj, rfl⟩ := (mem_dcAddrs _ _).mp ha
  rw [Comp.side_plane] at hi hj
  have address : dcAddr (planeComp pl) i j = chromaDc pl + 2 * (2 * i + j) := by cases pl <;> rfl
  rw [address]
  exact h.2 _ (by omega)

theorem acAddrs_subset_coefAddrs (comp : Comp) : acAddrs comp ⊆ coefAddrs comp := by
  intro a ha
  obtain ⟨b, u, v, hb, hu, hv, -, rfl⟩ := (mem_acAddrs _ _).mp ha
  exact (mem_coefAddrs _ _).mpr ⟨b, u, v, hb, hu, hv, rfl⟩

theorem chromaDcNz_isSome {m : Memory} {pl : Plane} (h : chromaLevelsWritten m pl) : (dcNz m (planeComp pl)).isSome = true :=
  someNonzero_isSome (dcAddrs_written h)

theorem chromaAcNz_isSome {m : Memory} {pl : Plane} (h : chromaLevelsWritten m pl) : (acNz m (planeComp pl)).isSome = true :=
  someNonzero_isSome fun a ha => coefAddrs_written h a (acAddrs_subset_coefAddrs _ ha)

/-- The number of `CBP_CHROMA` in the flags of the same read (10_state.md R45). -/
theorem cbpChroma_eq {m : Memory} {draw nz : Word} (hnz : nzRead m false draw = nz)
    (h : ∀ pl, chromaLevelsWritten m pl) :
    cbpChroma m = some (if nz.getLsbD 18 || nz.getLsbD 20 then 2 else if nz.getLsbD 17 || nz.getLsbD 19 then 1 else 0) := by
  subst hnz
  have all : someNonzero m (coefAddrs .cb ++ coefAddrs .cr) = some _ :=
    someNonzero_of_written fun a ha =>
      (List.mem_append.mp ha).elim (coefAddrs_written (h .cb) a) (coefAddrs_written (h .cr) a)
  have cbDc : dcNz m .cb = some _ := eq_some_getLsbD_nzRead draw (k := 17) (by omega) rfl (chromaDcNz_isSome (h .cb))
  have cbAc : acNz m .cb = some _ := eq_some_getLsbD_nzRead draw (k := 18) (by omega) rfl (chromaAcNz_isSome (h .cb))
  have crDc : dcNz m .cr = some _ := eq_some_getLsbD_nzRead draw (k := 19) (by omega) rfl (chromaDcNz_isSome (h .cr))
  have crAc : acNz m .cr = some _ := eq_some_getLsbD_nzRead draw (k := 20) (by omega) rfl (chromaAcNz_isSome (h .cr))
  simp only [cbpChroma, all, cbDc, cbAc, crDc, crAc]

/-- Bits 29:28 hold the number of `CBP_CHROMA`. -/
theorem toNat_nzRead_cbpChroma {m : Memory} (draw : Word) {n : Nat} (h : cbpChroma m = some n) (hn : n < 4) :
    ((nzRead m false draw).extractLsb' 28 2).toNat = n := by
  have field : (nzRead m false draw).extractLsb' 28 2 = BitVec.ofNat 2 n := by
    apply BitVec.eq_of_getLsbD_eq
    intro j hj
    have bit : nzBit m (28 + j) = some (n.testBit j) := by rw [nzBit_cbpChroma m hj, h]; rfl
    rw [BitVec.getLsbD_extractLsb', getLsbD_nzRead_of_some draw (by omega) (nzReserved_eq_false (by omega)) bit,
      BitVec.getLsbD_ofNat]
  rw [field, BitVec.toNat_ofNat, Nat.mod_eq_of_lt hn]

/-- Settles O42: each clause is the lemma of its field. -/
theorem nzFields : Obligations.NzFields := by
  intro s draw idle seen
  have read : busRead 0x014 draw s = s.respond (.read .ok (nzRead s.mem false draw)) := by
    rw [busRead_reg_seen (r := .nz) rfl draw seen, regValue, idle]
  refine ⟨_, read, extractLsb'_nzRead_reserved _ _ _ (by decide) (by decide),
    extractLsb'_nzRead_reserved _ _ _ (by decide) (by decide), fun b c => getLsbD_nzRead_yNz draw,
    fun dc => getLsbD_nzRead_dcNz draw .y (k := 16) (by decide) rfl,
    fun dc => getLsbD_nzRead_dcNz draw .cb (k := 17) (by decide) rfl,
    fun c => getLsbD_nzRead_acNz draw .cb (k := 18) (by decide) rfl,
    fun dc => getLsbD_nzRead_dcNz draw .cr (k := 19) (by decide) rfl,
    fun c => getLsbD_nzRead_acNz draw .cr (k := 20) (by decide) rfl,
    fun q hq b0 hb0 => getLsbD_nzRead_cbpLuma rfl hq hb0, fun written => ?_⟩
  refine toNat_nzRead_cbpChroma draw (cbpChroma_eq rfl written) ?_
  split
  · decide
  · split <;> decide

/-! ### With nothing written -/

theorem getLevel_of_unwritten {m : Memory} (h : ∀ a, m.get a = none) (a : Nat) : m.getLevel a = none := by
  rw [Memory.getLevel, h]

theorem yNz_of_unwritten {m : Memory} (h : ∀ a, m.get a = none) (b : Nat) : yNz m b = none :=
  someNonzero_of_unwritten ((mem_blockAddrs .y b _).mpr ⟨0, 0, by decide, by decide, rfl⟩)
    (by rw [getLevel_of_unwritten h]; rfl)

theorem dcNz_of_unwritten {m : Memory} (h : ∀ a, m.get a = none) (comp : Comp) : dcNz m comp = none :=
  someNonzero_of_unwritten ((mem_dcAddrs comp _).mpr ⟨0, 0, comp.side_pos, comp.side_pos, rfl⟩)
    (by rw [getLevel_of_unwritten h]; rfl)

theorem acNz_of_unwritten {m : Memory} (h : ∀ a, m.get a = none) (comp : Comp) : acNz m comp = none :=
  someNonzero_of_unwritten
    ((mem_acAddrs comp _).mpr
      ⟨0, 0, 1, Nat.mul_pos comp.side_pos comp.side_pos, by decide, by decide, by decide, rfl⟩)
    (by rw [getLevel_of_unwritten h]; rfl)

theorem cbpLuma_of_unwritten {m : Memory} (h : ∀ a, m.get a = none) (q : Nat) : cbpLuma m q = none := by
  simp [cbpLuma, yNz_of_unwritten h]

theorem cbpChroma_of_unwritten {m : Memory} (h : ∀ a, m.get a = none) : cbpChroma m = none := by
  simp [cbpChroma, dcNz_of_unwritten h]

/-- Every field is undefined (10_state.md R43 b). -/
theorem nzBit_of_unwritten {m : Memory} (h : ∀ a, m.get a = none) {k : Nat} (hr : nzReserved k = false) :
    nzBit m k = none := by
  have range : ¬ (21 ≤ k ∧ k < 24) ∧ k < 30 := by simpa [nzReserved] using hr
  unfold nzBit
  split_ifs
  · exact yNz_of_unwritten h k
  · exact dcNz_of_unwritten h .y
  · exact dcNz_of_unwritten h .cb
  · exact acNz_of_unwritten h .cb
  · exact dcNz_of_unwritten h .cr
  · exact acNz_of_unwritten h .cr
  · omega
  · exact cbpLuma_of_unwritten h _
  · rw [cbpChroma_of_unwritten h, Option.map_none]
  · omega

/-- The non-reserved bits of NZ. -/
theorem getLsbD_nzMask : ∀ k < 32, (0x3F1FFFFF : Word).getLsbD k = !nzReserved k := by decide

/-- NZ reads the draw in every field (10_state.md R48). -/
theorem nzRead_of_unwritten {m : Memory} (h : ∀ a, m.get a = none) (busy : Bool) (draw : Word) :
    nzRead m busy draw = draw &&& 0x3F1FFFFF := by
  apply BitVec.eq_of_getLsbD_eq
  intro k hk
  rw [getLsbD_nzRead m busy draw hk, BitVec.getLsbD_and, getLsbD_nzMask k hk]
  cases hr : nzReserved k with
  | true => simp
  | false => simp [nzBit_of_unwritten h hr]

/-- Settles O47: what each register reads after a reset edge, at the values of R48. -/
theorem registersAfterReset : Obligations.RegistersAfterReset := by
  refine ⟨State.reset_atReset, fun s draw h => ?_⟩
  obtain ⟨seen, cmd, status, irqEn, irq, unwritten⟩ := h
  have read : ∀ (a : Offset) (r : Reg), a.toNat = r.offset →
      (busRead a draw s).resp = some (.read .ok (regValue s draw r)) := by
    intro a r ha
    rw [busRead_reg_seen ha draw seen, State.respond_resp]
  refine ⟨read _ .id rfl, ?_, ?_, read _ .config rfl, ?_, ?_, irq, ?_⟩
  · rw [read _ .cmd rfl, regValue, cmd]
  · rw [read _ .status rfl, regValue, status, Status.word_reset]
  · rw [read _ .irqEn rfl, regValue, irqEn, IrqEn.word_reset]
  · rw [read _ .nz rfl, regValue, nzRead_of_unwritten unwritten]
  · rw [status]

end Sys2Proof.Machine
end

section
/-! PROOFS. Idle buffer writes and CMD writes (20_memory.md R61, R62, R70). -/

namespace Sys2Proof.Machine

/-! ### A word written to a buffer -/

/-- Little-endian (20_memory.md R61). -/
theorem get_writeBufWord_byte (m : Memory) (a : Nat) (w : Word) {k : Nat} (hk : k < 4) :
    (writeBufWord m a w).get (a + k) = some (byteOf w k) :=
  Memory.get_fill_in _ _ _ _ hk

/-- READ AFTER WRITE of a word: all of it is written, so no lane takes the draw's bits (10_state.md R35 a). -/
theorem readBufWord_writeBufWord (m : Memory) (b : Buf) (a : Nat) (w draw : Word) :
    readBufWord (writeBufWord m a w) b a draw = w := by
  unfold readBufWord
  split
  · obtain ⟨low, high⟩ := getLevel_writeBufWord m a w
    rw [low, high]
    exact packHalves_halfOf w
  · have byte0 : (writeBufWord m a w).get a = some (byteOf w 0) := get_writeBufWord_byte m a w (by decide : 0 < 4)
    rw [byte0, get_writeBufWord_byte m a w (by decide), get_writeBufWord_byte m a w (by decide),
      get_writeBufWord_byte m a w (by decide)]
    exact packBytes_byteOf w

/-- An idle read of a word just written. -/
theorem busRead_writeBufWord {a : Offset} (aligned : a.toNat % 4 = 0) (low : 0x100 ≤ a.toNat)
    (mapped : mappedOffset a.toNat) {t : State} (idle : t.status.busy = false) {m : Memory} {w : Word}
    (written : t.mem = writeBufWord m a.toNat w) (draw : Word) : busRead a draw t = t.respond (.read .ok w) := by
  obtain ⟨b, holds, -⟩ := exists_buf low mapped
  rw [busRead_buf aligned holds, idle, written, readBufWord_writeBufWord]
  rfl

/-- Settles O40: the write is `writeBufWord`, whose bytes and levels have their lemmas. -/
theorem bufferWordLayout : Obligations.BufferWordLayout := by
  intro s a w d idle aligned writable
  have write : busWrite a w d s = State.respond { s with mem := writeBufWord s.mem a.toNat w } (.write .ok) := by
    rw [busWrite_writable aligned writable, idle]
    rfl
  obtain ⟨low, mapped, -⟩ := writable
  obtain ⟨level0, level1⟩ := getLevel_writeBufWord s.mem a.toNat w
  refine ⟨_, write, rfl, fun k hk => get_writeBufWord_byte _ _ _ hk, fun _ => ⟨?_, ?_⟩, fun draw => ?_,
    fun x hx => Memory.get_fill_out _ _ _ _ hx⟩
  · exact (levelIs_iff _ _ _).mpr ⟨_, level0, rfl⟩
  · exact (levelIs_iff _ _ _).mpr ⟨_, level1, rfl⟩
  · refine busRead_writeBufWord aligned low mapped ?_ rfl draw
    exact idle

/-! ### A write to CMD -/

theorem writeCmd_accepted {s : State} {w : Word} {i : Instr} (idle : s.status.busy = false) (command : decode w = .ok i)
    (a : Offset) (d : Nat) : writeCmd a w d s = (s.accept w d).respond (.write .ok) := by
  rw [writeCmd, idle, command]
  rfl

theorem writeCmd_rejected {s : State} {w : Word} (h : s.status.busy = true ∨ ∀ i, decode w ≠ .ok i) (a : Offset)
    (d : Nat) : writeCmd a w d s = s.raise (.write a w) .cmdErr := by
  unfold writeCmd
  split
  · rfl
  · next idle =>
    cases decoded : decode w with
    | error _ => rfl
    | ok i => exact absurd decoded (h.resolve_left idle i)

/-- Settles O37: a write at CMD's offset is `writeCmd`. -/
theorem commandAccepted : Obligations.CommandAccepted := by
  intro s w d
  rw [busWrite_reg (r := .cmd) rfl]
  exact ⟨fun i idle command => writeCmd_accepted idle command _ d, fun h => writeCmd_rejected h _ d⟩

end Sys2Proof.Machine
end

section
/-! PROOFS. The words of the commands in numbers (30_encoding.md R90 to R94). -/

namespace Sys2Proof

/-! ### The fields of a word -/

theorem opField_eq (w : Word) : opField w = w.toNat % 16 := by
  rw [opField, BitVec.extractLsb'_toNat, Nat.shiftRight_zero]

theorem val_blkField (w : Word) : (blkField w : Nat) = w.toNat / 16 % 16 := by
  change (w.extractLsb' 4 4).toNat = _
  rw [BitVec.extractLsb'_toNat, Nat.shiftRight_eq_div_pow]

theorem planeField_eq_cr_iff (w : Word) : planeField w = .cr ↔ w.toNat / 256 % 2 = 1 := by
  have bit : w.getLsbD 8 = decide (w.toNat / 256 % 2 = 1) := by
    rw [← BitVec.testBit_toNat, Nat.testBit_eq_decide_div_mod_eq]
  rw [planeField, bit]
  split <;> simp_all

/-- The bits of a word from bit `k` on are 0 exactly if its number is below `2 ^ k`. -/
theorem extractLsb'_eq_zero_iff_lt (w : Word) {k n : Nat} (rest : k + n = 32) :
    w.extractLsb' k n = 0 ↔ w.toNat < 2 ^ k := by
  have small : w.toNat / 2 ^ k < 2 ^ n := Nat.div_lt_of_lt_mul (by rw [← Nat.pow_add, rest]; exact w.isLt)
  rw [← BitVec.toNat_inj, BitVec.extractLsb'_toNat, Nat.shiftRight_eq_div_pow, Nat.mod_eq_of_lt small]
  simp

/-- OP, BLK and PLANE are the digits of a command's word (30_encoding.md R90). -/
theorem toNat_encode (i : Instr) :
    (encode i).toNat = 16 * i.blkBits.toNat + i.op.toNat + 256 * i.planeBit.toNat := by
  have append {m n : Nat} (x : BitVec m) (y : BitVec n) : (x ++ y).toNat = 2 ^ n * x.toNat + y.toNat := by
    rw [BitVec.toNat_append, Nat.shiftLeft_eq, Nat.mul_comm, Nat.two_pow_add_eq_or_of_lt y.isLt]
  have zeros : (0 : BitVec 23).toNat = 0 := rfl
  simp only [encode, append, zeros]
  omega

/-! ### A word of each kind that decodes is the word of its command -/

/-- What the three kinds of command have in common: the check of the zero bits. -/
theorem guard_eq_ok_iff {c : Prop} [Decidable c] {j i : Instr} :
    (if c then Except.ok j else .error Invalid.nonzeroField) = .ok i ↔ c ∧ j = i := by
  split <;> simp_all

theorem eq_encode_of_plainCommand {w : Word} {j i : Instr} (h : plainCommand w j = .ok i)
    (op : opField w = j.op.toNat) (noBlk : j.blkBits = 0) (noPlane : j.planeBit = 0) : w = encode i := by
  obtain ⟨zeros, rfl⟩ := guard_eq_ok_iff.mp h
  rw [extractLsb'_eq_zero_iff_lt w rfl] at zeros
  rw [opField_eq] at op
  apply BitVec.eq_of_toNat_eq
  rw [toNat_encode, noBlk, noPlane, ← op]
  simp; omega

theorem eq_encode_of_blockCommand {w : Word} {f : Fin 16 → Instr} {i : Instr} (h : blockCommand w f = .ok i)
    (op : ∀ b, opField w = (f b).op.toNat) (blk : ∀ b, (f b).blkBits = BitVec.ofFin b)
    (noPlane : ∀ b, (f b).planeBit = 0) : w = encode i := by
  obtain ⟨zeros, rfl⟩ := guard_eq_ok_iff.mp h
  rw [extractLsb'_eq_zero_iff_lt w rfl] at zeros
  have blkDigit : (BitVec.ofFin (w := 4) (blkField w)).toNat = w.toNat / 16 % 16 := val_blkField w
  apply BitVec.eq_of_toNat_eq
  rw [toNat_encode, blk, noPlane, ← op, opField_eq, blkDigit]
  simp; omega

theorem eq_encode_of_planeCommand {w : Word} {f : Plane → Instr} {i : Instr} (h : planeCommand w f = .ok i)
    (op : ∀ p, opField w = (f p).op.toNat) (noBlk : ∀ p, (f p).blkBits = 0)
    (plane : ∀ p, (f p).planeBit = if p = .cr then 1 else 0) : w = encode i := by
  obtain ⟨⟨zeros, noBlkField⟩, rfl⟩ := guard_eq_ok_iff.mp h
  rw [extractLsb'_eq_zero_iff_lt w rfl] at zeros
  have noBlkDigit : w.toNat / 16 % 16 = 0 := by rw [← val_blkField]; exact congrArg BitVec.toNat noBlkField
  apply BitVec.eq_of_toNat_eq
  rw [toNat_encode, noBlk, plane, ← op, opField_eq]
  by_cases cr : planeField w = .cr
  · rw [if_pos cr]
    rw [planeField_eq_cr_iff] at cr
    simp; omega
  · rw [if_neg cr]
    rw [planeField_eq_cr_iff] at cr
    simp; omega

/-! ### The decoder is the inverse of the encoder -/

theorem eq_encode_of_decode {w : Word} {i : Instr} (h : decode w = .ok i) : w = encode i := by
  unfold decode at h
  split at h <;> rename_i op
  case h_13 => cases h
  case h_2 | h_3 | h_4 =>
    exact eq_encode_of_blockCommand h (fun _ => op) (fun _ => rfl) (fun _ => rfl)
  case h_8 | h_9 | h_10 =>
    exact eq_encode_of_planeCommand h (fun _ => op) (fun _ => rfl) (fun _ => rfl)
  all_goals exact eq_encode_of_plainCommand h op rfl rfl

theorem decode_encode (i : Instr) : decode (encode i) = .ok i := by
  cases i with
  | nop | fwdL16 | invL16 | rtL16 | pcmCopy | clrCoef => rfl
  | fwdL4 b | invL4 b | rtL4 b => revert b; decide
  | fwdC8 p | invC8 p | rtC8 p => cases p <;> rfl

theorem decode_eq_ok_iff (w : Word) (i : Instr) : decode w = .ok i ↔ w = encode i := by
  constructor
  · exact eq_encode_of_decode
  · rintro rfl
    exact decode_encode i

/-- The table of 30_encoding.md R92 in numbers, for a command of any kind. -/
theorem decode_eq_ok_iff_toNat (w : Word) (i : Instr) :
    decode w = .ok i ↔ w.toNat = 16 * i.blkBits.toNat + i.op.toNat + 256 * i.planeBit.toNat := by
  rw [decode_eq_ok_iff, ← BitVec.toNat_inj, toNat_encode]

/-- Settles O2: the number of each row is made of its command's fields. -/
theorem decodeByTheTable : Obligations.DecodeByTheTable := by
  intro w
  have row := decode_eq_ok_iff_toNat w
  exact ⟨row .nop, fun b => ⟨row (.fwdL4 b), row (.invL4 b), row (.rtL4 b)⟩, row .fwdL16, row .invL16, row .rtL16,
    row (.fwdC8 .cb), row (.fwdC8 .cr), row (.invC8 .cb), row (.invC8 .cr), row (.rtC8 .cb), row (.rtC8 .cr),
    row .pcmCopy, row .clrCoef⟩

end Sys2Proof
end

section
/-! PROOFS. The assembler: words, rejections and pseudo-statements (30_encoding.md R95 to R97). -/

namespace Sys2Proof

/-! ### Command lines -/

/-- The assembler rejects exactly the lines that R95 has it reject. -/
theorem AsmCommand.word_eq_none_iff (c : AsmCommand) : c.word = none ↔ c.wf = false := by
  obtain ⟨m, operand⟩ := c
  have known : (instr ⟨m, operand⟩).isSome = wf ⟨m, operand⟩ := by
    match operand with
    | none | some (.plane _) => cases m <;> rfl
    | some (.number n) => by_cases h : n < 16 <;> cases m <;> simp [instr, wf, Mnemonic.operandKind, h]
  rw [AsmCommand.word, Option.map_eq_none_iff, ← known, Option.isSome_eq_false_iff, Option.isNone_iff_eq_none]

theorem AsmCommand.word_eq_none_of_superfluous {m : Mnemonic} (kind : m.operandKind = .none) (o : AsmOperand) :
    AsmCommand.word ⟨m, some o⟩ = none := by
  rw [word_eq_none_iff, wf, kind]

/-- A command with a block operand is rejected without one, with a number out of range and with a plane. -/
theorem AsmCommand.word_eq_none_of_block {m : Mnemonic} (kind : m.operandKind = .block) :
    AsmCommand.word ⟨m, none⟩ = none ∧ (∀ n, 16 ≤ n → AsmCommand.word ⟨m, some (.number n)⟩ = none) ∧
      ∀ p, AsmCommand.word ⟨m, some (.plane p)⟩ = none := by
  simp only [word_eq_none_iff, wf, kind]
  exact ⟨trivial, fun n large => decide_eq_false (by omega), fun _ => trivial⟩

theorem AsmCommand.word_eq_none_of_plane {m : Mnemonic} (kind : m.operandKind = .plane) :
    AsmCommand.word ⟨m, none⟩ = none ∧ ∀ n, AsmCommand.word ⟨m, some (.number n)⟩ = none := by
  simp only [word_eq_none_iff, wf, kind]
  exact ⟨trivial, fun _ => trivial⟩

/-- The word of a command line from the number of the command it names. -/
theorem AsmCommand.word_eq_some_of_instr {c : AsmCommand} {i : Instr} (named : c.instr = some i) :
    c.word = some (BitVec.ofNat 32 (16 * i.blkBits.toNat + i.op.toNat + 256 * i.planeBit.toNat)) := by
  rw [word, named, ← toNat_encode, BitVec.ofNat_toNat, BitVec.setWidth_eq]
  rfl

/-- Settles O4: the words are the numbers of R92, and the rejections go by the kind of operand that a mnemonic takes. -/
theorem assemblerWords : Obligations.AssemblerWords := by
  refine ⟨fun n small => ?_, rfl, rfl, rfl, rfl, rfl, rfl, rfl, rfl, rfl, rfl, rfl, rfl,
    fun m hm => AsmCommand.word_eq_none_of_block ?_, fun m hm => AsmCommand.word_eq_none_of_plane ?_,
    fun m hm => AsmCommand.word_eq_none_of_superfluous ?_⟩
  · exact ⟨AsmCommand.word_eq_some_of_instr (i := .fwdL4 ⟨n, small⟩) (dif_pos small),
      AsmCommand.word_eq_some_of_instr (i := .invL4 ⟨n, small⟩) (dif_pos small),
      AsmCommand.word_eq_some_of_instr (i := .rtL4 ⟨n, small⟩) (dif_pos small)⟩
  all_goals
    revert m
    decide

end Sys2Proof

namespace Sys2Proof.Machine

/-! ### Lines without labels -/

/-- A line that expands to statements without a branch assembles to them. -/
theorem assemble_singleton {l : Line} {ss : List Stmt} (h : expandLine l = some (ss.map .plain)) :
    assemble [l] = some ss := by
  have resolved : (ss.map LabelledStmt.plain).mapM (resolve [l]) = some ss := by
    rw [List.mapM_map]
    exact List.mapM_pure.trans (congrArg some (List.map_id ss))
  simp [assemble, h, resolved]

theorem assemble_command {c : AsmCommand} {w : Word} (h : c.word = some w) :
    assemble [.command c] = some [.wr 0x004 w] := by
  apply assemble_singleton
  rw [expandLine, h]
  rfl

theorem assemble_wrblk4 {base : Offset} {stride : Nat} (h : strideOf base = some stride) (v : Vector Byte 16) :
    assemble [.wrblk4 base v] =
      some ((List.range 4).map fun i => .wr (base + BitVec.ofNat 12 (stride * i)) (rowWord v i)) := by
  apply assemble_singleton
  rw [expandLine, h, List.map_map]
  rfl

/-! ### The stride of a sample buffer -/

theorem strideOf_of_mem_luma {base : Offset} {b : Buf} (holds : b.holds base.toNat = true)
    (luma : b ∈ [Buf.yOrig, .yPred, .yRecon]) : strideOf base = some 16 := by
  rw [strideOf, (targetOf_buf_iff _ b).mpr holds]
  clear holds
  revert b
  decide

theorem strideOf_of_mem_chroma {base : Offset} {b : Buf} (holds : b.holds base.toNat = true)
    (chroma : b ∈ [Buf.cbOrig, .crOrig, .cbPred, .crPred, .cbRecon, .crRecon]) : strideOf base = some 8 := by
  rw [strideOf, (targetOf_buf_iff _ b).mpr holds]
  clear holds
  revert b
  decide

theorem exists_luma_of_inSamples {a : Nat}
    (h : inSamples 0x100 256 a ∨ inSamples 0x300 256 a ∨ inSamples 0x500 256 a) :
    ∃ b ∈ [Buf.yOrig, .yPred, .yRecon], b.holds a = true := by
  simp [inSamples, Buf.holds_iff, Buf.base, Buf.last] at h ⊢
  omega

/-- The two chroma buffers of a kind lie one after the other. -/
theorem exists_chroma_of_inSamples {a : Nat}
    (h : inSamples 0x200 128 a ∨ inSamples 0x400 128 a ∨ inSamples 0x600 128 a) :
    ∃ b ∈ [Buf.cbOrig, .crOrig, .cbPred, .crPred, .cbRecon, .crRecon], b.holds a = true := by
  simp [inSamples, Buf.holds_iff, Buf.base, Buf.last] at h ⊢
  omega

/-! ### The bytes of a row -/

theorem byteOf_rowWord (v : Vector Byte 16) (i : Nat) {k : Nat} (hk : k < 4) :
    byteOf (rowWord v i) k = v.toList.getD (4 * i + k) 0 := by
  obtain ⟨byte0, byte1, byte2, byte3⟩ := byteOf_packBytes (v.toList.getD (4 * i) 0) (v.toList.getD (4 * i + 1) 0)
    (v.toList.getD (4 * i + 2) 0) (v.toList.getD (4 * i + 3) 0)
  match k with
  | 0 => exact byte0
  | 1 => exact byte1
  | 2 => exact byte2
  | 3 => exact byte3

theorem getElem?_eq_some_byteOf_rowWord (v : Vector Byte 16) {i k : Nat} (hi : i < 4) (hk : k < 4) :
    v[4 * i + k]? = some (byteOf (rowWord v i) k) := by
  have inside : 4 * i + k < 16 := by omega
  rw [byteOf_rowWord v i hk, List.getD_eq_getElem _ _ (by simpa using inside), Vector.getElem_toList,
    Vector.getElem?_eq_getElem inside]

/-- Settles O5: each line expands to statements without a branch; the stride goes by the buffer that holds the offset. -/
theorem pseudoStatementsExpand : Obligations.PseudoStatementsExpand := by
  refine ⟨fun c w => assemble_command, assemble_singleton rfl, assemble_singleton rfl,
    fun base v => ⟨fun h => ?_, fun h => ?_⟩, fun v i k hi hk => (getElem?_eq_some_byteOf_rowWord v hi hk).symm⟩
  · obtain ⟨b, luma, holds⟩ := exists_luma_of_inSamples h
    rw [assemble_wrblk4 (strideOf_of_mem_luma holds luma)]
    simp [List.range_succ]
  · obtain ⟨b, chroma, holds⟩ := exists_chroma_of_inSamples h
    rw [assemble_wrblk4 (strideOf_of_mem_chroma holds chroma)]
    simp [List.range_succ]

end Sys2Proof.Machine
end

section
/-! PROOFS. The two quantisers by their formulas (40_forward.md R114, R115). -/

namespace Sys2Proof.Machine

/-- The magnitude that a quotient shifts is not negative, so the shift is division of natural numbers. -/
theorem signQuot_eq_sign_mul_div (w : Int) (m f n : Nat) :
    signQuot w m f n = w.sign * ((w.natAbs * m + f) / 2 ^ n : Nat) := by
  unfold signQuot shr
  push_cast
  rfl

theorem fIntra_eq_getD {qp : Nat} (h : qp < 54) :
    fIntra qp = [10922, 21845, 43690, 87381, 174762, 349525, 699050, 1398101, 2796202].getD (qp / 6) 0 := by
  have values : ∀ k < 9, 2 ^ (15 + k) / 3 =
      [10922, 21845, 43690, 87381, 174762, 349525, 699050, 1398101, 2796202].getD k 0 := by decide
  exact values (qp / 6) (by omega)

theorem quant_neg (w : Int) (qp u v : Nat) : quant (-w) qp u v = -quant w qp u v := by
  rw [quant_eq, quant_eq, signQuot_neg]

@[simp] theorem quant_zero (qp u v : Nat) : quant 0 qp u v = 0 := by
  rw [quant_eq, signQuot_zero]

/-- Settles O7: both quantisers are a `signQuot`, whose shift is a division, and which is odd. -/
theorem quantiserFormulas : Obligations.QuantiserFormulas := by
  refine ⟨fun w qp u v => ?_, fun w qp => ?_, fun qp h => fIntra_eq_getD h, quant_neg, quant_zero⟩
  · rw [quant_eq, signQuot_eq_sign_mul_div, fIntra, qbits]
  · rw [quantDC_eq, signQuot_eq_sign_mul_div, fIntra, qbits]

end Sys2Proof.Machine
end

section
/-! PROOFS. The right shifts of the inverse stage as floor divisions (41_inverse.md R142 to R145). -/

namespace Sys2Proof.Machine

/-! ### A shift in general -/

/-- A power of 2 is positive, so the division that `shr` is made of rounds down (41_inverse.md R145). -/
theorem shr_eq_fdiv (a : Int) (n : Nat) : shr a n = a.fdiv (2 ^ n) :=
  (Int.fdiv_eq_ediv_of_nonneg a (by positivity)).symm

theorem shr_one (a : Int) : shr a 1 = a.fdiv 2 := shr_eq_fdiv a 1

theorem shr_mul_two_pow_le (a : Int) (n : Nat) : shr a n * 2 ^ n ≤ a :=
  Int.ediv_mul_le a (by positivity)

theorem lt_shr_add_one_mul_two_pow (a : Int) (n : Nat) : a < (shr a n + 1) * 2 ^ n :=
  Int.lt_ediv_add_one_mul_self a (by positivity)

/-! ### The shifts of the two DC paths -/

/-- The branch of the luma DC path that rounds (41_inverse.md R142). -/
theorem lumaDcInverse_of_lt {qp : Nat} (h : qp < 12) (c : Mat) (m n : Nat) :
    lumaDcInverse qp c m n = shr (hdh c m n * levelScale (qp % 6) 0 + 2 ^ (1 - qp / 6)) (2 - qp / 6) :=
  if_neg (by omega)

theorem chromaDcInverse_eq_fdiv (qp : Nat) (c : Mat) (m n : Nat) :
    chromaDcInverse qp c m n = (ada c m n * levelScale (qp % 6) 0 * 2 ^ (qp / 6)).fdiv 2 := by
  rw [chromaDcInverse, shr_one, shl]

/-! ### The shifts of the inverse transform -/

/-- Both passes of 41_inverse.md R144 are made of this transform of four terms. -/
theorem butterfly_eq_fdiv (a b c d : Int) :
    butterfly a b c d 0 = (a + c) + (b + d.fdiv 2) ∧ butterfly a b c d 1 = (a - c) + (b.fdiv 2 - d) ∧
      butterfly a b c d 2 = (a - c) - (b.fdiv 2 - d) ∧ butterfly a b c d 3 = (a + c) - (b + d.fdiv 2) := by
  simp only [butterfly, shr_one, and_self]

theorem itrans_eq_fdiv (d : Mat) (i j : Nat) : itrans d i j = (columnPass (rowPass d) i j + 32).fdiv 64 :=
  shr_eq_fdiv _ 6

/-- Settles O6: every shift is a `shr`, and the two passes of the inverse transform are the `f` and `h` of R144. -/
theorem shiftsFloor : Obligations.ShiftsFloor := by
  refine ⟨fun a n => ⟨shr_eq_fdiv a n, shr_mul_two_pow_le a n, lt_shr_add_one_mul_two_pow a n⟩,
    fun qp c m n low => ?_, chromaDcInverse_eq_fdiv, fun d => ⟨rowPass d, columnPass (rowPass d), ?rows, ?columns, ?last⟩,
    rfl, rfl⟩
  · rw [lumaDcInverse_of_lt low, shr_eq_fdiv]
  case rows => exact fun i => butterfly_eq_fdiv (d i 0) (d i 1) (d i 2) (d i 3)
  case columns => exact fun j => butterfly_eq_fdiv (rowPass d 0 j) (rowPass d 1 j) (rowPass d 2 j) (rowPass d 3 j)
  case last => exact fun i j _ _ => itrans_eq_fdiv d i j

end Sys2Proof.Machine
end

section
/-! PROOFS. PCM_COPY (42_roundtrip_control.md R180). -/

namespace Sys2Proof.Machine

theorem Comp.orig_size (c : Comp) : c.orig.base + c.width * c.width = c.orig.last + 1 := by cases c <;> decide

/-- A sample lies in its buffer, where the buffer has the size of the component's plane. -/
theorem holds_sampleAddr {c : Comp} {buf : Buf} (size : buf.base + c.width * c.width = buf.last + 1) {x y : Nat}
    (hx : x < c.width) (hy : y < c.width) : buf.holds (sampleAddr c buf x y) = true := by
  have inside := blockIndex_lt hy hx
  rw [Buf.holds_iff, sampleAddr_eq]
  omega

/-- Copying a plane changes no buffer but the RECON it copies into. -/
theorem get_copyPlane_of_holds {c : Comp} {b : Buf} {a : Nat} (held : b.holds a = true) (other : b ≠ c.recon)
    (m : Memory) : (copyPlane c m).get a = m.get a := by
  refine get_copyPlane_out c m fun ⟨low, high⟩ => other (Buf.disjoint held ?_)
  rw [c.recon_size] at high
  exact (Buf.holds_iff _ _).mpr ⟨low, Nat.le_of_lt_succ high⟩

/-- The copies of the three components do not meet: none writes an ORIG, nor another component's RECON. -/
theorem get_pcmCopyMem (c : Comp) (m : Memory) {x y : Nat} (hx : x < c.width) (hy : y < c.width) :
    (pcmCopyMem m).get (sampleAddr c c.recon x y) = m.get (sampleAddr c c.orig x y) := by
  have target := holds_sampleAddr c.recon_size hx hy
  have source := holds_sampleAddr c.orig_size hx hy
  cases c with
  | y =>
    rw [pcmCopyMem, get_copyPlane_of_holds target (by decide), get_copyPlane_of_holds target (by decide),
      get_copyPlane .y m hx hy]
  | cb =>
    rw [pcmCopyMem, get_copyPlane_of_holds target (by decide), get_copyPlane .cb _ hx hy,
      get_copyPlane_of_holds source (by decide)]
  | cr =>
    rw [pcmCopyMem, get_copyPlane .cr _ hx hy, get_copyPlane_of_holds source (by decide),
      get_copyPlane_of_holds source (by decide)]

/-- Settles O22: the samples by `get_pcmCopyMem`, every other byte by the frame of all commands. -/
theorem pcmCopyCopies : Obligations.PcmCopyCopies := by
  refine ⟨rfl, fun s => ⟨_, exec_eq .pcmCopy s, rfl, fun x y hx hy => get_pcmCopyMem .y s.mem hx hy,
    fun x y hx hy => ⟨get_pcmCopyMem .cb s.mem hx hy, get_pcmCopyMem .cr s.mem hx hy⟩, fun a notLuma notChroma => ?_⟩⟩
  apply execMem_frame s.cfg .pcmCopy s.mem
  simp only [writes, inSamples] at notLuma notChroma ⊢
  omega

end Sys2Proof.Machine
end

section
/-! PROOFS. CLR_COEF (42_roundtrip_control.md R182). -/

namespace Sys2Proof.Machine

/-! ### Coefficient buffers of zeros -/

/-- Every level of the coefficient buffer `b` is written and is 0. -/
def Buf.isZero (b : Buf) (m : Memory) : Prop := ∀ k, b.base + 2 * k < b.last → m.getLevel (b.base + 2 * k) = some 0

theorem levelIs_zero {m : Memory} {a : Nat} (h : m.getLevel a = some 0) : levelIs m a 0 :=
  (levelIs_iff m a 0).mpr ⟨0, h, rfl⟩

theorem isZero_coef_clearLevels (c : Comp) (m : Memory) : c.coef.isZero (clearLevels c m) := by
  intro k hk
  have size := c.coef_size
  exact getLevel_clearLevels_coef c m (by omega)

theorem isZero_dc_clearLevels (c : Comp) (m : Memory) : c.dc.isZero (clearLevels c m) := by
  intro k hk
  have size := c.dc_size
  exact getLevel_clearLevels_dc c m (by omega)

/-- Clearing a component changes no buffer but the two that it clears. -/
theorem get_clearLevels_of_holds {c : Comp} {b : Buf} {a : Nat} (held : b.holds a = true) (notCoef : b ≠ c.coef)
    (notDc : b ≠ c.dc) (m : Memory) : (clearLevels c m).get a = m.get a := by
  have coefSize := c.coef_size
  have dcSize := c.dc_size
  refine get_clearLevels_out c m (fun ⟨low, high⟩ => notCoef (Buf.disjoint held ?_))
    (fun ⟨low, high⟩ => notDc (Buf.disjoint held ?_))
  · exact (Buf.holds_iff _ _).mpr ⟨low, by omega⟩
  · exact (Buf.holds_iff _ _).mpr ⟨low, by omega⟩

/-- Clearing any component keeps a buffer of zeros. -/
theorem Buf.isZero.after_clearLevels {b : Buf} {m : Memory} (zero : b.isZero m) (c : Comp) :
    b.isZero (clearLevels c m) := by
  by_cases coef : b = c.coef
  · rw [coef]
    exact isZero_coef_clearLevels c m
  by_cases dc : b = c.dc
  · rw [dc]
    exact isZero_dc_clearLevels c m
  intro k hk
  have kept : ∀ a, b.base ≤ a → a ≤ b.last → (clearLevels c m).get a = m.get a := fun a low high =>
    get_clearLevels_of_holds ((Buf.holds_iff b a).mpr ⟨low, high⟩) coef dc m
  rw [getLevel_congr (kept _ (by omega) (by omega)) (kept _ (by omega) (by omega))]
  exact zero k hk

/-- The coefficient and the DC buffer of every component are zeros. -/
def Memory.levelsZero (m : Memory) : Prop := ∀ c : Comp, c.coef.isZero m ∧ c.dc.isZero m

theorem levelsZero_clrCoefMem (m : Memory) : (clrCoefMem m).levelsZero
  | .y => ⟨((isZero_coef_clearLevels .y m).after_clearLevels .cb).after_clearLevels .cr,
      ((isZero_dc_clearLevels .y m).after_clearLevels .cb).after_clearLevels .cr⟩
  | .cb => ⟨(isZero_coef_clearLevels .cb _).after_clearLevels .cr, (isZero_dc_clearLevels .cb _).after_clearLevels .cr⟩
  | .cr => ⟨isZero_coef_clearLevels .cr _, isZero_dc_clearLevels .cr _⟩

/-! ### NZ of zeros -/

theorem someNonzero_of_zero {m : Memory} {l : List Nat} (zero : ∀ a ∈ l, m.getLevel a = some 0) :
    someNonzero m l = some false := by
  have written : ∀ a ∈ l, (m.getLevel a).isSome = true := fun a ha => by rw [zero a ha]; rfl
  have value : ∀ a ∈ l, levelAt m a = 0 := fun a ha => levelAt_of_is (levelIs_zero (zero a ha))
  rw [someNonzero_of_written written]
  simpa using value

section
variable {m : Memory} (zero : m.levelsZero)
include zero

theorem getLevel_coefAddrs_of_zero (c : Comp) : ∀ a ∈ coefAddrs c, m.getLevel a = some 0 := by
  intro a ha
  obtain ⟨b, u, v, hb, hu, hv, rfl⟩ := (mem_coefAddrs c a).mp ha
  have size := c.coef_size
  exact (zero c).1 (16 * b + 4 * u + v) (by omega)

theorem getLevel_dcAddrs_of_zero (c : Comp) : ∀ a ∈ dcAddrs c, m.getLevel a = some 0 := by
  intro a ha
  obtain ⟨i, j, hi, hj, rfl⟩ := (mem_dcAddrs c a).mp ha
  have inside := blockIndex_lt hi hj
  have size := c.dc_size
  exact (zero c).2 (c.side * i + j) (by omega)

theorem yNz_of_zero {b : Nat} (hb : b < 16) : yNz m b = some false :=
  someNonzero_of_zero fun a ha => getLevel_coefAddrs_of_zero zero .y a (List.mem_flatMap.mpr ⟨b, List.mem_range.mpr hb, ha⟩)

theorem dcNz_of_zero (c : Comp) : dcNz m c = some false := someNonzero_of_zero (getLevel_dcAddrs_of_zero zero c)

theorem acNz_of_zero (c : Comp) : acNz m c = some false :=
  someNonzero_of_zero fun a ha => getLevel_coefAddrs_of_zero zero c a (acAddrs_subset_coefAddrs c ha)

theorem cbpLuma_of_zero {q : Nat} (hq : q < 4) : cbpLuma m q = some false := by
  simp (disch := omega) [cbpLuma, yNz_of_zero zero]

theorem cbpChroma_of_zero : cbpChroma m = some 0 := by
  have all : someNonzero m (coefAddrs .cb ++ coefAddrs .cr) = some false :=
    someNonzero_of_zero fun a ha =>
      (List.mem_append.mp ha).elim (getLevel_coefAddrs_of_zero zero .cb a) (getLevel_coefAddrs_of_zero zero .cr a)
  simp [cbpChroma, all, dcNz_of_zero zero, acNz_of_zero zero]

/-- Every field is defined and 0 (10_state.md R42 to R45). -/
theorem nzBit_of_zero (k : Nat) : nzBit m k = some false := by
  unfold nzBit
  split_ifs with luma
  · exact yNz_of_zero zero luma
  · exact dcNz_of_zero zero .y
  · exact dcNz_of_zero zero .cb
  · exact acNz_of_zero zero .cb
  · exact dcNz_of_zero zero .cr
  · exact acNz_of_zero zero .cr
  · rfl
  · exact cbpLuma_of_zero zero (by omega)
  · rw [cbpChroma_of_zero zero, Option.map_some, Nat.zero_testBit]
  · rfl

/-- No field of NZ takes the draw's bits. -/
theorem nzRead_of_zero (draw : Word) : nzRead m false draw = 0 := by
  apply BitVec.eq_of_getLsbD_eq
  intro k hk
  rw [getLsbD_nzRead m false draw hk, nzBit_of_zero zero k]
  simp

end

/-- Settles O23: after CLR_COEF all levels are 0 (`levelsZero_clrCoefMem`), and every field of NZ is then defined and 0. -/
theorem clrCoefZeroes : Obligations.ClrCoefZeroes := by
  refine ⟨rfl, fun s => ?_⟩
  have zero := levelsZero_clrCoefMem s.mem
  refine ⟨_, exec_eq .clrCoef s, rfl, ?luma, ?lumaDc, fun pl => ?chroma, fun seen draw => ?nz, fun a outside => ?frame⟩
  case luma => exact fun k hk => levelIs_zero ((zero .y).1 k (by simp only [Comp.coef, Buf.base, Buf.last]; omega))
  case lumaDc => exact fun k hk => levelIs_zero ((zero .y).2 k (by simp only [Comp.dc, Buf.base, Buf.last]; omega))
  case chroma =>
    obtain ⟨coef, dc, -⟩ := chroma_bases pl
    have coefSize := (planeComp pl).coef_size
    have dcSize := (planeComp pl).dc_size
    rw [Comp.side_plane] at coefSize dcSize
    rw [← coef, ← dc]
    exact ⟨fun k hk => levelIs_zero ((zero _).1 k (by omega)), fun k hk => levelIs_zero ((zero _).2 k (by omega))⟩
  case nz =>
    have read := busRead_reg_seen (a := 0x014) (r := .nz) rfl draw (s := s.complete (clrCoefMem s.mem)) seen
    rw [regValue, State.complete_mem, State.complete_status, nzRead_of_zero zero] at read
    exact read
  case frame =>
    apply execMem_frame s.cfg .clrCoef s.mem
    simp only [writes, inLevels] at outside ⊢
    omega

end Sys2Proof.Machine
end

section
/-! PROOFS. NOP (42_roundtrip_control.md R184). -/

namespace Sys2Proof.Machine

theorem extractLsb'_encode_op (i : Instr) : (encode i).extractLsb' 0 4 = i.op := by
  rw [encode, BitVec.extractLsb'_append_eq_right]

theorem eq_nop_of_op_eq_zero {i : Instr} (h : i.op = 0) : i = .nop := by
  cases i with
  | nop => rfl
  | _ => simp [Instr.op] at h

/-- Settles O12: a word with OP 0 that decodes is NOP's word, which is 0. -/
theorem nopCompletes : Obligations.NopCompletes := by
  refine ⟨rfl, fun s d idle => ?_, exec_eq .nop, fun w i op nonzero decoded => ?_⟩
  · rw [busWrite_reg (r := .cmd) rfl]
    exact writeCmd_accepted idle (decode_encode .nop) _ d
  · have word := eq_encode_of_decode decoded
    rw [word, extractLsb'_encode_op] at op
    rw [eq_nop_of_op_eq_zero op] at word
    exact nonzero word

end Sys2Proof.Machine
end

section
/-! PROOFS. What raises each error, and what a rejected access leaves (60_exceptions.md R203 to R206). -/

namespace Sys2Proof.Machine

/-- An aligned mapped read answers `OK`, a busy one too (60_exceptions.md R205). -/
theorem busRead_ok {a : Offset} (noAddr : ¬ (a.toNat % 4 ≠ 0 ∨ ¬ mappedOffset a.toNat)) (draw : Word) (s : State) :
    ∃ x, busRead a draw s = s.respond (.read .ok x) :=
  (busRead_inv a draw s).resolve_left fun error => noAddr error.1

/-- A write to CMD that is not an acceptance (60_exceptions.md R203). -/
theorem busWrite_cmdErr {s : State} {w : Word} (h : s.status.busy = true ∨ ∀ i, decode w ≠ .ok i) (d : Nat) :
    busWrite 0x004 w d s = s.raise (.write 0x004 w) .cmdErr :=
  (busWrite_reg (r := .cmd) rfl w d s).trans (writeCmd_rejected h _ d)

/-- An offset above the registers that raises no ADDR_ERR names a host-writable buffer (20_memory.md R60, R63). -/
theorem writableOffset_of_noAddr {a : Nat} (noAddr : ¬ (a % 4 ≠ 0 ∨ ¬ mappedOffset a ∨ reconOffset a)) (low : 0x100 ≤ a) :
    a % 4 = 0 ∧ writableOffset a := by
  simp only [not_or, not_not] at noAddr
  obtain ⟨aligned, mapped, notRecon⟩ := noAddr
  exact ⟨aligned, low, mapped, notRecon⟩

/-- A write to a host-writable buffer while BUSY (60_exceptions.md R205). -/
theorem busWrite_wbusyErr {s : State} {a : Offset} (aligned : a.toNat % 4 = 0) (writable : writableOffset a.toNat)
    (busy : s.status.busy = true) (w : Word) (d : Nat) : busWrite a w d s = s.raise (.write a w) .wbusyErr := by
  rw [busWrite_writable aligned writable, if_pos busy]

/-- A write to which none of the six conditions of R206 applies answers `OK`. Its STATUS bits: a STATUS write clears, an
acceptance sets BUSY and clears DONE, any other write keeps all five. -/
theorem busWrite_ok {s : State} {a : Offset} {w : Word}
    (noAddr : ¬ (a.toNat % 4 ≠ 0 ∨ ¬ mappedOffset a.toNat ∨ reconOffset a.toNat))
    (noCmd : ¬ (a = 0x004 ∧ (s.status.busy = true ∨ ∀ i, decode w ≠ .ok i)))
    (noWbusy : ¬ (0x100 ≤ a.toNat ∧ s.status.busy = true)) (d : Nat) :
    (busWrite a w d s).resp = some (.write .ok) ∧
      (a = 0x008 ∧ (busWrite a w d s).status = s.status.clear w ∨
        a ≠ 0x008 ∧ ((busWrite a w d s).status = s.status ∨
          (busWrite a w d s).status = { s.status with busy := true, done := false })) := by
  rcases busWrite_inv a w d s with ⟨addr, -⟩ | ⟨rfl, cmd, -⟩ | ⟨rfl, -, -, accepted⟩ | ⟨rfl, cleared⟩ |
    ⟨rfl, enabled⟩ | ⟨readOnly, ignored⟩ | ⟨⟨low, -⟩, busy, -⟩ | ⟨⟨low, -⟩, -, -, stored⟩
  · exact absurd addr noAddr
  · exact absurd ⟨rfl, cmd⟩ noCmd
  · rw [accepted]
    exact ⟨rfl, .inr ⟨by decide, .inr rfl⟩⟩
  · rw [cleared]
    exact ⟨rfl, .inl ⟨rfl, rfl⟩⟩
  · rw [enabled]
    exact ⟨rfl, .inr ⟨by decide, .inl rfl⟩⟩
  · rw [ignored]
    refine ⟨rfl, .inr ⟨?_, .inl rfl⟩⟩
    rintro rfl
    exact absurd readOnly (by decide)
  · exact absurd ⟨low, busy⟩ noWbusy
  · rw [stored]
    refine ⟨rfl, .inr ⟨?_, .inl rfl⟩⟩
    rintro rfl
    exact absurd low (by decide)

theorem busWrite_status (w : Word) (d : Nat) (s : State) :
    busWrite 0x008 w d s = State.respond { s with status := s.status.clear w } (.write .ok) :=
  busWrite_reg (r := .status) rfl w d s

/-- ADDR_ERR after a write that does not raise it: CMD_ERR and WBUSY_ERR are other bits, and of the writes that raise
nothing only one to STATUS clears it (10_state.md R38). -/
theorem busWrite_addrErr_iff {a : Offset} (noAddr : ¬ (a.toNat % 4 ≠ 0 ∨ ¬ mappedOffset a.toNat ∨ reconOffset a.toNat))
    (w : Word) (d : Nat) (s : State) :
    (busWrite a w d s).status.addrErr = true ↔ s.status.addrErr = true ∧ ¬ (a = 0x008 ∧ w.getLsbD 3 = true) := by
  by_cases status : a = 0x008
  · rw [status, busWrite_status, State.respond_status, Status.clear_addrErr]
    simp only [Bool.and_eq_true, Bool.not_eq_true', true_and, Bool.not_eq_true]
  rw [and_iff_left fun clearing => status clearing.1]
  by_cases cmd : a = 0x004 ∧ (s.status.busy = true ∨ ∀ i, decode w ≠ .ok i)
  · obtain ⟨rfl, rejected⟩ := cmd
    rw [busWrite_cmdErr rejected, State.raise_status, Status.raise_cmdErr_addrErr]
  by_cases wbusy : 0x100 ≤ a.toNat ∧ s.status.busy = true
  · obtain ⟨low, busy⟩ := wbusy
    obtain ⟨aligned, writable⟩ := writableOffset_of_noAddr noAddr low
    rw [busWrite_wbusyErr aligned writable busy, State.raise_status, Status.raise_wbusyErr_addrErr]
  obtain ⟨-, ⟨isStatus, -⟩ | ⟨-, kept | accepted⟩⟩ := busWrite_ok noAddr cmd wbusy d
  · exact absurd isStatus status
  · rw [kept]
  · rw [accepted]

/-- Settles O36: a write at CMD's offset that is no acceptance. -/
theorem commandRejected : Obligations.CommandRejected := fun _ _ d h => busWrite_cmdErr h d

/-- Settles O38: a busy write to a writable buffer, and a busy read of the buffer at the offset. -/
theorem busyBufferAccess : Obligations.BusyBufferAccess := by
  intro s a w draw d busy aligned
  refine ⟨fun writable => busWrite_wbusyErr aligned writable busy w d, fun ⟨low, mapped⟩ => ?_⟩
  obtain ⟨b, holds, -⟩ := exists_buf low mapped
  rw [busRead_buf aligned holds, if_pos busy]
  rfl

/-- Settles O39: one lemma per outcome of a write, and the two outcomes of a read. -/
theorem oneErrorPerAccess : Obligations.OneErrorPerAccess := by
  intro s a w draw d
  refine ⟨_, _, _, rfl, rfl, rfl, fun addr => busWrite_error addr w d s, ?cmd, ?wbusy, ?ok,
    fun addr => busRead_error addr draw s, fun noAddr => busRead_ok noAddr draw s⟩
  case cmd =>
    rintro - ⟨rfl, rejected⟩
    exact busWrite_cmdErr rejected d
  case wbusy =>
    rintro noAddr - ⟨low, busy⟩
    obtain ⟨aligned, writable⟩ := writableOffset_of_noAddr noAddr low
    exact busWrite_wbusyErr aligned writable busy w d
  case ok =>
    intro noAddr noCmd noWbusy
    obtain ⟨answer, status⟩ := busWrite_ok noAddr noCmd noWbusy d
    refine ⟨answer, ?_⟩
    obtain ⟨-, cleared⟩ | ⟨-, kept | accepted⟩ := status
    · rw [cleared]
      simp only [Status.clear_cmdErr, Status.clear_addrErr, Status.clear_wbusyErr, Bool.and_eq_true]
      exact ⟨And.left, And.left, And.left⟩
    · rw [kept]
      exact ⟨id, id, id⟩
    · rw [accepted]
      exact ⟨id, id, id⟩

/-- Settles O35: the errors of both accesses, and what an access without one does to ADDR_ERR. -/
theorem addressErrors : Obligations.AddressErrors := by
  intro s a w draw d
  refine ⟨fun addr => busRead_error addr draw s, fun addr => busWrite_error addr w d s, ?read, ?write⟩
  case read =>
    rintro ⟨aligned, mapped⟩
    exact busRead_ok (by simp only [not_or, not_not]; exact ⟨aligned, mapped⟩) draw s
  case write =>
    rintro ⟨aligned, mapped, notRecon⟩
    exact busWrite_addrErr_iff (by simp only [not_or, not_not]; exact ⟨aligned, mapped, notRecon⟩) w d s

end Sys2Proof.Machine
end

section
/-! PROOFS. The decoder against the encoder, and words written out (30_encoding.md sections 1 and 2). -/

namespace Sys2Proof

/-- Settles O3: a word that decodes is its command's encoding, and every encoding decodes. -/
theorem decodeIffEncode : Obligations.DecodeIffEncode := decode_eq_ok_iff

/-- Settles O1: the decoder evaluated on each word. -/
theorem writtenOutWordsDecode : Obligations.WrittenOutWordsDecode := by
  refine ⟨rfl, rfl, rfl, rfl, rfl, rfl, rfl, rfl, rfl, rfl, rfl, rfl, fun w hw i decoded => ?_⟩
  have invalid : ∀ w ∈ [(0x104 : Word), 0x101, 0x17, 0x1B, 0xC, 0xD, 0xE, 0xF, 0x200, 0x80000003, 0xFFFFFFFF],
      (decode w).toOption = none := by
    rw [← List.forall_iff_forall_mem]
    exact ⟨rfl, rfl, rfl, rfl, rfl, rfl, rfl, rfl, rfl, rfl, rfl⟩
  have none_some := invalid w hw
  rw [decoded] at none_some
  cases none_some

end Sys2Proof
end

section
/-! PROOFS. The invariant: it holds at reset, and every step keeps it (10_state.md section 3, 20_memory.md sections 1
and 3). -/

namespace Sys2Proof.Machine

theorem State.Inv.memOk {s : State} (h : s.Inv) : MemOk s.mem := ⟨h.memWf, h.mapped, h.levels⟩

/-- The invariant by its parts: the shape of memory and what it says of the registers. -/
theorem State.Inv.of_memOk {s : State} (mem : MemOk s.mem) (latch : ∃ i, decode s.cmd = .ok i)
    (doneLow : s.status.busy = true → s.status.done = false) (seen : s.resetSeen = true) : s.Inv :=
  ⟨mem.memWf, mem.mapped, mem.levels, latch, doneLow, seen⟩

/-- The invariant is kept where buffers, CMD and BUSY are, and DONE does not rise. -/
theorem State.Inv.of_kept {s t : State} (h : s.Inv) (mem : t.mem = s.mem) (cmd : t.cmd = s.cmd)
    (busy : t.status.busy = s.status.busy) (done : t.status.done = true → s.status.done = true)
    (seen : t.resetSeen = s.resetSeen) : t.Inv := by
  refine .of_memOk (mem ▸ h.memOk) (cmd ▸ h.latch) (fun inFlight => ?_) (seen ▸ h.seen)
  have low := h.doneLow (busy ▸ inFlight)
  exact Bool.eq_false_iff.mpr fun risen => by rw [done risen] at low; cases low

theorem State.resetEdge_inv (s : State) : s.resetEdge.Inv :=
  .of_memOk .nil ⟨.nop, decode_encode .nop⟩ nofun rfl

theorem State.Inv.complete {s : State} (h : s.Inv) (i : Instr) : (s.complete (execMem s.cfg i s.mem)).Inv :=
  .of_memOk (h.memOk.execMem s.cfg i) h.latch nofun h.seen

theorem State.Inv.raise {s : State} (h : s.Inv) (t : Txn) (e : ErrorBit) : (s.raise t e).Inv :=
  h.of_kept rfl rfl (Status.raise_busy _ e) (by rw [raise_status, Status.raise_done]; exact id) rfl

theorem State.Inv.busRead {s : State} (h : s.Inv) (a : Offset) (draw : Word) : (busRead a draw s).Inv := by
  rcases busRead_cases a draw s with error | ⟨x, ok⟩
  · rw [error]
    exact h.raise _ _
  · rw [ok]
    exact h.of_kept rfl rfl rfl id rfl

theorem State.Inv.busWrite {s : State} (h : s.Inv) (a : Offset) (w : Word) (d : Nat) : (busWrite a w d s).Inv := by
  rcases busWrite_cases a w d s with ⟨e, error⟩ | ignored | ⟨-, cleared⟩ | ⟨-, enabled⟩ | ⟨-, -, command, accepted⟩ |
    ⟨b, holds, aligned, -, -, stored⟩
  · rw [error]
    exact h.raise _ _
  · rw [ignored]
    exact h.of_kept rfl rfl rfl id rfl
  · rw [cleared]
    refine h.of_kept rfl rfl rfl (fun done => ?_) rfl
    exact (Bool.and_eq_true_iff.mp done).1
  · rw [enabled]
    exact h.of_kept rfl rfl rfl id rfl
  · rw [accepted]
    exact .of_memOk h.memOk command (fun _ => rfl) h.seen
  · rw [stored]
    exact .of_memOk (h.memOk.writeBufWord holds aligned w) h.latch h.doneLow h.seen

theorem State.Inv.hostTurn {s : State} (h : s.Inv) : (hostTurn s).Inv := by
  have tick : s.tick.Inv := h.of_kept rfl rfl rfl id rfl
  rcases hostTurn_cases s with ⟨-, pass⟩ | ⟨off, w, -, write⟩ | ⟨st, off, -, -, read⟩
  · rw [pass]
    exact tick
  · rw [write]
    exact (tick.busWrite off w _).of_kept rfl rfl rfl id rfl
  · rw [read]
    exact (tick.busRead off _).of_kept rfl rfl rfl id rfl

/-- Settles O48: the state after reset is that of a reset edge. -/
theorem invariantAtReset : Obligations.InvariantAtReset := State.reset.resetEdge_inv.of_kept rfl rfl rfl id rfl

/-- Settles O49: a reset edge establishes the invariant; a completion step and a host turn keep it. -/
theorem stepKeepsInvariant : Obligations.StepKeepsInvariant := by
  intro s t h stepped
  have edge : s.dropEdge.Inv := h.of_kept rfl rfl rfl id rfl
  obtain ⟨-, rfl⟩ | ⟨-, -, i, -, rfl⟩ | ⟨-, -, rfl⟩ := step_cases stepped
  · exact State.resetEdge_inv _
  · exact edge.complete i
  · exact edge.hostTurn

end Sys2Proof.Machine
end

section
/-! PROOFS. Steps: which agent moves, when the machine stops, and the life of a command in flight (20_memory.md section 3). -/

namespace Sys2Proof.Machine

/-! ### Which step it is -/

theorem step_reset {s : State} (hr : s.resetDue = true) : step s = .next s.dropEdge.resetEdge := by
  rw [step, if_pos hr]

/-- The model's only stop (log entry 7). -/
theorem step_undecodable {s : State} (hr : s.resetDue = false) (hb : s.status.busy = true) (hc : s.countdown = 0)
    (hd : ∀ i, decode s.cmd ≠ .ok i) : step s = .refused .undecodableLatch := by
  have due : s.engineTurn = true := by rw [State.engineTurn, hb, hc]; rfl
  rw [step, hr, agentStep, engineTurn_dropEdge, due, engineStep, State.dropEdge_cmd]
  cases decoded : decode s.cmd with
  | error _ => rfl
  | ok i => exact absurd decoded (hd i)

/-- The engine is due, or it is the host's turn. -/
theorem engine_or_host (s : State) :
    (s.status.busy = true ∧ s.countdown = 0) ∨ (s.status.busy = false ∨ s.countdown ≠ 0) := by
  cases s.status.busy <;> simp [em]

theorem engineTurn_iff (s : State) : s.engineTurn = true ↔ s.status.busy = true ∧ s.countdown = 0 := by
  simp [State.engineTurn]

/-- A step answers a next state unless the engine is due on a CMD word that decodes to no command. -/
theorem exists_step {s : State} (h : s.resetDue = true ∨ (s.status.busy = false ∨ s.countdown ≠ 0) ∨
    ∃ i, decode s.cmd = .ok i) : ∃ t, step s = .next t := by
  cases reset : s.resetDue with
  | true => exact ⟨_, step_reset reset⟩
  | false =>
    obtain ⟨busy, due⟩ | host := engine_or_host s
    · have command : ∃ i, decode s.cmd = .ok i := by simpa [reset, busy, due] using h
      obtain ⟨i, command⟩ := command
      exact ⟨_, (step_engine reset busy due command).trans (exec_eq i _)⟩
    · exact ⟨_, step_host reset host⟩

/-- Settles O50: under the invariant CMD decodes. -/
theorem noStepStops : Obligations.NoStepStops := fun _ h => exists_step (.inr (.inr h.latch))

/-- Settles O56: in every other case the step answers a next state. -/
theorem onlyAnUndecodableLatchStops : Obligations.OnlyAnUndecodableLatchStops := by
  intro s
  constructor
  · rintro ⟨r, refused⟩
    have noNext : ¬ ∃ t, step s = .next t := by
      rintro ⟨t, stepped⟩
      rw [stepped] at refused
      cases refused
    have stop := mt exists_step noNext
    simp only [not_or, not_exists, Bool.not_eq_true, Bool.not_eq_false, not_not] at stop
    obtain ⟨low, ⟨busy, due⟩, undecodable⟩ := stop
    exact ⟨low, busy, due, undecodable⟩
  · rintro ⟨low, busy, due, undecodable⟩
    exact ⟨_, step_undecodable low busy due undecodable⟩

/-- Settles O44: a step with `rst` low and the engine due is the engine's. -/
theorem stepRunsTheLatchedCommand : Obligations.StepRunsTheLatchedCommand :=
  fun _ _ low busy due command => step_engine low busy due command

/-- Settles O46: the step is `State.resetEdge`. -/
theorem resetEdgeResets : Obligations.ResetEdgeResets := by
  intro s high
  exact ⟨_, step_reset high, ⟨rfl, rfl, rfl, rfl, rfl, fun _ => rfl⟩, rfl, rfl, rfl, rfl, rfl⟩

/-- Settles O55: of the three steps only a host turn is not one update of the state, and it keeps the parameters. -/
theorem parametersAreFixed : Obligations.ParametersAreFixed := by
  intro s t stepped
  obtain ⟨-, rfl⟩ | ⟨-, -, i, -, rfl⟩ | ⟨-, -, rfl⟩ := step_cases stepped
  · rfl
  · rfl
  · exact (hostTurn_kept s.dropEdge).1

/-! ### A host turn on each statement -/

/-- Past the script's end a turn only counts down. -/
theorem hostTurn_of_none {s : State} (pastEnd : s.script[s.pos]? = none) : hostTurn s = s.tick := by
  unfold hostTurn hostAccess
  simp only [pastEnd]
  rfl

theorem hostTurn_of_write {s : State} {off : Offset} {w : Word} (stmt : s.script[s.pos]? = some (.wr off w)) :
    hostTurn s = { busWrite off w (Config.drawDelay s.draws) s.tick with draws := s.draws + 1, pos := s.pos + 1 } := by
  unfold hostTurn hostAccess
  simp only [stmt]
  rfl

/-- A turn whose statement reads: the position after it goes by the data that the read answers. -/
theorem step_read {s : State} (hr : s.resetDue = false) (turn : s.status.busy = false ∨ s.countdown ≠ 0) {st : Stmt}
    {off : Offset} (stmt : s.script[s.pos]? = some st) (read : stmtTxn st = .read off) :
    ∃ t x code, step s = .next t ∧
      t = { busRead off (Config.drawWord s.draws) s.dropEdge.tick with draws := s.draws + 1, pos := t.pos } ∧
      t.resp = some (.read code x) ∧ t.pos = stmtNext st s.pos (some (.read code x)) := by
  obtain ⟨code, x, answer⟩ := busRead_resp off (Config.drawWord s.draws) s.dropEdge.tick
  have host := hostTurn_of_read (s := s.dropEdge) stmt read answer
  exact ⟨_, x, code, (step_host hr turn).trans (congrArg _ host), rfl, answer, rfl⟩

/-- Settles O45: the turn is `hostTurn`, one clause per statement. -/
theorem hostTurnPerformsStatement : Obligations.HostTurnPerformsStatement := by
  intro s low turn
  have host := step_host (s := s) low turn
  refine ⟨s.dropEdge.tick, rfl, fun off w stmt => ?wr, fun off stmt => ?rd, fun off mask value stmt => ?poll,
    fun off mask value target stmt => ?bne, fun pastEnd => ?none⟩
  case wr => exact host.trans (congrArg _ (hostTurn_of_write (s := s.dropEdge) stmt))
  case rd =>
    obtain ⟨t, x, code, stepped, same, -, next⟩ := step_read low turn stmt rfl
    rw [next] at same
    rw [stepped, same]
    rfl
  case poll =>
    obtain ⟨t, x, code, stepped, same, answer, next⟩ := step_read low turn stmt rfl
    exact ⟨t, x, code, stepped, same, answer, next⟩
  case bne =>
    obtain ⟨t, x, code, stepped, same, answer, next⟩ := step_read low turn stmt rfl
    refine ⟨t, x, code, stepped, same, answer, next.trans ?_⟩
    by_cases equal : x &&& mask = value <;> simp [stmtNext, responseData, equal]
  case none => exact host.trans (congrArg _ (hostTurn_of_none (s := s.dropEdge) pastEnd))

/-! ### A command in flight -/

/-- Settles O51: a busy host turn keeps the command in flight. -/
theorem hostCannotDisturbCommandInFlight : Obligations.HostCannotDisturbCommandInFlight := by
  intro s t busy notDue low stepped
  rw [step_host low (.inr notDue)] at stepped
  obtain rfl := Host.Outcome.next.inj stepped
  obtain ⟨cmd, mem, stillBusy, countdown⟩ := hostTurn_busy (s := s.dropEdge) busy
  exact ⟨cmd, mem, stillBusy, (hostTurn_kept s.dropEdge).1, countdown⟩

/-- With `rst` low a command in flight completes after its countdown, on the buffers it was accepted on (20_memory.md R72,
R73). -/
theorem run_completes (n : Nat) {s : State} {i : Instr} (count : s.countdown = n) (busy : s.status.busy = true)
    (command : decode s.cmd = .ok i) (low : ∀ k, k ≤ n → s.rst.getD k false = false) :
    ∃ t, core.run (n + 1) s = .next t ∧ t.mem = execMem s.cfg i s.mem ∧ t.cmd = s.cmd ∧ t.status.busy = false ∧
      t.status.done = true := by
  have lowNow : s.resetDue = false := by
    rw [State.resetDue, List.headD_eq_getD]
    exact low 0 n.zero_le
  induction n generalizing s with
  | zero =>
    have completed := (step_engine lowNow busy count command).trans (exec_eq i _)
    exact ⟨_, run_succ_of_next completed 0, rfl, rfl, rfl, rfl⟩
  | succ n ih =>
    have stepped := step_host lowNow (.inr (by omega))
    obtain ⟨cmd, mem, stillBusy, countdown⟩ := hostTurn_busy (s := s.dropEdge) busy
    obtain ⟨cfg, -, rst⟩ := hostTurn_kept s.dropEdge
    have lowLater : ∀ k, k ≤ n → (hostTurn s.dropEdge).rst.getD k false = false := by
      intro k hk
      have later := low (k + 1) (by omega)
      rw [rst, State.dropEdge_rst]
      cases levels : s.rst with
      | nil => rfl
      | cons level rest => rwa [levels] at later
    obtain ⟨t, ran, result, latch, idle, done⟩ := ih (s := hostTurn s.dropEdge)
      (by rw [countdown, State.dropEdge_countdown, count, Nat.add_sub_cancel]) stillBusy (by rw [cmd]; exact command)
      lowLater (by rw [State.resetDue, List.headD_eq_getD]; exact lowLater 0 n.zero_le)
    refine ⟨t, (run_succ_of_next stepped (n + 1)).trans ran, ?_, latch.trans cmd, idle, done⟩
    rw [result, cfg, mem]
    rfl

/-- Settles O52, by `run_completes` from the countdown that the command has left. -/
theorem commandInFlightCompletes : Obligations.CommandInFlightCompletes := by
  intro s i busy command low
  obtain ⟨t, ran, mem, cmd, idle, done⟩ := run_completes s.countdown rfl busy command low
  exact ⟨t, _, ran, exec_eq i s, mem, cmd, idle, done⟩

end Sys2Proof.Machine
end

section
/-! PROOFS. What a step does to STATUS and to the buffers, by its causes (10_state.md sections 2, 3 and 5). -/

namespace Sys2Proof.Machine

/-! ### STATUS -/

/-- An access whose offset raises ADDR_ERR (60_exceptions.md R204). -/
def addrError : Txn → Prop
  | .read off => off.toNat % 4 ≠ 0 ∨ ¬ mappedOffset off.toNat
  | .write off _ => off.toNat % 4 ≠ 0 ∨ ¬ mappedOffset off.toNat ∨ reconOffset off.toNat

/-- What a step with `rst` low does to STATUS: one constructor per event of 10_state.md R38. -/
inductive StatusEvent (s t : State) : Prop where
  | kept (status : t.status = s.status)
  | completed (busy : s.status.busy = true) (due : s.countdown = 0)
      (status : t.status = { s.status with busy := false, done := true })
  | accepted (w : Word) (i : Instr) (stmt : s.script[s.pos]? = some (.wr 0x004 w)) (idle : s.status.busy = false)
      (command : decode w = .ok i) (latch : t.cmd = w) (status : t.status = { s.status with busy := true, done := false })
  | cleared (w : Word) (stmt : s.script[s.pos]? = some (.wr 0x008 w)) (status : t.status = s.status.clear w)
  | cmdErr (w : Word) (stmt : s.script[s.pos]? = some (.wr 0x004 w))
      (rejected : s.status.busy = true ∨ ∀ i, decode w ≠ .ok i) (status : t.status = s.status.raise .cmdErr)
  | addrErr (st : Stmt) (stmt : s.script[s.pos]? = some st) (error : addrError (stmtTxn st))
      (status : t.status = s.status.raise .addrErr)
  | wbusyErr (off : Offset) (w : Word) (stmt : s.script[s.pos]? = some (.wr off w)) (writable : writableOffset off.toNat)
      (busy : s.status.busy = true) (status : t.status = s.status.raise .wbusyErr)

theorem hostTurn_statusEvent (s : State) : StatusEvent s (hostTurn s.dropEdge) := by
  rcases hostTurn_cases s.dropEdge with ⟨-, pass⟩ | ⟨off, w, stmt, write⟩ | ⟨st, off, stmt, txn, read⟩
  · rw [pass]
    exact .kept rfl
  · rw [write]
    rcases busWrite_inv off w (Config.drawDelay s.dropEdge.draws) s.dropEdge.tick with ⟨error, h⟩ | ⟨rfl, rejected, h⟩ |
      ⟨rfl, idle, ⟨i, command⟩, h⟩ | ⟨rfl, h⟩ | ⟨-, h⟩ | ⟨-, h⟩ | ⟨writable, busy, h⟩ | ⟨-, -, -, h⟩ <;> rw [h]
    · exact .addrErr _ stmt error rfl
    · exact .cmdErr w stmt rejected rfl
    · exact .accepted w i stmt idle command rfl rfl
    · exact .cleared w stmt rfl
    · exact .kept rfl
    · exact .kept rfl
    · exact .wbusyErr off w stmt writable busy rfl
    · exact .kept rfl
  · rw [read]
    rcases busRead_inv off (Config.drawWord s.dropEdge.draws) s.dropEdge.tick with ⟨error, h⟩ | ⟨x, h⟩ <;> rw [h]
    · exact .addrErr st stmt (by rw [txn]; exact error) rfl
    · exact .kept rfl

theorem step_statusEvent {s t : State} (low : s.resetDue = false) (stepped : step s = .next t) : StatusEvent s t := by
  obtain ⟨high, -⟩ | ⟨-, due, i, -, rfl⟩ | ⟨-, -, rfl⟩ := step_cases stepped
  · rw [low] at high
    cases high
  · obtain ⟨busy, due⟩ := (engineTurn_iff s).mp due
    exact .completed busy due rfl
  · exact hostTurn_statusEvent s

/-- Settles O53: each event moves the bits of its own clauses and no other. -/
theorem statusBitLifecycle : Obligations.StatusBitLifecycle := by
  intro s t low stepped
  cases step_statusEvent low stepped with
  | kept status => simp +contextual [status]
  | completed busy due status => simp +contextual [status, busy, due]
  | accepted w i stmt idle command latch status => simp +contextual [status, stmt, idle, command, latch]
  | cleared w stmt status => simp +contextual [status, stmt]
  | cmdErr w stmt rejected status => simp +contextual [status, stmt, rejected]
  | addrErr st stmt error status =>
    simp +contextual [status, stmt]
    exact fun _ => error
  | wbusyErr off w stmt writable busy status => simp +contextual [status, stmt, writable, busy]

/-! ### The buffers -/

/-- What a step with `rst` low does to the buffers: nothing, an idle host write of a word, or the completion of a
command. -/
inductive BufferEvent (s t : State) : Prop where
  | kept (mem : t.mem = s.mem)
  | stored (off : Offset) (w : Word) (stmt : s.script[s.pos]? = some (.wr off w)) (idle : s.status.busy = false)
      (writable : writableOffset off.toNat) (aligned : off.toNat % 4 = 0) (mem : t.mem = writeBufWord s.mem off.toNat w)
  | completed (i : Instr) (busy : s.status.busy = true) (due : s.countdown = 0) (command : decode s.cmd = .ok i)
      (mem : t.mem = execMem s.cfg i s.mem)

theorem hostTurn_bufferEvent (s : State) : BufferEvent s (hostTurn s.dropEdge) := by
  rcases hostTurn_cases s.dropEdge with ⟨-, pass⟩ | ⟨off, w, stmt, write⟩ | ⟨st, off, -, -, read⟩
  · rw [pass]
    exact .kept rfl
  · rw [write]
    rcases busWrite_inv off w (Config.drawDelay s.dropEdge.draws) s.dropEdge.tick with ⟨-, h⟩ | ⟨-, -, h⟩ | ⟨-, -, -, h⟩ | ⟨-, h⟩ |
      ⟨-, h⟩ | ⟨-, h⟩ | ⟨-, -, h⟩ | ⟨writable, aligned, idle, h⟩ <;> rw [h]
    · exact .kept rfl
    · exact .kept rfl
    · exact .kept rfl
    · exact .kept rfl
    · exact .kept rfl
    · exact .kept rfl
    · exact .kept rfl
    · exact .stored off w stmt idle writable aligned rfl
  · rw [read]
    rcases busRead_inv off (Config.drawWord s.dropEdge.draws) s.dropEdge.tick with ⟨-, h⟩ | ⟨x, h⟩ <;> rw [h] <;> exact .kept rfl

theorem step_bufferEvent {s t : State} (low : s.resetDue = false) (stepped : step s = .next t) : BufferEvent s t := by
  obtain ⟨high, -⟩ | ⟨-, due, i, command, rfl⟩ | ⟨-, -, rfl⟩ := step_cases stepped
  · rw [low] at high
    cases high
  · obtain ⟨busy, due⟩ := (engineTurn_iff s).mp due
    exact .completed i busy due command rfl
  · exact hostTurn_bufferEvent s

/-- No command writes ORIG or PRED (10_state.md R32). -/
theorem le_of_writes {i : Instr} {a : Nat} (h : writes i a) : 0x500 ≤ a := by
  cases i with
  | nop => exact h.elim
  | fwdC8 p | invC8 p | rtC8 p =>
    cases p <;> simp only [writes, inLevels, inSamples, chromaCoef, chromaDc, chromaRecon] at h <;> omega
  | _ =>
    simp only [writes, inLevels, inSamples, inLumaBlock] at h
    omega

/-- A word that the host may write has no byte of RECON. -/
theorem not_reconOffset_of_writable {off a : Nat} (writable : writableOffset off) (aligned : off % 4 = 0) (low : off ≤ a)
    (high : a < off + 4) : ¬ reconOffset a := by
  obtain ⟨-, -, notRecon⟩ := writable
  unfold reconOffset at notRecon ⊢
  omega

/-- Settles O54: the bytes that an idle host write and a completion can change. -/
theorem whoWritesWhichBuffer : Obligations.WhoWritesWhichBuffer := by
  intro s t a low stepped changed
  cases step_bufferEvent low stepped with
  | kept mem => exact absurd (congrArg (·.get a) mem) changed
  | stored off w stmt idle writable aligned mem =>
    have inWord : off.toNat ≤ a ∧ a < off.toNat + 4 := by
      by_contra outside
      rw [mem, get_writeBufWord, if_neg outside] at changed
      exact changed rfl
    obtain ⟨first, last⟩ := inWord
    have host : ∃ off w, s.script[s.pos]? = some (.wr off w) ∧ s.status.busy = false ∧ off.toNat ≤ a ∧ a < off.toNat + 4 :=
      ⟨off, w, stmt, idle, first, last⟩
    exact ⟨fun _ => host, fun recon => absurd recon (not_reconOffset_of_writable writable aligned first last),
      fun _ => .inl host⟩
  | completed i busy due command mem =>
    have written : writes i a := by
      by_contra outside
      rw [mem, execMem_frame s.cfg i s.mem outside] at changed
      exact changed rfl
    have engine : s.status.busy = true ∧ s.countdown = 0 ∧ ∃ i, decode s.cmd = .ok i ∧ writes i a :=
      ⟨busy, due, i, command, written⟩
    exact ⟨fun below => absurd (le_of_writes written) (by omega), fun _ => engine, fun _ => .inr engine⟩

end Sys2Proof.Machine
end

section
/-! PROOFS. Before the first reset edge (70_reset_and_hazards.md R232), and the transactions of a run (30_encoding.md
R98). -/

namespace Sys2Proof.Machine

/-- Settles O58: `resetSeen` decides what a register reads as, and only a reset edge sets it. -/
theorem registersBeforeReset : Obligations.RegistersBeforeReset := by
  refine ⟨fun s draw unseen a register => ?_, fun s t stepped => ?_, ⟨rfl, fun _ => rfl⟩, fun r => ?_⟩
  · have offset : ∃ r : Reg, a.toNat = r.offset := by
      simp only [List.mem_cons, List.not_mem_nil, or_false] at register
      obtain rfl | rfl | rfl | rfl | rfl | rfl := register
      exacts [⟨.id, rfl⟩, ⟨.cmd, rfl⟩, ⟨.status, rfl⟩, ⟨.config, rfl⟩, ⟨.irqEn, rfl⟩, ⟨.nz, rfl⟩]
    obtain ⟨r, offset⟩ := offset
    exact busRead_reg_unseen offset draw unseen
  · rw [step_resetSeen stepped, Bool.or_eq_true]
    rfl
  · exact ⟨_, step_reset rfl, ⟨rfl, rfl, rfl, rfl, rfl, fun _ => rfl⟩, rfl⟩

/-- A statement that leads to the next position, whatever it reads. -/
def isStraight (st : Stmt) : Prop := (∃ off w, st = .wr off w) ∨ ∃ off, st = .rd off

theorem stmtNext_of_straight {st : Stmt} (straight : isStraight st) (pos : Nat) (r : Option Response) :
    stmtNext st pos r = pos + 1 := by
  obtain ⟨off, w, rfl⟩ | ⟨off, rfl⟩ := straight <;> rfl

/-- A host turn on a statement moves by `stmtNext`. -/
theorem hostTurn_pos {s : State} {st : Stmt} (stmt : s.script[s.pos]? = some st) :
    ∃ r, (hostTurn s).pos = stmtNext st s.pos r := by
  unfold hostTurn hostAccess
  simp only [stmt]
  exact ⟨_, rfl⟩

/-- A step that issues nothing stays where it is, and one that issues a statement's transaction was at that statement. -/
theorem step_offered {s t : State} (stepped : step s = .next t) :
    t.script = s.script ∧ (s.offered = none ∧ t.pos = s.pos ∨
      ∃ st r, s.script[s.pos]? = some st ∧ s.offered = some (stmtTxn st) ∧ t.pos = stmtNext st s.pos r) := by
  obtain ⟨high, rfl⟩ | ⟨-, due, i, -, rfl⟩ | ⟨low, notDue, rfl⟩ := step_cases stepped
  · exact ⟨rfl, .inl ⟨offered_silent (.inl high), rfl⟩⟩
  · exact ⟨rfl, .inl ⟨offered_silent (.inr ((engineTurn_iff s).mp due)), rfl⟩⟩
  · refine ⟨(hostTurn_kept s.dropEdge).2.1, ?_⟩
    have offered : s.offered = (s.script[s.pos]?).map stmtTxn := by
      rw [State.offered, low, notDue]
      rfl
    cases stmt : s.script[s.pos]? with
    | none =>
      rw [stmt] at offered
      exact .inl ⟨offered, by rw [hostTurn_of_none (s := s.dropEdge) stmt]; rfl⟩
    | some st =>
      rw [stmt] at offered
      obtain ⟨r, pos⟩ := hostTurn_pos (s := s.dropEdge) stmt
      exact .inr ⟨st, r, rfl, offered, pos⟩

/-- A script without branches issues its statements' transactions in written order. -/
theorem issued_of_straight (n : Nat) {s : State} (straight : ∀ st ∈ s.script, isStraight st) :
    ∃ k, issued n s = ((s.script.drop s.pos).take k).map stmtTxn := by
  induction n generalizing s with
  | zero => exact ⟨0, rfl⟩
  | succ n ih =>
    cases stepped : step s with
    | fault _ | refused _ => exact ⟨0, by rw [issued, stepped]; rfl⟩
    | next t =>
      obtain ⟨script, silent⟩ := step_offered stepped
      obtain ⟨k, rest⟩ := ih (s := t) (by rw [script]; exact straight)
      rw [issued_succ stepped, rest, script]
      obtain ⟨nothing, pos⟩ | ⟨st, r, stmt, issues, pos⟩ := silent
      · exact ⟨k, by rw [nothing, pos]; rfl⟩
      · obtain ⟨inside, here⟩ := List.getElem?_eq_some_iff.mp stmt
        have next := stmtNext_of_straight (straight st (List.mem_of_getElem? stmt)) s.pos r
        refine ⟨k + 1, ?_⟩
        rw [issues, pos, next, List.drop_eq_getElem_cons inside, here]
        rfl

/-- Settles O59: what each step offers, and for a script without branches an induction over the steps. -/
theorem issuedTransactions : Obligations.IssuedTransactions := by
  refine ⟨fun s => rfl, fun n s st low turn stmt => ?host, fun n s t stepped silent => ?silent,
    fun n s straight => issued_of_straight n straight⟩
  case host =>
    have stepped := step_host (s := s) low turn
    refine ⟨_, stmtTxn st, stepped, ?_, by cases st <;> rfl⟩
    rw [issued_succ stepped, offered_host low turn, stmt]
    rfl
  case silent =>
    have nothing : s.offered = none := by
      obtain high | due | pastEnd := silent
      · exact offered_silent (.inl high)
      · exact offered_silent (.inr due)
      · rw [State.offered, pastEnd]
        split <;> rfl
    rw [issued_succ stepped, nothing]
    rfl

end Sys2Proof.Machine
end

section
/-! PROOFS. Register reads and writes: STATUS, IRQ_EN and the read-only registers (10_state.md section 5), and the lanes
of an idle buffer read (20_memory.md section 1). -/

namespace Sys2Proof.Machine

theorem Status.getLsbD_word (st : Status) {k : Nat} (hk : k < 32) : st.word.getLsbD k = st.bit k := getLsbD_wordOfBits _ hk

theorem IrqEn.getLsbD_word (e : IrqEn) {k : Nat} (hk : k < 32) : e.word.getLsbD k = e.bit k := getLsbD_wordOfBits _ hk

/-- Reserved bits at the top of a word read 0. -/
theorem extractLsb'_wordOfBits_eq_zero {f : Nat → Bool} {lo n : Nat} (fits : lo + n = 32) (zero : ∀ k, f (lo + k) = false) :
    (wordOfBits f).extractLsb' lo n = 0 := by
  apply BitVec.eq_of_getLsbD_eq
  intro k hk
  rw [BitVec.getLsbD_extractLsb', getLsbD_wordOfBits _ (by omega), zero]
  simp

theorem State.irq_eq (s : State) :
    s.irq = ((s.status.bit 1 && s.irqEn.bit 0) ||
      ((s.status.bit 2 || s.status.bit 3 || s.status.bit 4) && s.irqEn.bit 1)) := rfl

/-- Settles O31: the two words read are `Status.word` and `IrqEn.word`. -/
theorem irqIsEnabledStatus : Obligations.IrqIsEnabledStatus := by
  intro s draw seen
  refine ⟨s.status.word, s.irqEn.word, busRead_reg_seen (r := .status) rfl draw seen,
    busRead_reg_seen (r := .irqEn) rfl draw seen, ?_, ?_, ?_, ?_⟩
  · exact extractLsb'_wordOfBits_eq_zero rfl fun k => by rw [Nat.add_comm]; rfl
  · exact extractLsb'_wordOfBits_eq_zero rfl fun k => by rw [Nat.add_comm]; rfl
  · exact s.status.getLsbD_word (by decide)
  · rw [State.irq_eq]
    simp only [Status.getLsbD_word, IrqEn.getLsbD_word, Nat.reduceLT]

/-- A STATUS write clears the bits 4:1 that are written 1 (10_state.md R38). -/
theorem Status.word_clear (st : Status) (w : Word) : (st.clear w).word = st.word &&& ~~~(w &&& 0x1E) := by
  rw [Status.word, wordOfBits_eq_iff]
  intro k hk
  have mask : ∀ k < 32, (0x1E : Word).getLsbD k = (decide (1 ≤ k) && decide (k ≤ 4)) := by decide
  rw [BitVec.getLsbD_and, BitVec.getLsbD_not, BitVec.getLsbD_and, mask k hk, st.getLsbD_word hk]
  match k with
  | 0 | 1 | 2 | 3 | 4 => simp [Status.bit]
  | k + 5 => simp [Status.bit]

/-- Settles O33: the status word read after the write is `Status.word_clear`. -/
theorem statusWriteOneClears : Obligations.StatusWriteOneClears := by
  intro s w draw d seen
  refine ⟨_, s.status.word, (s.status.clear w).word, rfl, busWrite_status w d s,
    busRead_reg_seen (r := .status) rfl draw seen, ?_, s.status.word_clear w⟩
  rw [busWrite_status]
  exact busRead_reg_seen (r := .status) rfl draw seen

/-- Settles O34: `writeReg` at each of the three registers. -/
theorem readOnlyRegistersIgnoreWrites : Obligations.ReadOnlyRegistersIgnoreWrites := by
  intro s w d a register
  simp only [List.mem_cons, List.not_mem_nil, or_false] at register
  obtain rfl | rfl | rfl := register
  · exact busWrite_reg (r := .id) rfl w d s
  · exact busWrite_reg (r := .config) rfl w d s
  · exact busWrite_reg (r := .nz) rfl w d s

/-! ### Lanes -/

/-- Halfword `k` of a word packed from two. -/
theorem halfOf_packHalves (h0 h1 : Level) : halfOf (packHalves h0 h1) 0 = h0 ∧ halfOf (packHalves h0 h1) 1 = h1 :=
  ⟨BitVec.extractLsb'_append_eq_right, BitVec.extractLsb'_append_eq_left⟩

theorem byteOf_readBufWord {b : Buf} (samples : b.isCoef = false) (m : Memory) (a : Nat) (draw : Word) {k : Nat}
    (hk : k < 4) : byteOf (readBufWord m b a draw) k = (m.get (a + k)).getD (byteOf draw k) := by
  rw [readBufWord, samples]
  obtain ⟨byte0, byte1, byte2, byte3⟩ := byteOf_packBytes ((m.get a).getD (byteOf draw 0))
    ((m.get (a + 1)).getD (byteOf draw 1)) ((m.get (a + 2)).getD (byteOf draw 2)) ((m.get (a + 3)).getD (byteOf draw 3))
  match k with
  | 0 => exact byte0
  | 1 => exact byte1
  | 2 => exact byte2
  | 3 => exact byte3

theorem halfOf_readBufWord {b : Buf} (levels : b.isCoef = true) (m : Memory) (a : Nat) (draw : Word) {k : Nat}
    (hk : k < 2) : halfOf (readBufWord m b a draw) k = (m.getLevel (a + 2 * k)).getD (halfOf draw k) := by
  rw [readBufWord, levels]
  obtain ⟨low, high⟩ := halfOf_packHalves ((m.getLevel a).getD (halfOf draw 0)) ((m.getLevel (a + 2)).getD (halfOf draw 1))
  match k with
  | 0 => exact low
  | 1 => exact high

/-- Settles O41: the word read is `readBufWord` of the buffer that holds the offset. -/
theorem idleReadLanes : Obligations.IdleReadLanes := by
  intro s a draw idle aligned low mapped
  obtain ⟨b, holds, -⟩ := exists_buf low mapped
  refine ⟨readBufWord s.mem b a.toNat draw, ?_, fun below k hk => byteOf_readBufWord ?_ s.mem _ draw hk,
    fun above k hk => halfOf_readBufWord ((isCoef_iff holds).mpr above) s.mem _ draw hk⟩
  · rw [busRead_buf aligned holds, idle]
    rfl
  · exact Bool.eq_false_iff.mpr fun coef => absurd ((isCoef_iff holds).mp coef) (by omega)

end Sys2Proof.Machine
end

section
/-! PROOFS. The fields of NZ that read as draws (10_state.md R43). -/

namespace Sys2Proof.Machine

/-- An unwritten byte of a level buffer leaves its level unwritten (log entry 4). -/
theorem exists_level_unwritten {m : Memory} {base n a : Nat} (input : inLevels base n a) (unwritten : m.get a = none) :
    ∃ j, j < n ∧ (a - base) / 2 = j ∧ (m.getLevel (base + 2 * j)).isSome = false := by
  obtain ⟨low, high⟩ := input
  refine ⟨(a - base) / 2, by omega, rfl, ?_⟩
  rw [getLevel_isSome]
  obtain here | here : a = base + 2 * ((a - base) / 2) ∨ a = base + 2 * ((a - base) / 2) + 1 := by omega
  · rw [← here, unwritten]
    rfl
  · rw [← here, unwritten, Option.isSome_none, Bool.and_false]

section
variable {m : Memory} {a : Nat} (unwritten : m.get a = none)
include unwritten

theorem yNz_of_unwritten_input {b : Nat} (input : inLevels (0x800 + 32 * b) 16 a) : yNz m b = none := by
  obtain ⟨j, hj, -, level⟩ := exists_level_unwritten input unwritten
  refine someNonzero_of_unwritten ((mem_blockAddrs _ _ _).mpr ⟨j / 4, j % 4, by omega, by omega, ?_⟩) level
  simp only [coefAddr_eq, Comp.coef, Buf.base]
  omega

theorem dcNz_of_unwritten_input {c : Comp} (input : inLevels c.dc.base (c.side * c.side) a) : dcNz m c = none := by
  obtain ⟨j, hj, -, level⟩ := exists_level_unwritten input unwritten
  exact someNonzero_of_unwritten (List.mem_map.mpr ⟨j, List.mem_range.mpr hj, rfl⟩) level

theorem acNz_of_unwritten_input {c : Comp} (input : inAcLevels c.coef.base (16 * (c.side * c.side)) a) :
    acNz m c = none := by
  obtain ⟨inBuffer, ac⟩ := input
  obtain ⟨j, hj, index, level⟩ := exists_level_unwritten inBuffer unwritten
  rw [index] at ac
  refine someNonzero_of_unwritten ((mem_acAddrs _ _).mpr
    ⟨j / 16, j / 4 % 4, j % 4, by omega, by omega, by omega, by omega, ?_⟩) level
  rw [coefAddr_eq]
  omega

theorem coefAddrs_of_unwritten_input {c : Comp} (input : inLevels c.coef.base (16 * (c.side * c.side)) a) :
    ∃ l ∈ coefAddrs c, (m.getLevel l).isSome = false := by
  obtain ⟨j, hj, -, level⟩ := exists_level_unwritten input unwritten
  refine ⟨_, (mem_coefAddrs _ _).mpr ⟨j / 16, j / 4 % 4, j % 4, by omega, by omega, by omega, ?_⟩, level⟩
  rw [coefAddr_eq]
  omega

theorem cbpLuma_of_unwritten_input {q b : Nat} (corner : b ∈ [0, 1, 4, 5])
    (input : inLevels (0x800 + 32 * (8 * (q / 2) + 2 * (q % 2) + b)) 16 a) : cbpLuma m q = none := by
  have undefined := yNz_of_unwritten_input unwritten input
  simp only [List.mem_cons, List.not_mem_nil, or_false] at corner
  simp only [cbpLuma]
  split
  · next b0 b1 b4 b5 =>
    obtain rfl | rfl | rfl | rfl := corner
    · cases undefined.symm.trans b0
    · cases undefined.symm.trans b1
    · cases undefined.symm.trans b4
    · cases undefined.symm.trans b5
  · rfl

theorem cbpChroma_of_unwritten_input
    (input : inLevels 0xA40 64 a ∨ inLevels 0xAC0 4 a ∨ inLevels 0xB00 64 a ∨ inLevels 0xB80 4 a) : cbpChroma m = none := by
  unfold cbpChroma
  split
  · next coef cbDc crDc _ _ =>
    have someLevel : ∀ l ∈ coefAddrs .cb ++ coefAddrs .cr, (m.getLevel l).isSome = false → False := fun l hl level => by
      cases (someNonzero_of_unwritten hl level).symm.trans coef
    obtain cb | dc | cr | dc := input
    · obtain ⟨l, hl, level⟩ := coefAddrs_of_unwritten_input unwritten (c := .cb) cb
      exact (someLevel l (List.mem_append_left _ hl) level).elim
    · cases (dcNz_of_unwritten_input unwritten (c := .cb) dc).symm.trans cbDc
    · obtain ⟨l, hl, level⟩ := coefAddrs_of_unwritten_input unwritten (c := .cr) cr
      exact (someLevel l (List.mem_append_right _ hl) level).elim
    · cases (dcNz_of_unwritten_input unwritten (c := .cr) dc).symm.trans crDc
  · rfl

/-- A field is undefined if some byte it is computed from is unwritten (10_state.md R43 b). -/
theorem nzBit_of_unwritten_input {k : Nat} (input : nzInputs k a) : nzBit m k = none := by
  unfold nzInputs at input
  split_ifs at input with luma h h h h h cbp
  · exact (nzBit_yNz m luma).trans (yNz_of_unwritten_input unwritten input)
  · rw [h]
    exact dcNz_of_unwritten_input unwritten (c := .y) input
  · rw [h]
    exact dcNz_of_unwritten_input unwritten (c := .cb) input
  · rw [h]
    exact acNz_of_unwritten_input unwritten (c := .cb) input
  · rw [h]
    exact dcNz_of_unwritten_input unwritten (c := .cr) input
  · rw [h]
    exact acNz_of_unwritten_input unwritten (c := .cr) input
  · obtain ⟨q, rfl⟩ := Nat.exists_eq_add_of_le cbp.1
    obtain ⟨b, corner, input⟩ := input
    rw [Nat.add_sub_cancel_left] at input
    exact (nzBit_cbpLuma m (by omega)).trans (cbpLuma_of_unwritten_input unwritten corner input)
  · obtain ⟨field, input⟩ := input
    obtain ⟨j, rfl⟩ := Nat.exists_eq_add_of_le (show 28 ≤ k by omega)
    rw [nzBit_cbpChroma m (by omega), cbpChroma_of_unwritten_input unwritten input, Option.map_none]

end

/-- Settles O43: before the first reset edge the whole word is the draw; afterwards the bit is, busy or undefined. -/
theorem nzFieldsDraw : Obligations.NzFieldsDraw := by
  intro s draw k hk notReserved undefined
  refine ⟨readReg s draw .nz, busRead_reg (r := .nz) rfl draw s, ?_⟩
  unfold readReg
  split
  · rw [regValue, getLsbD_nzRead _ _ _ hk, notReserved]
    obtain busy | ⟨a, input, unwritten⟩ := undefined
    · rw [busy]
      rfl
    · rw [nzBit_of_unwritten_input unwritten input]
      simp
  · rfl

end Sys2Proof.Machine
end

section
/-! PROOFS. The quantisers and the ranges of the forward path (40_forward.md R121, R123), and the clamps (41_inverse.md
R149). -/

namespace Sys2Proof.Machine

/-! ### The clamps -/

theorem clip3_of_mem {lo hi v : Int} (low : lo ≤ v) (high : v ≤ hi) : clip3 lo hi v = v := by
  rw [clip3, if_neg (by omega), if_neg (by omega)]

/-- Settles O57: neither clamp moves the sum. -/
theorem decoderAgreesInsideRange : Obligations.DecoderAgreesInsideRange := by
  intro pred r
  have decoder : ∀ hi : Int, hi ≤ 255 → 16 ≤ pred + r → pred + r ≤ hi → clip3 16 hi (pred + r) = clip3 0 255 (pred + r) :=
    fun hi inByte low high => by rw [clip3_of_mem low high, clip3_of_mem (by omega) (by omega)]
  refine ⟨decoder 235 (by decide), fun pl => ?_⟩
  cases pl with
  | cb | cr => exact decoder 240 (by decide)

/-! ### Monotone quotients with a dead zone -/

theorem signQuot_of_pos {w : Int} (h : 0 < w) (m f n : Nat) : signQuot w m f n = shr (w.natAbs * m + f) n := by
  rw [signQuot, Int.sign_eq_one_of_pos h, one_mul]

theorem signQuot_mono_of_nonneg {w w' : Int} (h : 0 ≤ w) (le : w ≤ w') (m f n : Nat) :
    signQuot w m f n ≤ signQuot w' m f n := by
  obtain rfl | pos := eq_or_lt_of_le h
  · rw [signQuot_zero]
    exact signQuot_nonneg le m f n
  · rw [signQuot_of_pos pos, signQuot_of_pos (pos.trans_le le)]
    have magnitude : w.natAbs * m ≤ w'.natAbs * m := Nat.mul_le_mul_right m (by omega)
    exact shr_mono (by exact_mod_cast Nat.add_le_add_right magnitude f) n

/-- Below 0 by oddness, across 0 by the signs. -/
theorem signQuot_mono {w w' : Int} (le : w ≤ w') (m f n : Nat) : signQuot w m f n ≤ signQuot w' m f n := by
  have negative : ∀ x : Int, signQuot x m f n = -signQuot (-x) m f n := fun x => by rw [signQuot_neg, neg_neg]
  obtain nonneg | neg := le_or_gt 0 w
  · exact signQuot_mono_of_nonneg nonneg le m f n
  · obtain nonneg' | neg' := le_or_gt 0 w'
    · have below := signQuot_nonneg (w := -w) (by omega) m f n
      have above := signQuot_nonneg nonneg' m f n
      rw [negative w]
      omega
    · have reversed := signQuot_mono_of_nonneg (w := -w') (w' := -w) (by omega) (by omega) m f n
      rw [negative w, negative w']
      omega

/-- The dead zone of a quotient whose rounding term is below one quantum. -/
theorem signQuot_eq_zero_iff (w : Int) (m : Nat) {f n : Nat} (hf : f < 2 ^ n) :
    signQuot w m f n = 0 ↔ w.natAbs * m + f < 2 ^ n := by
  obtain rfl | nonzero := eq_or_ne w 0
  · simpa using hf
  · have sign : w.sign ≠ 0 := Int.sign_eq_zero_iff_zero.not.mpr nonzero
    rw [signQuot, mul_eq_zero, or_iff_right sign, shr_eq_zero (by positivity)]
    norm_cast

theorem two_mul_fIntra_lt (qp : Nat) : 2 * fIntra qp < 2 ^ (qbits qp + 1) := by
  have single := fIntra_lt qp
  rw [Nat.pow_succ]
  omega

theorem coreTransform_neg (x : Mat) (u v : Nat) : coreTransform (fun i j => -x i j) u v = -coreTransform x u v := by
  simp only [coreTransform, sum4]
  ring

/-- Settles O8: both quantisers are a `signQuot`, and the core transform is odd. -/
theorem quantisersMonotone : Obligations.QuantisersMonotone := by
  refine ⟨fun w w' qp u v le => ?_, fun w w' qp le => ?_, quant_neg, fun w qp => ?_, fun w qp u v => ?_, fun w qp => ?_,
    fun x qp u v => ?_⟩
  · rw [quant_eq, quant_eq]
    exact signQuot_mono le _ _ _
  · rw [quantDC_eq, quantDC_eq]
    exact signQuot_mono le _ _ _
  · rw [quantDC_eq, quantDC_eq, signQuot_neg]
  · rw [quant_eq]
    exact signQuot_eq_zero_iff w _ (fIntra_lt qp)
  · rw [quantDC_eq]
    exact signQuot_eq_zero_iff w _ (two_mul_fIntra_lt qp)
  · rw [coreTransform_neg, quant_neg]

/-! ### Ranges of the levels -/

theorem quant_coreTransform_bound {x : Mat} (hx : ∀ i j, i < 4 → j < 4 → (x i j).natAbs ≤ 255) {u v : Nat} (hu : u < 4)
    (hv : v < 4) {qp : Nat} (hqp : qp ≤ 51) : (quant (coreTransform x u v) qp u v).natAbs ≤ 1632 := by
  have worst : ∀ qp, qp < 52 → ∀ u, u < 4 → ∀ v, v < 4 →
      (255 * ((if u % 2 = 0 then 4 else 6) * (if v % 2 = 0 then 4 else 6)) * mf (qp % 6) (cls u v) + fIntra qp) /
        2 ^ qbits qp ≤ 1632 := by decide +kernel
  rw [quant_eq]
  exact (signQuot_abs_le (coreTransform_bound hx hu hv) _ _ _).trans (worst qp (by omega) u hu v hv)

/-- The bound of a quantised DC term, from its bound's own quotients. -/
theorem quantDC_bound {w : Int} {k n : Nat} (hw : w.natAbs ≤ k)
    (worst : ∀ qp, qp < 52 → (k * mf (qp % 6) 0 + 2 * fIntra qp) / 2 ^ (qbits qp + 1) ≤ n) {qp : Nat} (hqp : qp ≤ 51) :
    (quantDC w qp).natAbs ≤ n := by
  rw [quantDC_eq]
  exact (signQuot_abs_le hw _ _ _).trans (worst qp (by omega))

/-- Settles O9: the bounds of the transforms, then of the quantisers on them. -/
theorem forwardRanges : Obligations.ForwardRanges := by
  intro x small qp hqp
  have inBlock : ∀ i j, i < 4 → j < 4 → (x i j).natAbs ≤ 255 := fun i j _ _ => small i j
  refine ⟨fun u v hu hv => ⟨(coreTransform_bound inBlock hu hv).trans ?_, quant_coreTransform_bound inBlock hu hv hqp⟩,
    coreTransform_bound inBlock (by decide) (by decide), fun d terms m n hm hn => ?_, fun d terms m n hm hn => ?_⟩
  · have gain : ∀ k, (if k % 2 = 0 then 4 else 6) ≤ 6 := fun k => by split <;> decide
    have product := Nat.mul_le_mul (gain u) (gain v)
    omega
  · have dc := lumaDcForward_bound (fun i j _ _ => terms i j) hm hn
    exact ⟨dc, quantDC_bound dc (by decide +kernel) hqp⟩
  · have dc := chromaDcForward_bound (fun i j _ _ => terms i j) hm hn
    exact ⟨dc, quantDC_bound dc (by decide +kernel) hqp⟩

end Sys2Proof.Machine
end

section
/-! PROOFS. The ranges of the inverse path (41_inverse.md R160). -/

namespace Sys2Proof.Machine

/-! ### Shifts and sums -/

theorem natAbs_le_iff (a : Int) (k : Nat) : a.natAbs ≤ k ↔ -(k : Int) ≤ a ∧ a ≤ k := by omega

theorem natAbs_shr_le (a : Int) (n : Nat) : (shr a n).natAbs ≤ a.natAbs := Int.natAbs_ediv_le_natAbs a _

/-- Halving, rounding down, halves an even bound. -/
theorem natAbs_shr_one_le {a : Int} {k : Nat} (h : a.natAbs ≤ 2 * k) : (shr a 1).natAbs ≤ k := by
  unfold shr
  omega

theorem natAbs_shl (a : Int) (n : Nat) : (shl a n).natAbs = a.natAbs * 2 ^ n := by
  rw [shl, Int.natAbs_mul, Int.natAbs_pow]
  rfl

theorem natAbs_sum4_le {f : Nat → Int} {k : Nat} (h : ∀ i, i < 4 → (f i).natAbs ≤ k) : (sum4 f).natAbs ≤ 4 * k := by
  simp only [natAbs_le_iff] at h ⊢
  have h0 := h 0 (by decide)
  have h1 := h 1 (by decide)
  have h2 := h 2 (by decide)
  have h3 := h 3 (by decide)
  unfold sum4
  omega

theorem natAbs_sum2_le {f : Nat → Int} {k : Nat} (h : ∀ i, i < 2 → (f i).natAbs ≤ k) : (sum2 f).natAbs ≤ 2 * k := by
  have h0 := h 0 (by decide)
  have h1 := h 1 (by decide)
  unfold sum2
  omega

/-! ### The two Hadamard transforms -/

/-- An entry of a product with matrices of signs on both sides. -/
theorem natAbs_sign_mul_sign_le {s d s' : Int} {k : Nat} (hs : s.natAbs ≤ 1) (hd : d.natAbs ≤ k) (hs' : s'.natAbs ≤ 1) :
    (s * d * s').natAbs ≤ k := by
  rw [Int.natAbs_mul, Int.natAbs_mul]
  simpa using Nat.mul_le_mul (Nat.mul_le_mul hs hd) hs'

theorem natAbs_hdh_le {d : Mat} {k : Nat} (hd : ∀ i j, (d i j).natAbs ≤ k) {m n : Nat} (hm : m < 4) (hn : n < 4) :
    (hdh d m n).natAbs ≤ 16 * k := by
  have sign : ∀ i, i < 4 → ∀ j, j < 4 → (hadamard4 i j).natAbs ≤ 1 := by decide
  have rows : ∀ i, i < 4 → (sum4 fun j => hadamard4 m i * d i j * hadamard4 j n).natAbs ≤ 4 * k := fun i hi =>
    natAbs_sum4_le fun j hj => natAbs_sign_mul_sign_le (sign m hm i hi) (hd i j) (sign j hj n hn)
  have total := natAbs_sum4_le rows
  rw [hdh]
  omega

theorem natAbs_ada_le {d : Mat} {k : Nat} (hd : ∀ i j, (d i j).natAbs ≤ k) {m n : Nat} (hm : m < 2) (hn : n < 2) :
    (ada d m n).natAbs ≤ 4 * k := by
  have sign : ∀ i, i < 2 → ∀ j, j < 2 → (hadamard2 i j).natAbs ≤ 1 := by decide
  have rows : ∀ i, i < 2 → (sum2 fun j => hadamard2 m i * d i j * hadamard2 j n).natAbs ≤ 2 * k := fun i hi =>
    natAbs_sum2_le fun j hj => natAbs_sign_mul_sign_le (sign m hm i hi) (hd i j) (sign j hj n hn)
  have total := natAbs_sum2_le rows
  rw [ada]
  omega

/-! ### The rescaled levels -/

theorem cls_lt (u v : Nat) : cls u v < 3 := by
  unfold cls
  split
  · decide
  · split <;> decide

/-- Magnitudes of 16-bit levels. -/
theorem natAbs_le_of_level {c : Int} (h : -32768 ≤ c ∧ c ≤ 32767) : c.natAbs ≤ 32768 := by omega

theorem deq_bound {c : Int} (h : -32768 ≤ c ∧ c ≤ 32767) {qp : Nat} (hqp : qp ≤ 51) (u v : Nat) :
    (deq c qp u v).natAbs < 2 ^ 28 := by
  have worst : ∀ qp, qp < 52 → ∀ k, k < 3 → 32768 * (levelScale (qp % 6) k).natAbs * 2 ^ (qp / 6) < 2 ^ 28 := by decide
  rw [deq, natAbs_shl, Int.natAbs_mul]
  refine lt_of_le_of_lt ?_ (worst qp (by omega) _ (cls_lt u v))
  exact Nat.mul_le_mul_right _ (Nat.mul_le_mul_right _ (natAbs_le_of_level h))

theorem lumaDcInverse_bound {c : Mat} (h : ∀ i j, -32768 ≤ c i j ∧ c i j ≤ 32767) {qp : Nat} (hqp : qp ≤ 51) {m n : Nat}
    (hm : m < 4) (hn : n < 4) : (lumaDcInverse qp c m n).natAbs < 2 ^ 29 := by
  have transformed := natAbs_hdh_le (fun i j => natAbs_le_of_level (h i j)) hm hn
  have scaled : (hdh c m n * levelScale (qp % 6) 0).natAbs ≤ 16 * 32768 * (levelScale (qp % 6) 0).natAbs := by
    rw [Int.natAbs_mul]
    exact Nat.mul_le_mul_right _ transformed
  unfold lumaDcInverse
  split
  · have worst : ∀ qp, qp < 52 → 16 * 32768 * (levelScale (qp % 6) 0).natAbs * 2 ^ (qp / 6 - 2) < 2 ^ 29 := by decide
    rw [natAbs_shl]
    exact (Nat.mul_le_mul_right _ scaled).trans_lt (worst qp (by omega))
  · have worst : ∀ qp, qp < 52 → 16 * 32768 * (levelScale (qp % 6) 0).natAbs + 2 < 2 ^ 29 := by decide
    have rounding : ((2 : Int) ^ (1 - qp / 6)).natAbs ≤ 2 := by
      rw [Int.natAbs_pow]
      exact Nat.pow_le_pow_right (j := 1) (by decide) (by omega)
    have sum := Int.natAbs_add_le (hdh c m n * levelScale (qp % 6) 0) (2 ^ (1 - qp / 6))
    exact (natAbs_shr_le _ _).trans_lt (by have := worst qp (by omega); omega)

theorem chromaDcInverse_bound {c : Mat} (h : ∀ i j, -32768 ≤ c i j ∧ c i j ≤ 32767) {qp : Nat} (hqp : qp ≤ 39) {m n : Nat}
    (hm : m < 2) (hn : n < 2) : (chromaDcInverse qp c m n).natAbs < 2 ^ 26 := by
  have worst : ∀ qp, qp < 40 → 4 * 32768 * (levelScale (qp % 6) 0).natAbs * 2 ^ (qp / 6) ≤ 2 * (2 ^ 26 - 1) := by decide
  have transformed := natAbs_ada_le (fun i j => natAbs_le_of_level (h i j)) hm hn
  have scaled : (shl (ada c m n * levelScale (qp % 6) 0) (qp / 6)).natAbs ≤ 2 * (2 ^ 26 - 1) := by
    rw [natAbs_shl, Int.natAbs_mul]
    exact (Nat.mul_le_mul_right _ (Nat.mul_le_mul_right _ transformed)).trans (worst qp (by omega))
  exact Nat.lt_of_le_pred (by decide) (natAbs_shr_one_le scaled)

/-! ### The inverse transform -/

/-- Every intermediate of one butterfly, and its outputs, below `a`'s bound and five halves of that of the others. -/
theorem butterfly_bound {a b c d : Int} {A B : Nat} (ha : a.natAbs ≤ A) (hb : b.natAbs ≤ 2 * B) (hc : c.natAbs ≤ 2 * B)
    (hd : d.natAbs ≤ 2 * B) :
    (a + c).natAbs ≤ A + 2 * B ∧ (a - c).natAbs ≤ A + 2 * B ∧ (shr b 1 - d).natAbs ≤ 3 * B ∧
      (b + shr d 1).natAbs ≤ 3 * B ∧ ∀ k, (butterfly a b c d k).natAbs ≤ A + 5 * B := by
  have halfB := natAbs_shr_one_le hb
  have halfD := natAbs_shr_one_le hd
  simp only [natAbs_le_iff] at *
  refine ⟨by omega, by omega, by omega, by omega, fun k => ?_⟩
  unfold butterfly
  split <;> omega

/-- Scaled coefficients: the first column, where the DC path puts its value, has one bit more than the others. -/
def ScaledRange (d : Mat) : Prop := ∀ i j, (d i j).natAbs ≤ if j = 0 then 2 ^ 29 else 2 ^ 28

section
variable {d : Mat} (h : ScaledRange d)
include h

theorem ScaledRange.rows (i : Nat) :
    (d i 0 + d i 2).natAbs < 2 ^ 32 ∧ (d i 0 - d i 2).natAbs < 2 ^ 32 ∧ (shr (d i 1) 1 - d i 3).natAbs < 2 ^ 32 ∧
      (d i 1 + shr (d i 3) 1).natAbs < 2 ^ 32 ∧ ∀ j, (rowPass d i j).natAbs ≤ 9 * 2 ^ 27 := by
  obtain ⟨add, sub, odd, odd', out⟩ := butterfly_bound (A := 2 ^ 29) (B := 2 ^ 27) (h i 0) (h i 1) (h i 2) (h i 3)
  exact ⟨by omega, by omega, by omega, by omega, fun j => (out j).trans (by decide)⟩

theorem ScaledRange.columns (j : Nat) :
    (rowPass d 0 j + rowPass d 2 j).natAbs < 2 ^ 32 ∧ (rowPass d 0 j - rowPass d 2 j).natAbs < 2 ^ 32 ∧
      (shr (rowPass d 1 j) 1 - rowPass d 3 j).natAbs < 2 ^ 32 ∧
      (rowPass d 1 j + shr (rowPass d 3 j) 1).natAbs < 2 ^ 32 ∧
      ∀ i, (columnPass (rowPass d) i j).natAbs ≤ 63 * 2 ^ 26 := by
  have entry : ∀ i, (rowPass d i j).natAbs ≤ 9 * 2 ^ 27 := fun i => (h.rows i).2.2.2.2 j
  obtain ⟨add, sub, odd, odd', out⟩ :=
    butterfly_bound (A := 9 * 2 ^ 27) (B := 9 * 2 ^ 26) (entry 0) (entry 1) (entry 2) (entry 3)
  exact ⟨by omega, by omega, by omega, by omega, fun i => (out i).trans (by decide)⟩

end

theorem scaledRange_deq {c : Mat} (h : ∀ u v, -32768 ≤ c u v ∧ c u v ≤ 32767) {qp : Nat} (hqp : qp ≤ 51) :
    ScaledRange fun u v => deq (c u v) qp u v := by
  intro i j
  have bound := deq_bound (h i j) hqp i j
  change (deq (c i j) qp i j).natAbs ≤ _
  split <;> omega

theorem scaledRange_scaledWithDc {c : Nat → Mat} (h : ∀ b u v, -32768 ≤ c b u v ∧ c b u v ≤ 32767) {qp : Nat}
    (hqp : qp ≤ 51) {side b : Nat} {dc : Mat} (hdc : (dc (b / side) (b % side)).natAbs < 2 ^ 29) :
    ScaledRange (scaledWithDc qp side dc c b) := by
  intro i j
  have bound := deq_bound (h b i j) hqp i j
  unfold scaledWithDc
  split <;> split <;> omega

/-- The scaled coefficients of each of the three inverse commands. -/
theorem scaledRange_of_command {qp : Nat} (hqp : qp ≤ 51) {c : Nat → Mat} {dc d : Mat} {b : Nat}
    (hc : ∀ b u v, -32768 ≤ c b u v ∧ c b u v ≤ 32767) (hdc : ∀ i j, -32768 ≤ dc i j ∧ dc i j ≤ 32767)
    (hd : (d = fun u v => deq (c b u v) qp u v) ∨ (b < 16 ∧ d = scaledWithDc qp 4 (lumaDcInverse qp dc) c b) ∨
      (b < 4 ∧ qp ≤ 39 ∧ d = scaledWithDc qp 2 (chromaDcInverse qp dc) c b)) : ScaledRange d := by
  obtain rfl | ⟨hb, rfl⟩ | ⟨hb, chroma, rfl⟩ := hd
  · exact scaledRange_deq (hc b) hqp
  · exact scaledRange_scaledWithDc hc hqp (lumaDcInverse_bound hdc hqp (by omega) (by omega))
  · have bound := chromaDcInverse_bound hdc chroma (m := b / 2) (n := b % 2) (by omega) (by omega)
    exact scaledRange_scaledWithDc hc hqp (by omega)

/-- Settles O10: the widths of the scaled coefficients, then of the two passes on them. -/
theorem inverseRanges : Obligations.InverseRanges := by
  intro qp hqp
  refine ⟨fun c low high u v => deq_bound ⟨low, high⟩ hqp u v, fun c h m n hm hn => lumaDcInverse_bound h hqp hm hn,
    fun c h m n hm hn chroma => chromaDcInverse_bound h chroma hm hn, fun c dc d b hc hdc hd => ?_⟩
  have range := scaledRange_of_command hqp hc hdc hd
  refine ⟨fun i _ => ?_, ?_, fun i j _ _ => ?_⟩
  · obtain ⟨add, sub, odd, odd', -⟩ := range.rows i
    exact ⟨add, sub, odd, odd'⟩
  · rintro f rfl j -
    obtain ⟨add, sub, odd, odd', -⟩ := range.columns j
    exact ⟨add, sub, odd, odd'⟩
  · obtain ⟨-, -, -, -, row⟩ := range.rows i
    obtain ⟨-, -, -, -, column⟩ := range.columns j
    have rowBound := row j
    have columnBound := column i
    exact ⟨by omega, by omega, by omega⟩

end Sys2Proof.Machine
end

section
/-! PROOFS. What the commands compute on written inputs: levels (40_forward.md section 2), samples (41_inverse.md section 2)
and both (42_roundtrip_control.md section 1). -/

namespace Sys2Proof.Machine

/-! ### The DC transforms depend on the DC terms of their block indices alone -/

theorem lumaDcForward_congr {d d' : Mat} (h : ∀ i j, i < 4 → j < 4 → d i j = d' i j) :
    lumaDcForward d = lumaDcForward d' := by
  unfold lumaDcForward
  rw [hdh_congr h]

theorem lumaDcInverse_congr {qp : Nat} {d d' : Mat} (h : ∀ i j, i < 4 → j < 4 → d i j = d' i j) :
    lumaDcInverse qp d = lumaDcInverse qp d' := by
  unfold lumaDcInverse
  rw [hdh_congr h]

theorem chromaDcInverse_congr {qp : Nat} {d d' : Mat} (h : ∀ i j, i < 2 → j < 2 → d i j = d' i j) :
    chromaDcInverse qp d = chromaDcInverse qp d' := by
  unfold chromaDcInverse
  rw [ada_congr h]

/-! ### Blocks: FWD_L4, INV_L4, RT_L4 -/

/-- The levels of FWD_L4 on written samples (40_forward.md R118). -/
theorem fwdL4_spec (cfg : Config) {m : Memory} {b : Fin 16} {o p : Mat} (ho : lumaBlockIs m 0x100 b o)
    (hp : lumaBlockIs m 0x300 b p) :
    lumaLevelsAre (fwdL4Mem cfg b m) b
      (fun u v => quant (coreTransform (fun i j => o i j - p i j) u v) cfg.qpY u v) := by
  intro u v hu hv
  have small : ∀ i j, i < 4 → j < 4 → (o i j - p i j).natAbs ≤ 255 := fun i j hi hj => by
    have orig := sampleIs_range (ho i j hi hj)
    have pred := sampleIs_range (hp i j hi hj)
    omega
  have level := getLevel_fwdL4Mem cfg b m hu hv
  rw [blockWritten_of_is (buf := .yOrig) ho, blockWritten_of_is (buf := .yPred) hp, fwdBlockLevel,
    coreTransform_of_block ho hp] at level
  exact (levelIs_iff _ _ _).mpr ⟨_, level, toInt_toLevel (quant_fits small hu hv (Config.qpY_le cfg))⟩

/-- The samples of INV_L4 on written levels and prediction (41_inverse.md R150). -/
theorem invL4_spec (cfg : Config) {m : Memory} {b : Fin 16} {c p : Mat} (hc : lumaLevelsAre m b c)
    (hp : lumaBlockIs m 0x300 b p) :
    lumaBlockIs (invL4Mem cfg b m) 0x500 b
      (fun i j => clip3 16 235 (p i j + itrans (fun u v => deq (c u v) cfg.qpY u v) i j)) := by
  intro i j hi hj
  have sample := get_invL4Mem cfg b m hi hj
  rw [blockLevelsWritten_of_are hc, blockWritten_of_is (buf := .yPred) hp, sampleAt_of_block (buf := .yPred) hp hi hj,
    itrans_of_levels hc, lumaBlock_addr] at sample
  exact (sampleIs_iff _ _ _).mpr ⟨_, sample, toNat_clampedSample .y _ _⟩

/-- Levels lie above all sample buffers. -/
theorem lumaLevelsAre_invL4Mem (cfg : Config) {m : Memory} {b : Fin 16} {c : Mat} (h : lumaLevelsAre m b c) :
    lumaLevelsAre (invL4Mem cfg b m) b c := by
  intro u v hu hv
  have kept : ∀ a, 0x800 ≤ a → m.get a = (invL4Mem cfg b m).get a := fun a above =>
    (get_invL4Mem_out cfg b b.isLt m (by unfold inLumaBlock; omega)).symm
  exact levelIs_congr (kept _ (by omega)) (kept _ (by omega)) (h u v hu hv)

theorem lumaBlockIs_pred_fwdL4Mem (cfg : Config) {m : Memory} {b : Fin 16} {p : Mat} (h : lumaBlockIs m 0x300 b p) :
    lumaBlockIs (fwdL4Mem cfg b m) 0x300 b p := by
  intro i j hi hj
  refine sampleIs_congr (get_fwdL4Mem_out cfg b m ?_).symm (h i j hi hj)
  unfold inLevels
  omega

/-- RT_L4 on written samples: the inverse half reads the levels just written (42_roundtrip_control.md R170). -/
theorem rtL4_spec (cfg : Config) {m : Memory} {b : Fin 16} {o p : Mat} (ho : lumaBlockIs m 0x100 b o)
    (hp : lumaBlockIs m 0x300 b p) :
    lumaLevelsAre (rtL4Mem cfg b m) b
        (fun u v => quant (coreTransform (fun i j => o i j - p i j) u v) cfg.qpY u v) ∧
      lumaBlockIs (rtL4Mem cfg b m) 0x500 b (fun i j => clip3 16 235 (p i j +
        itrans (fun u v => deq (quant (coreTransform (fun i j => o i j - p i j) u v) cfg.qpY u v) cfg.qpY u v) i j)) := by
  have levels := fwdL4_spec cfg ho hp
  exact ⟨lumaLevelsAre_invL4Mem cfg levels, invL4_spec cfg levels (lumaBlockIs_pred_fwdL4Mem cfg hp)⟩

/-! ### Planes: the frames of the two halves by buffers -/

theorem Comp.pred_size (c : Comp) : c.pred.base + c.width * c.width = c.pred.last + 1 := by cases c <;> decide

/-- The forward half changes no buffer but the two that it writes. -/
theorem get_fwdPlaneMem_of_holds {c : Comp} {b : Buf} {a : Nat} (held : b.holds a = true) (notCoef : b ≠ c.coef)
    (notDc : b ≠ c.dc) (qp : Nat) (dcT : Mat → Mat) (m : Memory) : (fwdPlaneMem c qp dcT m).get a = m.get a := by
  have coefSize := c.coef_size
  have dcSize := c.dc_size
  refine get_fwdPlaneMem_out c qp dcT m (fun ⟨low, high⟩ => notCoef (Buf.disjoint held ?_))
    (fun ⟨low, high⟩ => notDc (Buf.disjoint held ?_))
  · exact (Buf.holds_iff _ _).mpr ⟨low, by omega⟩
  · exact (Buf.holds_iff _ _).mpr ⟨low, by omega⟩

/-- The inverse half changes no buffer but the RECON that it writes. -/
theorem get_invPlaneMem_of_holds {c : Comp} {b : Buf} {a : Nat} (held : b.holds a = true) (other : b ≠ c.recon) (qp : Nat)
    (dcT : Mat → Mat) (m : Memory) : (invPlaneMem c qp dcT m).get a = m.get a := by
  refine get_invPlaneMem_out c qp dcT m fun ⟨low, high⟩ => other (Buf.disjoint held ?_)
  rw [c.recon_size] at high
  exact (Buf.holds_iff _ _).mpr ⟨low, Nat.le_of_lt_succ high⟩

/-- A level of a buffer other than the RECON that the inverse half writes. -/
theorem levelIs_invPlaneMem {c : Comp} {b : Buf} {a : Nat} {v : Int} {m : Memory} (first : b.holds a = true)
    (second : b.holds (a + 1) = true) (other : b ≠ c.recon) (qp : Nat) (dcT : Mat → Mat) (h : levelIs m a v) :
    levelIs (invPlaneMem c qp dcT m) a v :=
  levelIs_congr (get_invPlaneMem_of_holds first other qp dcT m).symm (get_invPlaneMem_of_holds second other qp dcT m).symm h

theorem Comp.coef_ne_recon (c : Comp) : c.coef ≠ c.recon := by cases c <;> decide

theorem Comp.dc_ne_recon (c : Comp) : c.dc ≠ c.recon := by cases c <;> decide

theorem Comp.pred_ne_coef (c : Comp) : c.pred ≠ c.coef := by cases c <;> decide

theorem Comp.pred_ne_dc (c : Comp) : c.pred ≠ c.dc := by cases c <;> decide

/-- Level number `k` of a coefficient buffer after the inverse half. -/
theorem levelIs_coef_invPlaneMem {c : Comp} {k : Nat} (hk : k < 16 * (c.side * c.side)) {v : Int} {m : Memory} (qp : Nat)
    (dcT : Mat → Mat) (h : levelIs m (c.coef.base + 2 * k) v) : levelIs (invPlaneMem c qp dcT m) (c.coef.base + 2 * k) v := by
  have size := c.coef_size
  exact levelIs_invPlaneMem ((Buf.holds_iff _ _).mpr ⟨by omega, by omega⟩) ((Buf.holds_iff _ _).mpr ⟨by omega, by omega⟩)
    c.coef_ne_recon qp dcT h

/-- Level number `k` of a DC buffer after the inverse half. -/
theorem levelIs_dc_invPlaneMem {c : Comp} {k : Nat} (hk : k < c.side * c.side) {v : Int} {m : Memory} (qp : Nat)
    (dcT : Mat → Mat) (h : levelIs m (c.dc.base + 2 * k) v) : levelIs (invPlaneMem c qp dcT m) (c.dc.base + 2 * k) v := by
  have size := c.dc_size
  exact levelIs_invPlaneMem ((Buf.holds_iff _ _).mpr ⟨by omega, by omega⟩) ((Buf.holds_iff _ _).mpr ⟨by omega, by omega⟩)
    c.dc_ne_recon qp dcT h

theorem planeIs_pred_fwdPlaneMem {c : Comp} {m : Memory} {p : Nat → Nat → Int} (qp : Nat) (dcT : Mat → Mat)
    (h : planeIs m c.pred.base c.width p) : planeIs (fwdPlaneMem c qp dcT m) c.pred.base c.width p := by
  intro x y hx hy
  have held := holds_sampleAddr c.pred_size hx hy
  exact sampleIs_congr (get_fwdPlaneMem_of_holds held c.pred_ne_coef c.pred_ne_dc qp dcT m).symm (h x y hx hy)

/-! ### Planes: both halves -/

/-- What a component's DC transforms must satisfy: the forward one is bounded, and both depend on the block indices
alone. -/
structure DcPath (c : Comp) (forward inverse : Mat → Mat) : Prop where
  forwardDep : ∀ d d' : Mat, (∀ i j, i < c.side → j < c.side → d i j = d' i j) → forward d = forward d'
  inverseDep : ∀ d d' : Mat, (∀ i j, i < c.side → j < c.side → d i j = d' i j) → inverse d = inverse d'
  bound : ∀ d : Mat, (∀ i j, i < c.side → j < c.side → (d i j).natAbs ≤ 4080) →
    ∀ i j, i < c.side → j < c.side → (forward d i j).natAbs ≤ 32640

theorem dcPath_luma (qp : Nat) : DcPath .y lumaDcForward (lumaDcInverse qp) where
  forwardDep _ _ := lumaDcForward_congr
  inverseDep _ _ := lumaDcInverse_congr
  bound _ terms _ _ hi hj := lumaDcForward_bound terms hi hj

theorem dcPath_chroma (p : Plane) (qp : Nat) : DcPath (planeComp p) chromaDcForward (chromaDcInverse qp) := by
  constructor <;> rw [Comp.side_plane]
  · exact fun _ _ => ada_congr
  · exact fun _ _ => chromaDcInverse_congr
  · exact fun _ terms _ _ hi hj => (chromaDcForward_bound terms hi hj).trans (by decide)

/-- The levels of the component on the samples `o` and `p`, as FWD_L16 and FWD_C8 define them. -/
structure ForwardLevels (m : Memory) (c : Comp) (qp : Nat) (dcT : Mat → Mat) (o p : Nat → Nat → Int) : Prop where
  ac : acLevelsAre m c.coef.base (c.side * c.side) (fun b u v => quant (planeCore c.side o p b u v) qp u v)
  zero : ∀ b, b < c.side * c.side → levelIs m (c.coef.base + 32 * b) 0
  dc : dcLevelsAre m c.dc.base c.side (fun i j => quantDC (dcT (planeDc c.side o p) i j) qp)

section
variable {c : Comp} {forward inverse : Mat → Mat} (path : DcPath c forward inverse) {qp : Nat} (hqp : qp ≤ 51) {m : Memory}
  {o p : Nat → Nat → Int} (ho : planeIs m c.orig.base c.width o) (hp : planeIs m c.pred.base c.width p)
include path hqp ho hp

theorem forwardLevels_fwdPlaneMem : ForwardLevels (fwdPlaneMem c qp forward m) c qp forward o p := by
  obtain ⟨ac, zero, dc⟩ := fwdPlane_spec c hqp forward m o p path.forwardDep path.bound ho hp
  exact ⟨ac, zero, dc⟩

/-- The round trip of a plane: the inverse half reads the levels just written and leaves them (42_roundtrip_control.md R172,
R174). -/
theorem rtPlane_spec :
    ForwardLevels (invPlaneMem c qp inverse (fwdPlaneMem c qp forward m)) c qp forward o p ∧
      planeIs (invPlaneMem c qp inverse (fwdPlaneMem c qp forward m)) c.recon.base c.width
        (fun x y => clampedSample c (p x y) (itrans (scaledWithDc qp c.side
          (inverse fun i j => quantDC (forward (planeDc c.side o p) i j) qp)
          (fun b u v => quant (planeCore c.side o p b u v) qp u v) (blockOf c x y)) (y % 4) (x % 4))) := by
  obtain ⟨ac, zero, dc⟩ := forwardLevels_fwdPlaneMem path hqp ho hp
  refine ⟨⟨fun b u v hb hu hv huv => ?_, fun b hb => ?_, fun i j hi hj => ?_⟩,
    invPlane_spec c qp inverse _ _ _ p path.inverseDep ac dc (planeIs_pred_fwdPlaneMem qp forward hp)⟩
  · exact levelIs_coef_invPlaneMem (by omega) qp inverse (ac b u v hb hu hv huv)
  · have level := zero b hb
    rw [show 32 * b = 2 * (16 * b) by omega] at level ⊢
    exact levelIs_coef_invPlaneMem (by omega) qp inverse level
  · exact levelIs_dc_invPlaneMem (blockIndex_lt hi hj) qp inverse (dc i j hi hj)

end

/-! ### The obligations -/

/-- Settles O13, by `fwdL4_spec` and the frame of all commands. -/
theorem fwdL4Levels : Obligations.FwdL4Levels := fun s b _ _ ho hp =>
  ⟨_, exec_eq (.fwdL4 b) s, rfl, fwdL4_spec s.cfg ho hp, fun _ => execMem_frame s.cfg (.fwdL4 b) s.mem⟩

/-- Settles O16, by `invL4_spec`. -/
theorem invL4Samples : Obligations.InvL4Samples := fun s b _ _ hc hp =>
  ⟨_, exec_eq (.invL4 b) s, rfl, invL4_spec s.cfg hc hp, fun _ => execMem_frame s.cfg (.invL4 b) s.mem⟩

/-- Settles O19, by `rtL4_spec`. -/
theorem rtL4RoundTrip : Obligations.RtL4RoundTrip := by
  intro s b o p ho hp
  obtain ⟨levels, samples⟩ := rtL4_spec s.cfg ho hp
  exact ⟨_, exec_eq (.rtL4 b) s, rfl, levels, samples, fun _ => execMem_frame s.cfg (.rtL4 b) s.mem⟩

/-- Settles O14, by `forwardLevels_fwdPlaneMem` on luma. -/
theorem fwdL16Levels : Obligations.FwdL16Levels := by
  intro s o p ho hp
  obtain ⟨ac, zero, dc⟩ := forwardLevels_fwdPlaneMem (dcPath_luma s.cfg.qpY) (Config.qpY_le s.cfg) ho hp
  exact ⟨_, exec_eq .fwdL16 s, rfl, ac, zero, dc, fun _ => execMem_frame s.cfg .fwdL16 s.mem⟩

/-- Settles O17, by `invPlane_spec` on luma, which asks nothing of the levels `[b][0][0]`. -/
theorem invL16Samples : Obligations.InvL16Samples := fun s c dc p hc hd hp =>
  ⟨_, exec_eq .invL16 s, rfl, invPlane_spec .y s.cfg.qpY _ s.mem c dc p (dcPath_luma s.cfg.qpY).inverseDep hc hd hp,
    fun _ => execMem_frame s.cfg .invL16 s.mem⟩

/-- Settles O20, by `rtPlane_spec` on luma. -/
theorem rtL16RoundTrip : Obligations.RtL16RoundTrip := by
  intro s o p ho hp
  obtain ⟨⟨ac, zero, dc⟩, samples⟩ := rtPlane_spec (dcPath_luma s.cfg.qpY) (Config.qpY_le s.cfg) ho hp
  exact ⟨_, exec_eq .rtL16 s, rfl, ⟨_, _, rfl, rfl, ac, zero, dc, samples⟩, fun _ => execMem_frame s.cfg .rtL16 s.mem⟩

theorem clampedSample_plane (pl : Plane) (pred r : Int) :
    clampedSample (planeComp pl) pred r = clip3 16 240 (pred + r) := by cases pl <;> rfl

/-- Settles O15, by `forwardLevels_fwdPlaneMem` on the named chroma plane. -/
theorem fwdC8Levels : Obligations.FwdC8Levels := by
  intro s pl o p ho hp
  obtain ⟨coefBase, dcBase, origBase, predBase, -⟩ := chroma_bases pl
  obtain ⟨ac, zero, dc⟩ := forwardLevels_fwdPlaneMem (dcPath_chroma pl s.cfg.qpC)
    ((Config.qpC_le s.cfg).trans (by decide)) (by rwa [origBase, Comp.width_plane]) (by rwa [predBase, Comp.width_plane])
  rw [coefBase, Comp.side_plane] at ac zero
  rw [dcBase, Comp.side_plane] at dc
  exact ⟨_, exec_eq (.fwdC8 pl) s, rfl, ac, zero, dc, fun _ => execMem_frame s.cfg (.fwdC8 pl) s.mem⟩

/-- Settles O18, by `invPlane_spec` on the named chroma plane. -/
theorem invC8Samples : Obligations.InvC8Samples := by
  intro s pl c dc p hc hd hp
  obtain ⟨coefBase, dcBase, -, predBase, reconBase⟩ := chroma_bases pl
  have samples := invPlane_spec (planeComp pl) s.cfg.qpC _ s.mem c dc p (dcPath_chroma pl s.cfg.qpC).inverseDep
    (by rwa [coefBase, Comp.side_plane]) (by rwa [dcBase, Comp.side_plane]) (by rwa [predBase, Comp.width_plane])
  simp only [clampedSample_plane, blockOf, Comp.side_plane, Comp.width_plane, reconBase] at samples
  exact ⟨_, exec_eq (.invC8 pl) s, rfl, samples, fun _ => execMem_frame s.cfg (.invC8 pl) s.mem⟩

/-- Settles O21, by `rtPlane_spec` on the named chroma plane. -/
theorem rtC8RoundTrip : Obligations.RtC8RoundTrip := by
  intro s pl o p ho hp
  obtain ⟨coefBase, dcBase, origBase, predBase, reconBase⟩ := chroma_bases pl
  obtain ⟨⟨ac, zero, dc⟩, samples⟩ := rtPlane_spec (dcPath_chroma pl s.cfg.qpC)
    ((Config.qpC_le s.cfg).trans (by decide)) (by rwa [origBase, Comp.width_plane]) (by rwa [predBase, Comp.width_plane])
  rw [coefBase, Comp.side_plane] at ac zero
  rw [dcBase, Comp.side_plane] at dc
  simp only [clampedSample_plane, blockOf, Comp.side_plane, Comp.width_plane, reconBase] at samples
  exact ⟨_, exec_eq (.rtC8 pl) s, rfl, ⟨_, _, rfl, rfl, ac, zero, dc, samples⟩,
    fun _ => execMem_frame s.cfg (.rtC8 pl) s.mem⟩

end Sys2Proof.Machine
end

section
/-! PROOFS. The frame of every command, the clamp range and the round trip as two commands (10_state.md section 3,
41_inverse.md R161, 42_roundtrip_control.md section 1). -/

namespace Sys2Proof.Machine

/-- Settles O24: every command is `execMem` and completes, in the frame of all commands. -/
theorem everyCommandCompletesInFrame : Obligations.EveryCommandCompletesInFrame := fun i s =>
  ⟨_, exec_eq i s, rfl, fun _ => execMem_frame s.cfg i s.mem⟩

/-! ### The round trip as two commands -/

/-- `rt` is the round-trip command of the forward command `fw` and the inverse command `iv`. -/
def IsRoundTrip (rt fw iv : Instr) : Prop :=
  (∃ b, rt = .rtL4 b ∧ fw = .fwdL4 b ∧ iv = .invL4 b) ∨ (rt = .rtL16 ∧ fw = .fwdL16 ∧ iv = .invL16) ∨
    ∃ p, rt = .rtC8 p ∧ fw = .fwdC8 p ∧ iv = .invC8 p

section
variable {rt fw iv : Instr} (h : IsRoundTrip rt fw iv)
include h

theorem IsRoundTrip.execMem_eq (cfg : Config) (m : Memory) : execMem cfg rt m = execMem cfg iv (execMem cfg fw m) := by
  obtain ⟨b, rfl, rfl, rfl⟩ | ⟨rfl, rfl, rfl⟩ | ⟨p, rfl, rfl, rfl⟩ := h <;> rfl

theorem IsRoundTrip.writes_iff (a : Nat) : writes rt a ↔ writes fw a ∨ writes iv a := by
  obtain ⟨b, rfl, rfl, rfl⟩ | ⟨rfl, rfl, rfl⟩ | ⟨p, rfl, rfl, rfl⟩ := h
  · exact Iff.rfl
  · exact or_assoc.symm
  · exact or_assoc.symm

theorem IsRoundTrip.reads_iff (a : Nat) : reads rt a ↔ reads fw a := by
  obtain ⟨b, rfl, rfl, rfl⟩ | ⟨rfl, rfl, rfl⟩ | ⟨p, rfl, rfl, rfl⟩ := h <;> exact Iff.rfl

/-- The inverse half reads the prediction, which the forward half reads too, and levels that the forward half writes. -/
theorem IsRoundTrip.reads_inverse {a : Nat} (read : reads iv a) : writes fw a ∨ reads fw a := by
  obtain ⟨b, rfl, rfl, rfl⟩ | ⟨rfl, rfl, rfl⟩ | ⟨p, rfl, rfl, rfl⟩ := h
  · exact read.imp id .inr
  · obtain ⟨coef, -⟩ | dc | pred := read
    exacts [.inl (.inl coef), .inl (.inr dc), .inr (.inr pred)]
  · obtain ⟨coef, -⟩ | dc | pred := read
    exacts [.inl (.inl coef), .inl (.inr dc), .inr (.inr pred)]

/-- The two halves share some level. -/
theorem IsRoundTrip.exists_shared : ∃ a, writes fw a ∧ reads iv a := by
  obtain ⟨b, rfl, rfl, rfl⟩ | ⟨rfl, rfl, rfl⟩ | ⟨p, rfl, rfl, rfl⟩ := h
  · exact ⟨0x800 + 32 * b, ⟨by omega, by omega⟩, .inl ⟨by omega, by omega⟩⟩
  · exact ⟨0xA00, .inr ⟨by omega, by omega⟩, .inr (.inl ⟨by omega, by omega⟩)⟩
  · exact ⟨chromaDc p, .inr ⟨by omega, by omega⟩, .inr (.inl ⟨by omega, by omega⟩)⟩

end

/-- Settles O28: the memory by `IsRoundTrip.execMem_eq`; acceptance and completion set BUSY and DONE in turn. -/
theorem roundTripIsForwardThenInverse : Obligations.RoundTripIsForwardThenInverse := by
  intro s rt fw iv d h
  exact ⟨_, _, _, exec_eq fw s, exec_eq iv _, exec_eq rt s, (IsRoundTrip.execMem_eq h s.cfg s.mem).symm, rfl⟩

/-! ### The clamp range -/

/-- An offset of a sample buffer is that of a sample. -/
theorem exists_sampleAddr {c : Comp} {buf : Buf} {a : Nat} (h : inSamples buf.base (c.width * c.width) a) :
    ∃ x y, x < c.width ∧ y < c.width ∧ a = sampleAddr c buf x y := by
  obtain ⟨low, high⟩ := h
  have width : 0 < c.width := by cases c <;> decide
  refine ⟨(a - buf.base) % c.width, (a - buf.base) / c.width, Nat.mod_lt _ width, Nat.div_lt_of_lt_mul (by omega), ?_⟩
  rw [sampleAddr_eq, Nat.div_add_mod]
  omega

theorem ifWritten_eq_some {α : Type} {written : Bool} {v w : α} (h : ifWritten written v = some w) : w = v := by
  cases written with
  | false => cases h
  | true => exact (Option.some.inj h).symm

/-- `v` is a clamped sample of the component whose RECON holds the offset `a`. -/
def ClampedAt (a : Nat) (v : Byte) : Prop :=
  ∃ c : Comp, c.recon.holds a = true ∧ ∃ pred r, v = toSample (clampedSample c pred r)

/-- A sample that INV_L4 wrote and that holds a value. -/
theorem clampedAt_invL4Mem (cfg : Config) (b : Fin 16) (m : Memory) {a : Nat} (h : inLumaBlock 0x500 b a) {v : Byte}
    (value : (invL4Mem cfg b m).get a = some v) : ClampedAt a v := by
  have held : Buf.yRecon.holds a = true := by
    obtain ⟨low, high, -⟩ := h
    exact (Buf.holds_iff _ _).mpr ⟨low, Nat.le_of_lt_succ high⟩
  obtain ⟨i, j, hi, hj, rfl⟩ := (inLumaBlock_iff _ _ _ b.isLt).mp h
  rw [show 0x500 = Buf.yRecon.base from rfl, ← lumaBlock_addr, get_invL4Mem cfg b m hi hj] at value
  exact ⟨.y, held, _, _, ifWritten_eq_some value⟩

/-- A sample that INV_L16 or INV_C8 wrote and that holds a value. -/
theorem clampedAt_invPlaneMem (c : Comp) (qp : Nat) (dcT : Mat → Mat) (m : Memory) {a : Nat}
    (h : inSamples c.recon.base (c.width * c.width) a) {v : Byte} (value : (invPlaneMem c qp dcT m).get a = some v) :
    ClampedAt a v := by
  have held : c.recon.holds a = true := by
    obtain ⟨low, high⟩ := h
    rw [c.recon_size] at high
    exact (Buf.holds_iff _ _).mpr ⟨low, Nat.le_of_lt_succ high⟩
  obtain ⟨x, y, hx, hy, rfl⟩ := exists_sampleAddr h
  rw [get_invPlaneMem _ _ _ _ hx hy] at value
  exact ⟨c, held, _, _, ifWritten_eq_some value⟩

/-- No forward command writes RECON. -/
theorem IsRoundTrip.not_recon_of_writes {rt fw iv : Instr} (h : IsRoundTrip rt fw iv) {a : Nat} (written : writes fw a) :
    ¬ reconOffset a := by
  obtain ⟨b, -, rfl, -⟩ | ⟨-, rfl, -⟩ | ⟨p, -, rfl, -⟩ := h
  · simp only [writes, inLevels, reconOffset] at written ⊢
    omega
  · simp only [writes, inLevels, reconOffset] at written ⊢
    omega
  · cases p <;> simp only [writes, inLevels, chromaCoef, chromaDc, reconOffset] at written ⊢ <;> omega

/-- The inverse half of a round trip is an inverse command of which the claim is known. -/
theorem clampedAt_inverse (cfg : Config) {rt fw iv : Instr} (h : IsRoundTrip rt fw iv) (m : Memory) {a : Nat}
    (written : writes iv a) {v : Byte} (value : (execMem cfg iv m).get a = some v) : ClampedAt a v := by
  obtain ⟨b, -, -, rfl⟩ | ⟨-, -, rfl⟩ | ⟨p, -, -, rfl⟩ := h
  · exact clampedAt_invL4Mem cfg b m written value
  · exact clampedAt_invPlaneMem .y _ _ m written value
  · obtain ⟨-, -, -, -, reconBase⟩ := chroma_bases p
    refine clampedAt_invPlaneMem (planeComp p) _ _ m ?_ value
    rw [reconBase, Comp.width_plane]
    exact written

theorem clampedAt_roundTrip (cfg : Config) {rt fw iv : Instr} (h : IsRoundTrip rt fw iv) (m : Memory) {a : Nat}
    (written : writes rt a) (recon : reconOffset a) {v : Byte} (value : (execMem cfg rt m).get a = some v) :
    ClampedAt a v := by
  rw [h.execMem_eq] at value
  have inverse := ((h.writes_iff a).mp written).resolve_left fun forward => h.not_recon_of_writes forward recon
  exact clampedAt_inverse cfg h _ inverse value

/-- A command that clamps is the round trip or the inverse half of one. -/
theorem exists_roundTrip_of_clampsRecon {i : Instr} (h : clampsRecon i) :
    (∃ rt fw, IsRoundTrip rt fw i) ∨ ∃ fw iv, IsRoundTrip i fw iv := by
  cases i with
  | invL4 b => exact .inl ⟨_, _, .inl ⟨b, rfl, rfl, rfl⟩⟩
  | invL16 => exact .inl ⟨_, _, .inr (.inl ⟨rfl, rfl, rfl⟩)⟩
  | invC8 p => exact .inl ⟨_, _, .inr (.inr ⟨p, rfl, rfl, rfl⟩)⟩
  | rtL4 b => exact .inr ⟨_, _, .inl ⟨b, rfl, rfl, rfl⟩⟩
  | rtL16 => exact .inr ⟨_, _, .inr (.inl ⟨rfl, rfl, rfl⟩)⟩
  | rtC8 p => exact .inr ⟨_, _, .inr (.inr ⟨p, rfl, rfl, rfl⟩)⟩
  | nop | fwdL4 _ | fwdL16 | fwdC8 _ | pcmCopy | clrCoef => exact h.elim

theorem clampedAt_of_clampsRecon (cfg : Config) {i : Instr} (h : clampsRecon i) (m : Memory) {a : Nat}
    (written : writes i a) (recon : reconOffset a) {v : Byte} (value : (execMem cfg i m).get a = some v) :
    ClampedAt a v := by
  obtain ⟨rt, fw, trip⟩ | ⟨fw, iv, trip⟩ := exists_roundTrip_of_clampsRecon h
  · exact clampedAt_inverse cfg trip m written value
  · exact clampedAt_roundTrip cfg trip m written recon value

/-- The range of a clamped sample, by the RECON it lies in (41_inverse.md R161). -/
theorem ClampedAt.range {a : Nat} {v : Byte} (h : ClampedAt a v) :
    (inSamples 0x500 256 a → 16 ≤ v.toNat ∧ v.toNat ≤ 235) ∧ (inSamples 0x600 128 a → 16 ≤ v.toNat ∧ v.toNat ≤ 240) := by
  obtain ⟨c, held, pred, r, rfl⟩ := h
  have stored := toNat_clampedSample c pred r
  have order : c.lo ≤ c.hi := by cases c <;> decide
  have bounds : c.lo ≤ clampedSample c pred r ∧ clampedSample c pred r ≤ c.hi := clip3_bounds order (pred + r)
  rw [← stored] at bounds
  rw [Buf.holds_iff] at held
  cases c <;> simp only [Comp.recon, Buf.base, Buf.last, Comp.lo, Comp.hi, inSamples] at held bounds ⊢ <;> omega

/-- Settles O27: what holds a value is clamped, and both ranges lie in RECON. -/
theorem reconStaysInClampRange : Obligations.ReconStaysInClampRange := by
  intro i s clamps
  refine ⟨_, exec_eq i s, fun a v written value => ?_⟩
  have range : reconOffset a → _ := fun recon => (clampedAt_of_clampsRecon s.cfg clamps s.mem written recon value).range
  refine ⟨fun luma => (range ?_).1 luma, fun chroma => (range ?_).2 chroma⟩
  · unfold inSamples at luma
    unfold reconOffset
    omega
  · unfold inSamples at chroma
    unfold reconOffset
    omega

end Sys2Proof.Machine
end

section
/-! PROOFS. With ORIG equal to PRED the round trip gives the clamped original (42_roundtrip_control.md section 1). -/

namespace Sys2Proof.Machine

/-! ### The two stages on 0 -/

theorem coreTransform_zero (u v : Nat) : coreTransform (fun _ _ => 0) u v = 0 := by simp [coreTransform, sum4]

theorem hdh_zero (m n : Nat) : hdh (fun _ _ => 0) m n = 0 := by simp [hdh, sum4]

theorem ada_zero (m n : Nat) : ada (fun _ _ => 0) m n = 0 := by simp [ada, sum2]

@[simp] theorem quantDC_zero (qp : Nat) : quantDC 0 qp = 0 := by rw [quantDC_eq, signQuot_zero]

@[simp] theorem deq_zero (qp u v : Nat) : deq 0 qp u v = 0 := by simp [deq, shl]

/-- What a component's DC transforms do with 0. -/
structure DcZero (forward inverse : Mat → Mat) : Prop where
  forward_zero : ∀ m n, forward (fun _ _ => 0) m n = 0
  inverse_zero : ∀ m n, inverse (fun _ _ => 0) m n = 0

/-- The rounding term of the inverse luma path is half a unit, which the shift drops. -/
theorem dcZero_luma (qp : Nat) : DcZero lumaDcForward (lumaDcInverse qp) where
  forward_zero m n := by rw [lumaDcForward, hdh_zero]; rfl
  inverse_zero m n := by
    unfold lumaDcInverse
    rw [hdh_zero, Int.zero_mul, Int.zero_add]
    split
    · exact Int.zero_mul _
    · obtain low | low : qp / 6 = 0 ∨ qp / 6 = 1 := by omega
      · rw [low]; rfl
      · rw [low]; rfl

theorem dcZero_chroma (qp : Nat) : DcZero chromaDcForward (chromaDcInverse qp) where
  forward_zero := ada_zero
  inverse_zero m n := by rw [chromaDcInverse, ada_zero]; simp [shl, shr]

theorem itrans_zero (i j : Nat) : itrans (fun _ _ => 0) i j = 0 := by
  have pass : ∀ k, butterfly 0 0 0 0 k = 0 := fun k => by
    unfold butterfly
    split <;> rfl
  simp only [itrans, columnPass, rowPass, pass]
  rfl

theorem planeCore_self (side : Nat) (o : Nat → Nat → Int) (b u v : Nat) : planeCore side o o b u v = 0 := by
  unfold planeCore planeResidual
  simp only [sub_self]
  exact coreTransform_zero u v

theorem planeDc_self (side : Nat) (o : Nat → Nat → Int) : planeDc side o o = fun _ _ => 0 := by
  funext i j
  exact planeCore_self side o _ 0 0

/-! ### The round trip on a residual of 0 -/

/-- The levels of a residual of 0, by their numbers in the two buffers. -/
theorem ForwardLevels.eq_zero {m : Memory} {c : Comp} {qp : Nat} {forward inverse : Mat → Mat} {o : Nat → Nat → Int}
    (h : ForwardLevels m c qp forward o o) (zero : DcZero forward inverse) :
    (∀ k, k < 16 * (c.side * c.side) → levelIs m (c.coef.base + 2 * k) 0) ∧
      ∀ k, k < c.side * c.side → levelIs m (c.dc.base + 2 * k) 0 := by
  refine ⟨fun k hk => ?_, fun k hk => ?_⟩
  · by_cases first : k % 16 = 0
    · have level := h.zero (k / 16) (by omega)
      rwa [show 32 * (k / 16) = 2 * k by omega] at level
    · have level := h.ac (k / 16) (k / 4 % 4) (k % 4) (by omega) (by omega) (by omega) (by omega)
      rw [show 16 * (k / 16) + 4 * (k / 4 % 4) + k % 4 = k by omega] at level
      simpa only [planeCore_self, quant_zero] using level
  · have level := h.dc (k / c.side) (k % c.side) (Nat.div_lt_of_lt_mul hk) (Nat.mod_lt _ c.side_pos)
    rw [Nat.div_add_mod] at level
    simpa only [planeDc_self, zero.forward_zero, quantDC_zero] using level

/-- The scaled coefficients of a residual of 0. -/
theorem scaledWithDc_self {forward inverse : Mat → Mat} (zero : DcZero forward inverse) (qp side : Nat)
    (o : Nat → Nat → Int) (b : Nat) :
    scaledWithDc qp side (inverse fun i j => quantDC (forward (planeDc side o o) i j) qp)
      (fun b u v => quant (planeCore side o o b u v) qp u v) b = fun _ _ => 0 := by
  funext u v
  simp only [scaledWithDc, planeDc_self, zero.forward_zero, quantDC_zero, zero.inverse_zero, planeCore_self, quant_zero,
    deq_zero, ite_self]

/-- The round trip of a plane with ORIG equal to PRED. -/
theorem rtPlane_self {c : Comp} {forward inverse : Mat → Mat} (path : DcPath c forward inverse)
    (zero : DcZero forward inverse) {qp : Nat} (hqp : qp ≤ 51) {m : Memory} {o : Nat → Nat → Int}
    (ho : planeIs m c.orig.base c.width o) (hp : planeIs m c.pred.base c.width o) :
    ((∀ k, k < 16 * (c.side * c.side) →
        levelIs (invPlaneMem c qp inverse (fwdPlaneMem c qp forward m)) (c.coef.base + 2 * k) 0) ∧
      ∀ k, k < c.side * c.side →
        levelIs (invPlaneMem c qp inverse (fwdPlaneMem c qp forward m)) (c.dc.base + 2 * k) 0) ∧
      planeIs (invPlaneMem c qp inverse (fwdPlaneMem c qp forward m)) c.recon.base c.width
        (fun x y => clip3 c.lo c.hi (o x y)) := by
  obtain ⟨levels, samples⟩ := rtPlane_spec path hqp ho hp
  simp only [scaledWithDc_self zero, itrans_zero, clampedSample, add_zero] at samples
  exact ⟨levels.eq_zero zero, samples⟩

theorem rtL4_self (cfg : Config) {m : Memory} {b : Fin 16} {o : Mat} (ho : lumaBlockIs m 0x100 b o)
    (hp : lumaBlockIs m 0x300 b o) :
    lumaLevelsAre (rtL4Mem cfg b m) b (fun _ _ => 0) ∧
      lumaBlockIs (rtL4Mem cfg b m) 0x500 b (fun i j => clip3 16 235 (o i j)) := by
  have spec := rtL4_spec cfg ho hp
  simpa only [sub_self, coreTransform_zero, quant_zero, deq_zero, itrans_zero, add_zero] using spec

/-- Settles O29, by `rtL4_self` on a block and `rtPlane_self` on the three planes. -/
theorem zeroResidualReproduces : Obligations.ZeroResidualReproduces := by
  refine fun s => ⟨fun b o ho hp => ?block, fun o ho hp => ?luma, fun pl o ho hp => ?chroma⟩
  case block =>
    obtain ⟨levels, samples⟩ := rtL4_self s.cfg ho hp
    exact ⟨_, exec_eq (.rtL4 b) s, levels, samples⟩
  case luma =>
    obtain ⟨⟨coef, dc⟩, samples⟩ := rtPlane_self (dcPath_luma _) (dcZero_luma _) (Config.qpY_le s.cfg) ho hp
    exact ⟨_, exec_eq .rtL16 s, coef, dc, samples⟩
  case chroma =>
    have qp : s.cfg.qpC ≤ 51 := (Config.qpC_le s.cfg).trans (by decide)
    cases pl with
    | cb =>
      obtain ⟨⟨coef, dc⟩, samples⟩ := rtPlane_self (dcPath_chroma .cb _) (dcZero_chroma _) qp ho hp
      exact ⟨_, exec_eq (.rtC8 .cb) s, coef, dc, samples⟩
    | cr =>
      obtain ⟨⟨coef, dc⟩, samples⟩ := rtPlane_self (dcPath_chroma .cr _) (dcZero_chroma _) qp ho hp
      exact ⟨_, exec_eq (.rtC8 .cr) s, coef, dc, samples⟩

end Sys2Proof.Machine
end

section
/-! PROOFS. What a command's outputs depend on (10_state.md R32, 40_forward.md section 3, 41_inverse.md section 3). -/

namespace Sys2Proof.Machine

/-- The two memories hold the same at every offset of `p`. -/
def AgreeOn (p : Nat → Prop) (m m' : Memory) : Prop := ∀ a, p a → m.get a = m'.get a

/-- `f` changes no byte outside `w`, and what it leaves in `w` depends on the bytes of `r` alone. -/
structure Footprint (f : Memory → Memory) (r w : Nat → Prop) : Prop where
  frame : ∀ m a, ¬ w a → (f m).get a = m.get a
  depends : ∀ m m', AgreeOn r m m' → AgreeOn w (f m) (f m')

/-- One body after another, the second of which may read what the first wrote. -/
theorem Footprint.comp {f g : Memory → Memory} {r r' w w' reads : Nat → Prop} (hf : Footprint f r w)
    (hg : Footprint g r' w') (first : ∀ a, r a → reads a) (second : ∀ a, r' a → w a ∨ reads a) :
    Footprint (fun m => g (f m)) reads (fun a => w a ∨ w' a) where
  frame m a outside := by
    rw [hg.frame _ a fun h => outside (.inr h), hf.frame m a fun h => outside (.inl h)]
  depends m m' agree := by
    have written : AgreeOn w (f m) (f m') := hf.depends m m' fun a ha => agree a (first a ha)
    have input : AgreeOn r' (f m) (f m') := fun a ha => by
      by_cases inFirst : w a
      · exact written a inFirst
      · rw [hf.frame m a inFirst, hf.frame m' a inFirst]
        exact agree a ((second a ha).resolve_left inFirst)
    intro a ha
    by_cases inSecond : w' a
    · exact hg.depends _ _ input a inSecond
    · rw [hg.frame _ a inSecond, hg.frame _ a inSecond]
      exact written a (ha.resolve_right inSecond)

theorem Footprint.congr {f : Memory → Memory} {r r' w w' : Nat → Prop} (h : Footprint f r w) (hr : ∀ a, r a → r' a)
    (hw : ∀ a, w' a ↔ w a) : Footprint f r' w' where
  frame m a outside := h.frame m a fun inside => outside ((hw a).mpr inside)
  depends m m' agree a ha := h.depends m m' (fun x hx => agree x (hr x hx)) a ((hw a).mp ha)

/-! ### Operands of two memories that agree -/

theorem inSamples_sampleAddr {c : Comp} {buf : Buf} {x y : Nat} (hx : x < c.width) (hy : y < c.width) :
    inSamples buf.base (c.width * c.width) (sampleAddr c buf x y) := by
  have inside := blockIndex_lt hy hx
  rw [sampleAddr_eq]
  exact ⟨by omega, by omega⟩

theorem inLumaBlock_sampleAddr {buf : Buf} (b : Fin 16) {i j : Nat} (hi : i < 4) (hj : j < 4) :
    inLumaBlock buf.base b (sampleAddr .y buf (blockX .y b + j) (blockY .y b + i)) :=
  (inLumaBlock_iff _ _ _ b.isLt).mpr ⟨i, j, hi, hj, lumaBlock_addr b buf i j⟩

theorem sampleAt_congr {m m' : Memory} {c : Comp} {buf : Buf} {x y : Nat}
    (h : m.get (sampleAddr c buf x y) = m'.get (sampleAddr c buf x y)) : sampleAt m c buf x y = sampleAt m' c buf x y := by
  unfold sampleAt
  rw [h]

theorem levelAt_congr {m m' : Memory} {a : Nat} (h : m.getLevel a = m'.getLevel a) : levelAt m a = levelAt m' a := by
  unfold levelAt
  rw [h]

section
variable {c : Comp} {buf : Buf} {b : Fin 16} {m m' : Memory}

theorem planeWritten_congr (h : AgreeOn (inSamples buf.base (c.width * c.width)) m m') :
    planeWritten m c buf = planeWritten m' c buf := by
  rw [Bool.eq_iff_iff, planeWritten_iff, planeWritten_iff]
  exact forall₄_congr fun x y hx hy => by rw [h _ (inSamples_sampleAddr hx hy)]

theorem blockWritten_congr (h : AgreeOn (inLumaBlock buf.base b) m m') :
    blockWritten m .y buf b = blockWritten m' .y buf b := by
  rw [Bool.eq_iff_iff, blockWritten_iff, blockWritten_iff]
  exact forall₄_congr fun i j hi hj => by rw [h _ (inLumaBlock_sampleAddr b hi hj)]

theorem coreTransform_congr_block (ho : AgreeOn (inLumaBlock Comp.y.orig.base b) m m')
    (hp : AgreeOn (inLumaBlock Comp.y.pred.base b) m m') :
    coreTransform (residual m .y b) = coreTransform (residual m' .y b) :=
  coreTransform_congr fun i j hi hj => by
    unfold residual
    rw [sampleAt_congr (ho _ (inLumaBlock_sampleAddr b hi hj)), sampleAt_congr (hp _ (inLumaBlock_sampleAddr b hi hj))]

theorem coreTransform_congr_plane (ho : AgreeOn (inSamples c.orig.base (c.width * c.width)) m m')
    (hp : AgreeOn (inSamples c.pred.base (c.width * c.width)) m m') {b : Nat} (hb : b < c.side * c.side) :
    coreTransform (residual m c b) = coreTransform (residual m' c b) :=
  coreTransform_congr fun i j hi hj => by
    obtain ⟨hx, hy⟩ := blockCoord_lt c hb hi hj
    unfold residual
    rw [sampleAt_congr (ho _ (inSamples_sampleAddr hx hy)), sampleAt_congr (hp _ (inSamples_sampleAddr hx hy))]

/-- The levels of a luma block by their numbers. -/
theorem coefAddr_luma (b u v : Nat) : coefAddr Comp.y.coef b u v = 0x800 + 32 * b + 2 * (4 * u + v) := by
  simp only [coefAddr_eq, Comp.coef, Buf.base]
  omega

theorem getLevel_congr_block (h : AgreeOn (inLevels (0x800 + 32 * b) 16) m m') {u v : Nat} (hu : u < 4) (hv : v < 4) :
    m.getLevel (coefAddr Comp.y.coef b u v) = m'.getLevel (coefAddr Comp.y.coef b u v) := by
  rw [coefAddr_luma]
  exact getLevel_congr (h _ ⟨by omega, by omega⟩) (h _ ⟨by omega, by omega⟩)

theorem blockLevelsWritten_congr (h : AgreeOn (inLevels (0x800 + 32 * b) 16) m m') :
    blockLevelsWritten m .y b = blockLevelsWritten m' .y b := by
  rw [Bool.eq_iff_iff, blockLevelsWritten_iff, blockLevelsWritten_iff]
  exact forall₄_congr fun u v hu hv => by rw [getLevel_congr_block h hu hv]

theorem getLevel_congr_ac (h : AgreeOn (inAcLevels c.coef.base (16 * (c.side * c.side))) m m') {b u v : Nat}
    (hb : b < c.side * c.side) (hu : u < 4) (hv : v < 4) (huv : ¬ (u = 0 ∧ v = 0)) :
    m.getLevel (coefAddr c.coef b u v) = m'.getLevel (coefAddr c.coef b u v) := by
  have inside : ∀ k, k < 2 → inAcLevels c.coef.base (16 * (c.side * c.side)) (coefAddr c.coef b u v + k) := fun k hk => by
    rw [coefAddr_eq]
    exact ⟨⟨by omega, by omega⟩, by omega⟩
  exact getLevel_congr (h _ (inside 0 (by decide))) (h _ (inside 1 (by decide)))

theorem acLevelsWritten_congr (h : AgreeOn (inAcLevels c.coef.base (16 * (c.side * c.side))) m m') :
    acLevelsWritten m c = acLevelsWritten m' c := by
  rw [Bool.eq_iff_iff, acLevelsWritten_iff, acLevelsWritten_iff]
  exact forall₃_congr fun b u v => forall₄_congr fun hb hu hv huv => by rw [getLevel_congr_ac h hb hu hv huv]

theorem getLevel_congr_dc (h : AgreeOn (inLevels c.dc.base (c.side * c.side)) m m') {i j : Nat} (hi : i < c.side)
    (hj : j < c.side) : m.getLevel (dcAddr c i j) = m'.getLevel (dcAddr c i j) := by
  have inside := blockIndex_lt hi hj
  rw [dcAddr_eq]
  exact getLevel_congr (h _ ⟨by omega, by omega⟩) (h _ ⟨by omega, by omega⟩)

theorem dcLevelsWritten_congr (h : AgreeOn (inLevels c.dc.base (c.side * c.side)) m m') :
    dcLevelsWritten m c = dcLevelsWritten m' c := by
  rw [Bool.eq_iff_iff, dcLevelsWritten_iff, dcLevelsWritten_iff]
  exact forall₄_congr fun i j hi hj => by rw [getLevel_congr_dc h hi hj]

end

/-! ### The bodies -/

/-- A byte that a level write covers. -/
theorem get_fillLevels_of_inLevels {base n a : Nat} (h : inLevels base n a) (m : Memory) (f : Nat → Option Level) :
    (m.fillLevels base n f).get a = (f ((a - base) / 2)).map fun v => levelByte v ((a - base) % 2) := by
  rw [Memory.fillLevels, Memory.get_fill]
  exact if_pos h

theorem get_fillLevels_congr {base n a : Nat} (h : inLevels base n a) (m m' : Memory) {f f' : Nat → Option Level}
    (values : ∀ k, k < n → f k = f' k) : (m.fillLevels base n f).get a = (m'.fillLevels base n f').get a := by
  rw [get_fillLevels_of_inLevels h, get_fillLevels_of_inLevels h, values]
  obtain ⟨low, high⟩ := h
  omega

/-- Two level writes one after the other: the bytes of the second, and of the rest those of the first. -/
theorem footprint_two_fills {base n base' n' : Nat} {f f' : Memory → Nat → Option Level} {r : Nat → Prop}
    (first : ∀ m m', AgreeOn r m m' → ∀ k, k < n → f m k = f m' k)
    (second : ∀ m m', AgreeOn r m m' → ∀ k, k < n' → f' m k = f' m' k) :
    Footprint (fun m => (m.fillLevels base n (f m)).fillLevels base' n' (f' m)) r
      (fun a => inLevels base n a ∨ inLevels base' n' a) where
  frame m a outside := by
    simp only [inLevels] at outside
    rw [Memory.get_fillLevels_out _ _ _ _ (by omega), Memory.get_fillLevels_out _ _ _ _ (by omega)]
  depends m m' agree a ha := by
    by_cases inSecond : inLevels base' n' a
    · exact get_fillLevels_congr inSecond _ _ (second m m' agree)
    · have out : a < base' ∨ base' + 2 * n' ≤ a := by
        unfold inLevels at inSecond
        omega
      rw [Memory.get_fillLevels_out _ _ _ _ out, Memory.get_fillLevels_out _ _ _ _ out]
      exact get_fillLevels_congr (ha.resolve_right inSecond) _ _ (first m m' agree)

theorem footprint_fwdL4 (cfg : Config) (b : Fin 16) :
    Footprint (fwdL4Mem cfg b) (reads (.fwdL4 b)) (writes (.fwdL4 b)) where
  frame m _ := get_fwdL4Mem_out cfg b m
  depends m m' agree a ha := by
    have orig : AgreeOn (inLumaBlock Comp.y.orig.base b) m m' := fun x hx => agree x (.inl hx)
    have pred : AgreeOn (inLumaBlock Comp.y.pred.base b) m m' := fun x hx => agree x (.inr hx)
    have base : coefAddr .coefY b 0 0 = 0x800 + 32 * b := coefAddr_luma b 0 0
    unfold fwdL4Mem
    rw [base, blockWritten_congr (buf := .yOrig) orig, blockWritten_congr (buf := .yPred) pred]
    refine get_fillLevels_congr ha m m' fun k _ => ?_
    rw [fwdBlockLevel, coreTransform_congr_block orig pred, fwdBlockLevel]

theorem footprint_invL4 (cfg : Config) (b : Fin 16) :
    Footprint (invL4Mem cfg b) (reads (.invL4 b)) (writes (.invL4 b)) where
  frame m _ := get_invL4Mem_out cfg b b.isLt m
  depends m m' agree a ha := by
    have levels : AgreeOn (inLevels (0x800 + 32 * b) 16) m m' := fun x hx => agree x (.inl hx)
    have pred : AgreeOn (inLumaBlock Buf.yPred.base b) m m' := fun x hx => agree x (.inr hx)
    have scaled : itrans (blockScaled m .y cfg.qpY b) = itrans (blockScaled m' .y cfg.qpY b) :=
      itrans_congr fun u v hu hv => by rw [blockScaled, levelAt_congr (getLevel_congr_block levels hu hv), blockScaled]
    obtain ⟨i, j, hi, hj, rfl⟩ := (inLumaBlock_iff _ _ _ b.isLt).mp ha
    rw [show 0x500 = Buf.yRecon.base from rfl, ← lumaBlock_addr, get_invL4Mem cfg b m hi hj, get_invL4Mem cfg b m' hi hj,
      blockLevelsWritten_congr levels, blockWritten_congr pred, scaled,
      sampleAt_congr (pred _ (inLumaBlock_sampleAddr b hi hj))]

theorem footprint_fwdPlane {c : Comp} {forward inverse : Mat → Mat} (path : DcPath c forward inverse) (qp : Nat) :
    Footprint (fwdPlaneMem c qp forward)
      (fun a => inSamples c.orig.base (c.width * c.width) a ∨ inSamples c.pred.base (c.width * c.width) a)
      (fun a => inLevels c.coef.base (16 * (c.side * c.side)) a ∨ inLevels c.dc.base (c.side * c.side) a) := by
  unfold fwdPlaneMem
  refine footprint_two_fills (fun m m' agree k hk => ?coef) (fun m m' agree k hk => ?dc)
  all_goals
    have orig : AgreeOn (inSamples c.orig.base (c.width * c.width)) m m' := fun x hx => agree x (.inl hx)
    have pred : AgreeOn (inSamples c.pred.base (c.width * c.width)) m m' := fun x hx => agree x (.inr hx)
    rw [planeWritten_congr orig, planeWritten_congr pred]
  case coef =>
    have core := coreTransform_congr_plane orig pred (b := k / 16) (by omega)
    rw [fwdAcLevel, fwdBlockLevel, core, fwdAcLevel, fwdBlockLevel]
  case dc =>
    have terms : forward (dcTerms m c) = forward (dcTerms m' c) := path.forwardDep _ _ fun i j hi hj => by
      rw [dcTerms, coreTransform_congr_plane orig pred (blockIndex_lt hi hj), dcTerms]
    rw [terms]

theorem footprint_invPlane {c : Comp} {forward inverse : Mat → Mat} (path : DcPath c forward inverse) (qp : Nat) :
    Footprint (invPlaneMem c qp inverse)
      (fun a => inAcLevels c.coef.base (16 * (c.side * c.side)) a ∨ inLevels c.dc.base (c.side * c.side) a ∨
        inSamples c.pred.base (c.width * c.width) a)
      (inSamples c.recon.base (c.width * c.width)) where
  frame m _ := get_invPlaneMem_out c qp inverse m
  depends m m' agree a ha := by
    have ac : AgreeOn (inAcLevels c.coef.base (16 * (c.side * c.side))) m m' := fun x hx => agree x (.inl hx)
    have dc : AgreeOn (inLevels c.dc.base (c.side * c.side)) m m' := fun x hx => agree x (.inr (.inl hx))
    have pred : AgreeOn (inSamples c.pred.base (c.width * c.width)) m m' := fun x hx => agree x (.inr (.inr hx))
    have dcValues : inverse (dcLevels m c) = inverse (dcLevels m' c) :=
      path.inverseDep _ _ fun i j hi hj => levelAt_congr (getLevel_congr_dc dc hi hj)
    obtain ⟨x, y, hx, hy, rfl⟩ := exists_sampleAddr ha
    have block : blockOf c x y < c.side * c.side := by
      unfold Comp.width at hx hy
      exact blockIndex_lt (by omega) (by omega)
    have scaled : itrans (planeScaled m c qp inverse (blockOf c x y)) = itrans (planeScaled m' c qp inverse (blockOf c x y)) :=
      itrans_congr fun u v hu hv => by
        unfold planeScaled
        rw [dcValues]
        split
        · rfl
        · next huv => rw [levelAt_congr (getLevel_congr_ac ac block hu hv huv)]
    rw [get_invPlaneMem _ _ _ _ hx hy, get_invPlaneMem _ _ _ _ hx hy, dcLevelsWritten_congr dc, acLevelsWritten_congr ac,
      planeWritten_congr pred, scaled, sampleAt_congr (pred _ (inSamples_sampleAddr hx hy))]

theorem footprint_copyPlane (c : Comp) :
    Footprint (copyPlane c) (inSamples c.orig.base (c.width * c.width)) (inSamples c.recon.base (c.width * c.width)) where
  frame m _ := get_copyPlane_out c m
  depends m m' agree a ha := by
    obtain ⟨x, y, hx, hy, rfl⟩ := exists_sampleAddr ha
    rw [get_copyPlane c m hx hy, get_copyPlane c m' hx hy]
    exact agree _ (inSamples_sampleAddr hx hy)

theorem footprint_clearLevels (c : Comp) :
    Footprint (clearLevels c) (fun _ => False)
      (fun a => inLevels c.coef.base (16 * (c.side * c.side)) a ∨ inLevels c.dc.base (c.side * c.side) a) :=
  footprint_two_fills (fun _ _ _ _ _ => rfl) (fun _ _ _ _ _ => rfl)

/-! ### The commands -/

theorem footprint_pcmCopy : Footprint pcmCopyMem (reads .pcmCopy) (writes .pcmCopy) := by
  have luma := footprint_copyPlane .y
  have chroma := luma.comp (footprint_copyPlane .cb) (reads := reads .pcmCopy) (fun _ => .inl)
    (fun _ h => .inr (.inr (.inl h)))
  have all := chroma.comp (footprint_copyPlane .cr) (reads := reads .pcmCopy) (fun _ => id)
    (fun _ h => .inr (.inr (.inr h)))
  exact all.congr (fun _ => id) fun _ => or_assoc.symm

theorem footprint_clrCoef : Footprint clrCoefMem (reads .clrCoef) (writes .clrCoef) := by
  have luma := footprint_clearLevels .y
  have chroma := luma.comp (footprint_clearLevels .cb) (reads := reads .clrCoef) (fun _ => id) (fun _ => False.elim)
  have all := chroma.comp (footprint_clearLevels .cr) (reads := reads .clrCoef) (fun _ => id) (fun _ => False.elim)
  exact all.congr (fun _ => id) fun _ => or_assoc.symm

/-- The inverse half reads levels that the forward half wrote, and for the rest what the forward half read too. -/
theorem footprint_roundTrip {cfg : Config} {rt fw iv : Instr} (h : IsRoundTrip rt fw iv)
    (forward : Footprint (execMem cfg fw) (reads fw) (writes fw)) (inverse : Footprint (execMem cfg iv) (reads iv) (writes iv)) :
    Footprint (execMem cfg rt) (reads rt) (writes rt) := by
  have both := forward.comp inverse (reads := reads fw) (fun _ => id) fun _ => h.reads_inverse
  rw [show execMem cfg rt = fun m => execMem cfg iv (execMem cfg fw m) from funext (h.execMem_eq cfg)]
  exact both.congr (fun a => (h.reads_iff a).mpr) h.writes_iff

theorem footprint_fwdC8 (cfg : Config) (p : Plane) : Footprint (fwdC8Mem cfg p) (reads (.fwdC8 p)) (writes (.fwdC8 p)) := by
  cases p with
  | cb => exact footprint_fwdPlane (dcPath_chroma .cb cfg.qpC) cfg.qpC
  | cr => exact footprint_fwdPlane (dcPath_chroma .cr cfg.qpC) cfg.qpC

theorem footprint_invC8 (cfg : Config) (p : Plane) : Footprint (invC8Mem cfg p) (reads (.invC8 p)) (writes (.invC8 p)) := by
  cases p with
  | cb => exact footprint_invPlane (dcPath_chroma .cb cfg.qpC) cfg.qpC
  | cr => exact footprint_invPlane (dcPath_chroma .cr cfg.qpC) cfg.qpC

/-- Every command writes the bytes of its w entries, from those of its r entries (10_state.md R32). -/
theorem footprint_execMem (cfg : Config) (i : Instr) : Footprint (execMem cfg i) (reads i) (writes i) := by
  have fwdL16 : Footprint (execMem cfg .fwdL16) (reads .fwdL16) (writes .fwdL16) :=
    footprint_fwdPlane (dcPath_luma cfg.qpY) cfg.qpY
  have invL16 : Footprint (execMem cfg .invL16) (reads .invL16) (writes .invL16) :=
    footprint_invPlane (dcPath_luma cfg.qpY) cfg.qpY
  cases i with
  | nop => exact ⟨fun _ _ _ => rfl, fun _ _ _ _ => False.elim⟩
  | fwdL4 b => exact footprint_fwdL4 cfg b
  | invL4 b => exact footprint_invL4 cfg b
  | rtL4 b => exact footprint_roundTrip (.inl ⟨b, rfl, rfl, rfl⟩) (footprint_fwdL4 cfg b) (footprint_invL4 cfg b)
  | fwdL16 => exact fwdL16
  | invL16 => exact invL16
  | rtL16 => exact footprint_roundTrip (.inr (.inl ⟨rfl, rfl, rfl⟩)) fwdL16 invL16
  | fwdC8 p => exact footprint_fwdC8 cfg p
  | invC8 p => exact footprint_invC8 cfg p
  | rtC8 p => exact footprint_roundTrip (.inr (.inr ⟨p, rfl, rfl, rfl⟩)) (footprint_fwdC8 cfg p) (footprint_invC8 cfg p)
  | pcmCopy => exact footprint_pcmCopy
  | clrCoef => exact footprint_clrCoef

/-- Settles O25, by the footprint of every command. -/
theorem outputsDependOnReadsAlone : Obligations.OutputsDependOnReadsAlone := by
  intro i s s' cfg agree
  refine ⟨_, _, exec_eq i s, exec_eq i s', fun a written => ?_⟩
  rw [← cfg]
  exact (footprint_execMem s.cfg i).depends _ _ agree a written

end Sys2Proof.Machine
end

section
/-! PROOFS. Unwritten inputs (10_state.md R35 b, 40_forward.md R111, 41_inverse.md R146). -/

namespace Sys2Proof.Machine

/-- An unwritten byte of `r` leaves every byte of `w` unwritten. -/
def Unwrites (f : Memory → Memory) (r w : Nat → Prop) : Prop :=
  ∀ m a, r a → m.get a = none → ∀ a', w a' → (f m).get a' = none

/-! ### The checks that every input is written -/

section
variable {m : Memory} {a : Nat} (unwritten : m.get a = none)
include unwritten

theorem planeWritten_eq_false {c : Comp} {buf : Buf} (h : inSamples buf.base (c.width * c.width) a) :
    planeWritten m c buf = false := by
  obtain ⟨x, y, hx, hy, rfl⟩ := exists_sampleAddr h
  refine Bool.eq_false_iff.mpr fun written => ?_
  have here := (planeWritten_iff m c buf).mp written x y hx hy
  rw [unwritten] at here
  cases here

theorem blockWritten_eq_false {buf : Buf} {b : Fin 16} (h : inLumaBlock buf.base b a) : blockWritten m .y buf b = false := by
  obtain ⟨i, j, hi, hj, rfl⟩ := (inLumaBlock_iff _ _ _ b.isLt).mp h
  refine Bool.eq_false_iff.mpr fun written => ?_
  have here := (blockWritten_iff m .y buf b).mp written i j hi hj
  rw [lumaBlock_addr, unwritten] at here
  cases here

theorem blockLevelsWritten_eq_false {b : Nat} (h : inLevels (0x800 + 32 * b) 16 a) : blockLevelsWritten m .y b = false := by
  obtain ⟨k, hk, -, level⟩ := exists_level_unwritten h unwritten
  refine Bool.eq_false_iff.mpr fun written => ?_
  have here := (blockLevelsWritten_iff m .y b).mp written (k / 4) (k % 4) (by omega) (by omega)
  rw [coefAddr_luma, Nat.div_add_mod, level] at here
  cases here

theorem dcLevelsWritten_eq_false {c : Comp} (h : inLevels c.dc.base (c.side * c.side) a) : dcLevelsWritten m c = false := by
  obtain ⟨k, hk, -, level⟩ := exists_level_unwritten h unwritten
  refine Bool.eq_false_iff.mpr fun written => ?_
  have here := (dcLevelsWritten_iff m c).mp written (k / c.side) (k % c.side) (Nat.div_lt_of_lt_mul hk)
    (Nat.mod_lt _ c.side_pos)
  rw [dcAddr_eq, Nat.div_add_mod, level] at here
  cases here

theorem acLevelsWritten_eq_false {c : Comp} (h : inAcLevels c.coef.base (16 * (c.side * c.side)) a) :
    acLevelsWritten m c = false := by
  obtain ⟨inBuffer, ac⟩ := h
  obtain ⟨k, hk, index, level⟩ := exists_level_unwritten inBuffer unwritten
  rw [index] at ac
  refine Bool.eq_false_iff.mpr fun written => ?_
  have here := (acLevelsWritten_iff m c).mp written (k / 16) (k / 4 % 4) (k % 4) (by omega) (by omega) (by omega) (by omega)
  rw [coefAddr_eq, show 16 * (k / 16) + 4 * (k / 4 % 4) + k % 4 = k by omega, level] at here
  cases here

end

/-! ### The bodies -/

theorem get_fillLevels_of_none {base n a : Nat} (h : inLevels base n a) (m : Memory) {f : Nat → Option Level}
    (empty : ∀ k, f k = none) : (m.fillLevels base n f).get a = none := by
  rw [get_fillLevels_of_inLevels h, empty, Option.map_none]

theorem unwrites_fwdL4 (cfg : Config) (b : Fin 16) : Unwrites (fwdL4Mem cfg b) (reads (.fwdL4 b)) (writes (.fwdL4 b)) := by
  intro m a read unwritten a' written
  have notWritten : (blockWritten m .y .yOrig b && blockWritten m .y .yPred b) = false := by
    obtain orig | pred := read
    · rw [blockWritten_eq_false unwritten (buf := .yOrig) orig, Bool.false_and]
    · rw [blockWritten_eq_false unwritten (buf := .yPred) pred, Bool.and_false]
  have base : coefAddr .coefY b 0 0 = 0x800 + 32 * b := coefAddr_luma b 0 0
  unfold fwdL4Mem
  rw [base, notWritten]
  exact get_fillLevels_of_none written m fun _ => rfl

theorem unwrites_invL4 (cfg : Config) (b : Fin 16) : Unwrites (invL4Mem cfg b) (reads (.invL4 b)) (writes (.invL4 b)) := by
  intro m a read unwritten a' written
  have notWritten : (blockLevelsWritten m .y b && blockWritten m .y .yPred b) = false := by
    obtain levels | pred := read
    · rw [blockLevelsWritten_eq_false unwritten levels, Bool.false_and]
    · rw [blockWritten_eq_false unwritten (buf := .yPred) pred, Bool.and_false]
  obtain ⟨i, j, hi, hj, rfl⟩ := (inLumaBlock_iff _ _ _ b.isLt).mp written
  rw [show 0x500 = Buf.yRecon.base from rfl, ← lumaBlock_addr, get_invL4Mem cfg b m hi hj, notWritten, ifWritten_false]

theorem unwrites_fwdPlane (c : Comp) (qp : Nat) (dcT : Mat → Mat) :
    Unwrites (fwdPlaneMem c qp dcT)
      (fun a => inSamples c.orig.base (c.width * c.width) a ∨ inSamples c.pred.base (c.width * c.width) a)
      (fun a => inLevels c.coef.base (16 * (c.side * c.side)) a ∨ inLevels c.dc.base (c.side * c.side) a) := by
  intro m a read unwritten a' written
  have notWritten : (planeWritten m c c.orig && planeWritten m c c.pred) = false := by
    obtain orig | pred := read
    · rw [planeWritten_eq_false unwritten orig, Bool.false_and]
    · rw [planeWritten_eq_false unwritten pred, Bool.and_false]
  unfold fwdPlaneMem
  rw [notWritten]
  by_cases dc : inLevels c.dc.base (c.side * c.side) a'
  · exact get_fillLevels_of_none dc _ fun _ => rfl
  · have out : a' < c.dc.base ∨ c.dc.base + 2 * (c.side * c.side) ≤ a' := by
      unfold inLevels at dc
      omega
    rw [Memory.get_fillLevels_out _ _ _ _ out]
    exact get_fillLevels_of_none (written.resolve_right dc) m fun _ => rfl

theorem unwrites_invPlane (c : Comp) (qp : Nat) (dcT : Mat → Mat) :
    Unwrites (invPlaneMem c qp dcT)
      (fun a => inAcLevels c.coef.base (16 * (c.side * c.side)) a ∨ inLevels c.dc.base (c.side * c.side) a ∨
        inSamples c.pred.base (c.width * c.width) a)
      (inSamples c.recon.base (c.width * c.width)) := by
  intro m a read unwritten a' written
  have notWritten : (dcLevelsWritten m c && acLevelsWritten m c && planeWritten m c c.pred) = false := by
    obtain ac | dc | pred := read
    · rw [acLevelsWritten_eq_false unwritten ac, Bool.and_false, Bool.false_and]
    · rw [dcLevelsWritten_eq_false unwritten dc, Bool.false_and, Bool.false_and]
    · rw [planeWritten_eq_false unwritten pred, Bool.and_false]
  obtain ⟨x, y, hx, hy, rfl⟩ := exists_sampleAddr written
  rw [get_invPlaneMem _ _ _ _ hx hy, notWritten, ifWritten_false]

/-! ### The commands -/

/-- The forward half leaves its levels unwritten, and one of them makes the inverse half leave its samples so. -/
theorem unwrites_roundTrip {cfg : Config} {rt fw iv : Instr} (h : IsRoundTrip rt fw iv)
    (forward : Unwrites (execMem cfg fw) (reads fw) (writes fw)) (inverse : Unwrites (execMem cfg iv) (reads iv) (writes iv)) :
    Unwrites (execMem cfg rt) (reads rt) (writes rt) := by
  intro m a read unwritten a' written
  have levels := forward m a ((h.reads_iff a).mp read) unwritten
  obtain ⟨shared, sharedWritten, sharedRead⟩ := h.exists_shared
  rw [h.execMem_eq]
  by_cases sample : writes iv a'
  · exact inverse _ shared sharedRead (levels shared sharedWritten) a' sample
  · rw [execMem_frame cfg iv _ sample]
    exact levels a' (((h.writes_iff a').mp written).resolve_right sample)

theorem unwrites_fwdC8 (cfg : Config) (p : Plane) : Unwrites (fwdC8Mem cfg p) (reads (.fwdC8 p)) (writes (.fwdC8 p)) := by
  cases p with
  | cb => exact unwrites_fwdPlane .cb cfg.qpC chromaDcForward
  | cr => exact unwrites_fwdPlane .cr cfg.qpC chromaDcForward

theorem unwrites_invC8 (cfg : Config) (p : Plane) : Unwrites (invC8Mem cfg p) (reads (.invC8 p)) (writes (.invC8 p)) := by
  cases p with
  | cb => exact unwrites_invPlane .cb cfg.qpC (chromaDcInverse cfg.qpC)
  | cr => exact unwrites_invPlane .cr cfg.qpC (chromaDcInverse cfg.qpC)

/-- Every command but PCM_COPY, which copies element by element (42_roundtrip_control.md R180). -/
theorem unwrites_execMem (cfg : Config) {i : Instr} (notCopy : i ≠ .pcmCopy) :
    Unwrites (execMem cfg i) (reads i) (writes i) := by
  have fwdL16 : Unwrites (execMem cfg .fwdL16) (reads .fwdL16) (writes .fwdL16) :=
    unwrites_fwdPlane .y cfg.qpY lumaDcForward
  have invL16 : Unwrites (execMem cfg .invL16) (reads .invL16) (writes .invL16) :=
    unwrites_invPlane .y cfg.qpY (lumaDcInverse cfg.qpY)
  cases i with
  | nop | clrCoef => exact fun _ _ read => read.elim
  | fwdL4 b => exact unwrites_fwdL4 cfg b
  | invL4 b => exact unwrites_invL4 cfg b
  | rtL4 b => exact unwrites_roundTrip (.inl ⟨b, rfl, rfl, rfl⟩) (unwrites_fwdL4 cfg b) (unwrites_invL4 cfg b)
  | fwdL16 => exact fwdL16
  | invL16 => exact invL16
  | rtL16 => exact unwrites_roundTrip (.inr (.inl ⟨rfl, rfl, rfl⟩)) fwdL16 invL16
  | fwdC8 p => exact unwrites_fwdC8 cfg p
  | invC8 p => exact unwrites_invC8 cfg p
  | rtC8 p => exact unwrites_roundTrip (.inr (.inr ⟨p, rfl, rfl, rfl⟩)) (unwrites_fwdC8 cfg p) (unwrites_invC8 cfg p)
  | pcmCopy => exact absurd rfl notCopy

/-- Settles O26, by `unwrites_execMem`. -/
theorem unwrittenInputUnwritesOutputs : Obligations.UnwrittenInputUnwritesOutputs := fun i s a notCopy read unwritten =>
  ⟨_, exec_eq i s, rfl, unwrites_execMem s.cfg notCopy s.mem a read unwritten⟩

end Sys2Proof.Machine
end
